-- ==== Sys2Proof/Word.lean ====
section
/-! DEFINITION. The word types of the block: 32-bit words (rule R5, WORD) and one bit per pin (rules R35, R36). -/

namespace Sys2Proof

/-- A 32-bit word: a request, a response or a window register (R5, R26, R80, R90). -/
abbrev Word := BitVec 32

/-- One bit for each of the 54 pins: bit `p` belongs to pin `p` (R35, R36). -/
abbrev PinBits := BitVec 54

end Sys2Proof
end

