-- ==== Sys2Proof/Syntax.lean ====
section
/-! DEFINITION. The seven operations of `spec/opcode_table.json` (R81) and the seven register families (R84). -/

namespace Sys2Proof

/-- The register families, in the order of their codes (R84). -/
inductive Family where
  | functionSelect
  | setLevel
  | clearLevel
  | readLevel
  | eventStatus
  | risingEdgeEnable
  | fallingEdgeEnable
  deriving DecidableEq, Repr

/-- One operation request (R13, R80, R81). `pin` is the integer `sext_32(REQ[31:16])`. `family`, `level` and `edge`
are the unsigned `ARG`, kept as they are: a value outside the codes is an error of the operation, not of decoding
(R85 to R87). Fields an operation ignores (R83) are not in it. -/
inductive Instr where
  /-- ADDR: the register location of a pin in a family (R119). -/
  | addr (pin : Int) (family : Nat)
  /-- ACK: acknowledge the lowest-numbered pending pin event (R160). -/
  | ack
  /-- CFG_OUT: make a pin an output and drive it to a level (R135). -/
  | cfgOut (pin : Int) (level : Nat)
  /-- CFG_IN: make a pin an input (R137). -/
  | cfgIn (pin : Int)
  /-- EDGE_EN: enable detection of one edge on a pin (R139). -/
  | edgeEn (pin : Int) (edge : Nat)
  /-- EDGE_DIS: disable both edge detections on a pin (R141). -/
  | edgeDis (pin : Int)
  /-- QUERY: a pin's function code and level (R143). -/
  | query (pin : Int)
  deriving DecidableEq, Repr

end Sys2Proof
end

