-- ==== Sys2Proof/WellFormed.lean ====
section
/-! DEFINITION. When an instruction can be written as a request word: its pin fits 16 signed bits and its argument
8 unsigned bits (R80). -/

namespace Sys2Proof

/-- The integers the `PIN` field carries: -32768..32767 (R80). -/
def pinFits (pin : Int) : Bool := decide (-32768 ≤ pin) && decide (pin ≤ 32767)

/-- The values the `ARG` field carries: 0..255 (R80). -/
def argFits (arg : Nat) : Bool := decide (arg < 256)

/-- Every operand fits its field of the request word (R80). -/
def Instr.wellFormed : Instr → Bool
  | .addr pin family => pinFits pin && argFits family
  | .ack => true
  | .cfgOut pin level => pinFits pin && argFits level
  | .cfgIn pin => pinFits pin
  | .edgeEn pin edge => pinFits pin && argFits edge
  | .edgeDis pin => pinFits pin
  | .query pin => pinFits pin

end Sys2Proof
end

