-- ==== Sys2Proof/Decode.lean ====
section
/-! DEFINITION. The decoder, total on request words (R80 to R88), and after it the encoder (R99). A request is exactly
one 32-bit word (R88), so a word is all there is to decode. -/

namespace Sys2Proof

/-- Why a request word is no operation. -/
inductive DecodeError where
  /-- `OP` 0x07..0xFF is reserved (R82). The block answers such a request with UnknownCommand. -/
  | reservedOp (op : Nat)
  deriving DecidableEq, Repr

/-- `OP` = `REQ[7:0]` (R80). -/
def reqOp (w : Word) : Nat := (w.extractLsb' 0 8).toNat

/-- `ARG` = `REQ[15:8]`, unsigned (R80). -/
def reqArg (w : Word) : Nat := (w.extractLsb' 8 8).toNat

/-- `PIN` = `REQ[31:16]`, 16-bit two's complement: the integer `sext_32(REQ[31:16])` (R80). -/
def reqPin (w : Word) : Int := (w.extractLsb' 16 16).toInt

/-- The operation a request word asks for. `OP` alone selects it (R88) and decides which fields are used (R83). -/
def decodeWord (w : Word) : Except DecodeError Instr :=
  match reqOp w with
  | 0 => .ok (.addr (reqPin w) (reqArg w))
  | 1 => .ok .ack
  | 2 => .ok (.cfgOut (reqPin w) (reqArg w))
  | 3 => .ok (.cfgIn (reqPin w))
  | 4 => .ok (.edgeEn (reqPin w) (reqArg w))
  | 5 => .ok (.edgeDis (reqPin w))
  | 6 => .ok (.query (reqPin w))
  | n => .error (.reservedOp n)

/-- The instruction of an opcode-table row's word, its bits numbered as the table numbers them: `REQ` bit 0 first. -/
def decodeTableWord (nbits w : Nat) : Option Instr :=
  (decodeWord (BitVec.ofNat 32 (w % 2 ^ nbits))).toOption

/-- `REQ = (zext_32(PIN[15:0]) << 16) | (ARG << 8) | OP` (R99). -/
def makeRequest (op : Nat) (arg : Nat) (pin : Int) : Word :=
  BitVec.ofInt 16 pin ++ (BitVec.ofNat 8 arg ++ BitVec.ofNat 8 op)

/-- The request word of an instruction (R81, R99). Fields the operation ignores are 0, as R99 has them. -/
def encode : Instr → Word
  | .addr pin family => makeRequest 0 family pin
  | .ack => makeRequest 1 0 0
  | .cfgOut pin level => makeRequest 2 level pin
  | .cfgIn pin => makeRequest 3 0 pin
  | .edgeEn pin edge => makeRequest 4 edge pin
  | .edgeDis pin => makeRequest 5 0 pin
  | .query pin => makeRequest 6 0 pin

end Sys2Proof
end

