-- ==== Sys2Proof/Config.lean ====
section
/-! DEFINITION. The fixed parameters of rule R5, the open parameters of rules R6 to R8 and R201, and the free
values (draws) of `93_implementation_defined.md`. An `opaque` constant has no body: no proof can learn its value. -/

namespace Sys2Proof.Config

/-- PIN_COUNT (R5). -/
def pinCount : Nat := 54

/-- NO_EVENT, the "no pending event" sentinel of ACK; not PIN_COUNT (R5, C6). -/
def noEvent : Nat := 64

/-- GPIO_BASE, an OPEN parameter (R6). -/
opaque gpioBase : Nat

/-- How far WINDOW_BYTES exceeds its least value 0x60 (R7). -/
opaque extraWindowBytes : Nat

/-- WINDOW_BYTES, an OPEN parameter of at least 0x60 (R7). -/
def windowBytes : Nat := extraWindowBytes + 0x60

/-- How far NUM_REQUESTERS exceeds its least value 2 (R8). -/
opaque extraRequesters : Nat

/-- NUM_REQUESTERS, an OPEN parameter of at least 2 (R8). -/
def numRequesters : Nat := extraRequesters + 2

/-- WINDOW_AVAILABLE, the boot parameter of rule R201. -/
opaque windowAvailable : Bool

/-- What the environment draws at one bus transaction (`93_implementation_defined.md` U2, U3, U4, U6, U9, U10). -/
structure BusDraw where
  /-- The transaction returns `ERR` (R73, U10). -/
  err : Bool
  /-- If a write returns `ERR`: the register holds the written value, not the old one (R73, U9). -/
  took : Bool
  /-- A read: the bits no rule fixes (non-pin bits U3, alternate-function levels U6, SET and CLR U4).
  A FunctionSelect write: bit `p % 10` is the output latch of a pin `p` it turns into Output (R52, U2). -/
  bits : Word
  deriving DecidableEq, Repr, Inhabited

/-- The draw of the `n`-th transaction, where the state's list of draws is used up (log 4). -/
opaque busDraw : Nat → BusDraw

/-- FSELi at reset: a draw (R39, R202). -/
opaque initialFsel : Fin 6 → Word

/-- EDSi at reset: a draw (R39, R202). -/
opaque initialEds : Fin 2 → Word

/-- RENi at reset: a draw (R39, R202). -/
opaque initialRen : Fin 2 → Word

/-- FENi at reset: a draw (R39, R202). -/
opaque initialFen : Fin 2 → Word

/-- The output latches at reset: a draw (R39, R202). -/
opaque initialOutLatch : PinBits

/-- The external levels at reset: an input (R36, R39). -/
opaque initialExtLevel : PinBits

end Sys2Proof.Config
end

