-- ==== Sys2Proof/Machine/Flags.lean ====
section
/-! DEFINITION. The block has no condition codes (R37). Each operation returns an 8-bit status code (R94) and result
fields in two response words: their layouts (R90 to R95) stand here. -/

namespace Sys2Proof.Machine

/-- The status kinds (R94). -/
inductive Status where
  | ok
  | invalidPin
  | invalidLevel
  | invalidEdge
  | unknownCommand
  | registerAccessFailure
  /-- Reserved: the block never produces it (R186). -/
  | allocationFailure
  deriving DecidableEq, Repr

/-- The status codes of `RESP0[7:0]` (R94). -/
def Status.code : Status → Word
  | .ok => 0
  | .invalidPin => 1
  | .invalidLevel => 2
  | .invalidEdge => 3
  | .unknownCommand => 4
  | .registerAccessFailure => 5
  | .allocationFailure => 6

/-- `RESP0` of an operation that ends with an error: the status and every result field 0 (R95). -/
def errorResponse (st : Status) : Word := st.code

/-- `RESP0` of CFG_OUT, CFG_IN, EDGE_EN and EDGE_DIS with status OK (R134). -/
def plainResponse : Word := Status.ok.code

/-- `RESP0` of ADDR (R91, R119): `(ri << 28) | (w << 24) | (bo << 16) | (off << 8) | 0`. -/
def addrResponse (regIndex byteOffset bitOffset width : Nat) : Word :=
  (BitVec.ofNat 32 regIndex <<< 28) ||| (BitVec.ofNat 32 width <<< 24) ||| (BitVec.ofNat 32 bitOffset <<< 16) |||
    (BitVec.ofNat 32 byteOffset <<< 8) ||| Status.ok.code

/-- `RESP0` of ACK (R92, R160): `INDEX` in bits [15:8]. -/
def ackResponse (index : Nat) : Word := (BitVec.ofNat 32 index <<< 8) ||| Status.ok.code

/-- `RESP0` of QUERY for an Input or Output pin (R93, R143): `FUNC`, `IO` = 1 and `LEVEL`. -/
def queryIoResponse (func level : Word) : Word :=
  (level <<< 24) ||| ((1 : Word) <<< 16) ||| (func <<< 8) ||| Status.ok.code

/-- `RESP0` of QUERY for an alternate-function pin (R93, R143): `IO` = 0 and `LEVEL` = 0. -/
def queryAltResponse (func : Word) : Word := (func <<< 8) ||| Status.ok.code

/-- The response fields, as a requester reads them (R90 to R93). -/
def respStatus (r0 : Word) : Nat := (r0.extractLsb' 0 8).toNat
def respByteOffset (r0 : Word) : Nat := (r0.extractLsb' 8 8).toNat
def respBitOffset (r0 : Word) : Nat := (r0.extractLsb' 16 8).toNat
def respWidth (r0 : Word) : Nat := (r0.extractLsb' 24 4).toNat
def respRegIndex (r0 : Word) : Nat := (r0.extractLsb' 28 4).toNat
def respIndex (r0 : Word) : Nat := (r0.extractLsb' 8 8).toNat
def respFunc (r0 : Word) : Nat := (r0.extractLsb' 8 3).toNat
def respIo (r0 : Word) : Nat := (r0.extractLsb' 16 1).toNat
def respLevel (r0 : Word) : Nat := (r0.extractLsb' 24 1).toNat

end Sys2Proof.Machine
end

