-- ==== Sys2Proof/Machine/Operands.lean ====
section
/-! DEFINITION. The operand forms and the Pin-Addressing Calculator (`40_addressing.md`): pin validity, family, level
and edge codes, the address function, the field primitives, and the registers of the window (R26) with the bits of
each that belong to pins (R28, R29). All of it is pure (R116). -/

namespace Sys2Proof.Machine

/-! ### Operand codes -/

/-- A pin index is valid when `0 <= pin < PIN_COUNT` (R110). -/
def validPin (pin : Int) : Bool := decide (0 ≤ pin) && decide (pin < Config.pinCount)

/-- Family codes 0..6 (R84); 7..255 are reserved (R85). -/
def familyOfCode : Nat → Option Family
  | 0 => some .functionSelect
  | 1 => some .setLevel
  | 2 => some .clearLevel
  | 3 => some .readLevel
  | 4 => some .eventStatus
  | 5 => some .risingEdgeEnable
  | 6 => some .fallingEdgeEnable
  | _ => none

/-- CFG_OUT raises InvalidLevel for a level code above 1 (R86, R130). -/
def levelError (level : Nat) : Option Status := if level > 1 then some .invalidLevel else none

/-- EDGE_EN raises InvalidEdge for an edge code above 1 (R87, R130). -/
def edgeError (edge : Nat) : Option Status := if edge > 1 then some .invalidEdge else none

/-! ### The function codes -/

/-- The eight functions of a pin (R96). -/
inductive PinFunction where
  | input
  | output
  | alternate5
  | alternate4
  | alternate0
  | alternate1
  | alternate2
  | alternate3
  deriving DecidableEq, Repr

/-- The fixed 3-bit function codes, not in the order of their names (R96). Total (R97). -/
def functionOfCode (code : BitVec 3) : PinFunction :=
  match code.toNat with
  | 0 => .input
  | 1 => .output
  | 2 => .alternate5
  | 3 => .alternate4
  | 4 => .alternate0
  | 5 => .alternate1
  | 6 => .alternate2
  | _ => .alternate3

/-- The Input code (R96). -/
def inputCode : Word := 0

/-- The Output code (R96). -/
def outputCode : Word := 1

/-! ### The address function -/

/-- `base(f)` (R84, R111). -/
def familyBase : Family → Nat
  | .functionSelect => 0x00
  | .setLevel => 0x1C
  | .clearLevel => 0x28
  | .readLevel => 0x34
  | .eventStatus => 0x40
  | .risingEdgeEnable => 0x4C
  | .fallingEdgeEnable => 0x58

/-- `ppr(f)`, pins per register (R111). -/
def pinsPerRegister : Family → Nat
  | .functionSelect => 10
  | _ => 32

/-- `w(f)`, field width (R111). -/
def fieldWidth : Family → Nat
  | .functionSelect => 3
  | _ => 1

/-- What the address function returns (R112). -/
structure Location where
  regIndex : Nat
  byteOffset : Nat
  bitOffset : Nat
  width : Nat
  deriving DecidableEq, Repr

/-- `Addr(pin, f)` (R112): the one source of every offset the block uses (R117). -/
def addr (pin : Int) (f : Family) : Except Status Location :=
  if validPin pin then
    let p := pin.toNat
    .ok { regIndex := p / pinsPerRegister f
          byteOffset := familyBase f + p / pinsPerRegister f * 4
          bitOffset := p % pinsPerRegister f * fieldWidth f
          width := fieldWidth f }
  else .error .invalidPin

/-! ### Field primitives -/

/-- `(1 << w) - 1`, a field of width `w` at bit 0. -/
def lowMask (w : Nat) : Word := ((1 : Word) <<< w) - 1

/-- The field mask of a location (R113). -/
def fieldMask (bo w : Nat) : Word := lowMask w <<< bo

/-- `getField(word, bo, w)` (R118). -/
def getField (word : Word) (bo w : Nat) : Word := (word >>> bo) &&& lowMask w

/-- `setField(word, bo, w, v)` (R118). -/
def setField (word : Word) (bo w : Nat) (v : Word) : Word :=
  (word &&& ~~~(lowMask w <<< bo)) ||| ((v &&& lowMask w) <<< bo)

/-- `1 << b`, the word a write-1-to-act write sends (R132, R165). -/
def oneBit (b : Nat) : Word := (1 : Word) <<< b

/-- `ctz32(v)`: the least `i` in 0..31 with `v[i] = 1` (R11). The spec applies it to non-zero words only; the value 32
for 0 is reached by no operation. -/
def ctz32 (v : Word) : Nat := ((List.range 32).find? fun i => v.getLsbD i).getD 32

/-- The word whose bit `i` is `f i`. -/
def packBits : (n : Nat) → (Nat → Bool) → BitVec n
  | 0, _ => 0#0
  | n + 1, f => BitVec.cons (f n) (packBits n f)

/-! ### The registers of the window -/

/-- The registers of rule R26, by family and register index. -/
inductive Reg where
  | fsel (i : Fin 6)
  | set (i : Fin 2)
  | clr (i : Fin 2)
  | lev (i : Fin 2)
  | eds (i : Fin 2)
  | ren (i : Fin 2)
  | fen (i : Fin 2)
  deriving DecidableEq, Repr

/-- The byte offset of a register (the table of R26). -/
def Reg.offset : Reg → Nat
  | .fsel i => 0x00 + 4 * i
  | .set i => 0x1C + 4 * i
  | .clr i => 0x28 + 4 * i
  | .lev i => 0x34 + 4 * i
  | .eds i => 0x40 + 4 * i
  | .ren i => 0x4C + 4 * i
  | .fen i => 0x58 + 4 * i

/-- The register at a byte offset (the table of R26); none at an offset the table does not list. -/
def Reg.ofOffset : Nat → Option Reg
  | 0x00 => some (.fsel 0)
  | 0x04 => some (.fsel 1)
  | 0x08 => some (.fsel 2)
  | 0x0C => some (.fsel 3)
  | 0x10 => some (.fsel 4)
  | 0x14 => some (.fsel 5)
  | 0x1C => some (.set 0)
  | 0x20 => some (.set 1)
  | 0x28 => some (.clr 0)
  | 0x2C => some (.clr 1)
  | 0x34 => some (.lev 0)
  | 0x38 => some (.lev 1)
  | 0x40 => some (.eds 0)
  | 0x44 => some (.eds 1)
  | 0x4C => some (.ren 0)
  | 0x50 => some (.ren 1)
  | 0x58 => some (.fen 0)
  | 0x5C => some (.fen 1)
  | _ => none

/-- The bits of FSELi that are pin fields: not [31:30], and not [29:12] of FSEL5 (R27, R28). -/
def fselPinMask (i : Fin 6) : Word := if i = 5 then 0x00000FFF else 0x3FFFFFFF

/-- The bits of register `i` of a 1-bit family that belong to pins: not [31:22] of register 1 (R29). -/
def bitPinMask (i : Fin 2) : Word := if i = 1 then 0x003FFFFF else 0xFFFFFFFF

/-- The pin bits of a register (R28, R29). -/
def Reg.pinMask : Reg → Word
  | .fsel i => fselPinMask i
  | .set i | .clr i | .lev i | .eds i | .ren i | .fen i => bitPinMask i

end Sys2Proof.Machine
end

