-- ==== Sys2Proof/Machine/State.lean ====
section
/-! DEFINITION. The state of the block (`10_state.md` section 1), the state of the GPIO register window (section 2), the
model's own fields (what other agents do, what the environment draws), the reasons a step can stop, and reset. -/

namespace Sys2Proof.Machine

open Sys2Proof.Config (BusDraw)

/-- The stored state of the register window (R34, R35) and the external levels (R36). Non-pin bits are not stored:
they are 0 here and drawn at each read (R28, R29, log 12). -/
structure Window where
  /-- FSEL0 to FSEL5 (R27). -/
  fsel : Vector Word 6
  /-- EDS0 and EDS1, the pending latches (R32). -/
  eds : Vector Word 2
  /-- REN0 and REN1 (R33). -/
  ren : Vector Word 2
  /-- FEN0 and FEN1 (R33). -/
  fen : Vector Word 2
  /-- `out_latch[p]`, bit `p` (R35). -/
  outLatch : PinBits
  /-- `ext_level[p]`, bit `p` (R36). -/
  extLevel : PinBits
  deriving DecidableEq, Repr

/-- The families that have a lock: the targets of a read-modify-write (R23). -/
inductive LockFamily where
  | functionSelect
  | risingEdgeEnable
  | fallingEdgeEnable
  deriving DecidableEq, Repr

/-- `lock[F]`: free, or held by the operation in flight on a port (R23). -/
structure Locks where
  functionSelect : Option Nat
  risingEdgeEnable : Option Nat
  fallingEdgeEnable : Option Nat
  deriving DecidableEq, Repr

/-- The latches of the Interrupt-Acknowledgment Scanner (R24). -/
structure Scanner where
  /-- `IAS.busy`: an ACK is in flight. -/
  busy : Bool
  /-- `IAS.owner`: the requester port of that ACK. -/
  owner : Nat
  /-- `IAS.val`: the value of the active register. -/
  val : Word
  /-- `IAS.base`, 0 or 32: the pin base. -/
  base : Nat
  /-- `IAS.reg`, 0x40 or 0x44: the offset of the active register. -/
  reg : Nat
  deriving DecidableEq, Repr

/-- One step of an operation (R12: lock acquire, bus transaction, lock release, response; R130: the checks). -/
inductive Action where
  /-- The checks of rule R130; `bad` is the error of the argument, if it is bad. -/
  | check (pin : Int) (bad : Option Status)
  /-- `acquire(F)` (R64). -/
  | acquire (f : LockFamily)
  /-- The read of an RMW, into the operation's temporary (R131). -/
  | readField (f : LockFamily) (pin : Int)
  /-- The write of an RMW: the temporary with the pin's field set to `v` (R131). -/
  | writeField (f : LockFamily) (pin : Int) (v : Word)
  /-- `release(F)` (R64). -/
  | release (f : LockFamily)
  /-- `W1(f, pin)` (R132). -/
  | writeOne (f : Family) (pin : Int)
  /-- The FunctionSelect read of QUERY (R143). -/
  | queryFunction (pin : Int)
  /-- The ReadLevel read of QUERY, for a pin whose function code is `func` (R143). -/
  | queryLevel (pin : Int) (func : Word)
  /-- The start of ACK: hold while `IAS.busy` = 1, then claim the scanner (R160, R166). -/
  | claimScanner
  /-- The EDS0 read of ACK, step 1 (R160, R162). -/
  | scanLow
  /-- The EDS1 read of ACK, step 1 (R160, R162). -/
  | scanHigh
  /-- The write-1-to-clear of ACK, steps 2 and 4 (R160, R163, R165). -/
  | scanClear
  /-- The response of ACK, which also ends `IAS.busy` (R160). -/
  | respondScan (index : Nat)
  /-- The response of any other operation (R90, R205). -/
  | respond (r0 r1 : Word)
  deriving DecidableEq, Repr

/-- An operation in flight: its private sequence position, as the steps it has still to take, and its one 32-bit
temporary (R25). -/
structure Flight where
  todo : List Action
  temp : Word
  deriving DecidableEq, Repr

/-- A requester port (R21). -/
structure Port where
  /-- `REQ[q]`. -/
  req : Word
  /-- `RESP0[q]`. -/
  resp0 : Word
  /-- `RESP1[q]`. -/
  resp1 : Word
  /-- The response latches hold a value: an operation has completed on the port and none is in flight (R21, R38). -/
  responded : Bool
  /-- The operation in flight on the port, at most one (R8, R25). -/
  flight : Option Flight
  deriving DecidableEq, Repr

/-- A bus transaction that the bus master port issued (R51), on behalf of the operation of a port. -/
inductive Transaction where
  /-- `MemRead(GPIO_BASE + off, 4)`: `OK(v)`, or `ERR` (none). -/
  | read (port : Nat) (off : Nat) (result : Option Word)
  /-- `MemWrite(GPIO_BASE + off, 4, v)`: OK or `ERR`. -/
  | write (port : Nat) (off : Nat) (v : Word) (ok : Bool)
  deriving DecidableEq, Repr

/-- A move of an agent between two steps of an operation (R12, R59, R61). -/
inductive Move where
  /-- The operation in flight on a port takes its next step, if it is not held. -/
  | advance (port : Nat)
  /-- The requester of a port issues a request word, if its port has no operation in flight. -/
  | request (port : Nat) (w : Word)
  /-- Window hardware, step 1: the external level of a pin becomes `v` (R59). -/
  | level (pin : Nat) (v : Bool)
  /-- Window hardware, step 2: the EDS latch of a pin becomes 1, whatever its enables and function (R59). -/
  | event (pin : Nat)
  /-- Window hardware, step 3: the non-pin bits change their draw (R59). -/
  | redraw
  deriving DecidableEq, Repr

/-- What a requester asks of the block (R12, R13, R21, R204). -/
inductive Demand where
  /-- Write `REQ[q]`: issue an operation (R21, R80). -/
  | request (port : Nat) (w : Word)
  /-- Read `RESP0[q]` and `RESP1[q]` (R21). -/
  | readResponse (port : Nat)
  /-- Release the register range: the controller is destroyed (R204). -/
  | release
  deriving DecidableEq, Repr

/-- The machine's state. -/
structure State where
  /-- The GPIO register window (R26, R34 to R36). -/
  window : Window
  /-- `inoperative` (R22). -/
  inoperative : Bool
  /-- `lock[F]` (R23). -/
  locks : Locks
  /-- The scanner's latches (R24). -/
  ias : Scanner
  /-- The requester ports, NUM_REQUESTERS of them (R8, R21). -/
  ports : List Port
  /-- The controller instance has been destroyed (R204). -/
  destroyed : Bool
  /-- MODEL'S OWN: the port whose requester issued the request that `exec` runs (log 18). -/
  issuer : Nat
  /-- MODEL'S OWN: what requesters ask next, first one first (R13, log 9). -/
  demands : List Demand
  /-- MODEL'S OWN: the moves of agents that come next, first one first (R12, R61, log 6). -/
  agenda : List Move
  /-- MODEL'S OWN: the draws of the coming transactions, first one first (R73, log 4). -/
  draws : List BusDraw
  /-- MODEL'S OWN: how many draws have been taken (log 4). -/
  drawCount : Nat
  /-- MODEL'S OWN: the transactions issued so far, latest first (log 11). -/
  bus : List Transaction
  deriving DecidableEq, Repr

/-- Why the machine stops with a fault. -/
inductive Fault where
  /-- Raised by `step` when a requester reads the response latches of port `q` while they hold no value: an operation is
  in flight on it, or none has completed (R21, R38, U14). Safe: the spec says that a model faults. -/
  | responseNotHeld (q : Nat)
  deriving DecidableEq, Repr

/-- Why the machine gives a request or an access no meaning. -/
inductive Refusal where
  /-- Raised by `exec` for an instruction that has no meaning yet; here there is none. Safe. -/
  | notModelled (mnemonic : String)
  /-- Raised by every operation and by `step`: the controller has been destroyed (R204, U15). Safe. -/
  | destroyed
  /-- Raised by every operation and by `step`, on a request and on a response read: there is no requester port of that
  number (R21). Of a response read there the spec says nothing (DESIGN CHOICE, log 14). Safe. -/
  | noSuchPort
  /-- Raised by an operation whose port has another in flight: a new `REQ` is accepted only after the previous response
  (R21, D33). `step` waits for that response first, so a run meets this only if the other operation is held for ever,
  which no state that meets `Safety.Inv` allows. Safe. -/
  | portBusy
  /-- Raised by `step`: the range is released while an operation is in flight, which R204 forbids the requesters. Safe. -/
  | releasedInFlight
  /-- Raised by `checkAccess`: the access is not a whole aligned 32-bit word (R69, U11). Safe: no operation forms one. -/
  | subWordAccess
  /-- Raised by `checkAccess`: no rule describes the offset (R76, U17). Safe: no operation forms one. -/
  | unlistedOffset
  /-- Raised by `checkAccess`: the offset is outside the window (R7, U11). Safe: no operation forms one. -/
  | outsideWindow
  /-- Raised by `checkAccess`: a write to ReadLevel (R55, U5). Safe: no operation forms one. -/
  | readLevelWrite
  deriving DecidableEq, Repr

/-- A port at reset: no operation in flight and no response (R38). The latches hold no value; the words 0 are DESIGN
CHOICE (log 2). -/
def Port.idle : Port := { req := 0, resp0 := 0, resp1 := 0, responded := false, flight := none }

/-- All locks free (R38). -/
def Locks.free : Locks := { functionSelect := none, risingEdgeEnable := none, fallingEdgeEnable := none }

/-- The scanner at reset: not busy (R38). The other latches hold no value; their values here are DESIGN CHOICE (log 2). -/
def Scanner.idle : Scanner := { busy := false, owner := 0, val := 0, base := 0, reg := 0x40 }

/-- The creation of the controller (R200, R201) over a register window `w` that it does not initialise (R202), with
`ports` requester ports. The window is available or not: then the block starts inoperative. -/
def State.create (available : Bool) (ports : Nat) (w : Window) : State :=
  { window := w
    inoperative := !available
    locks := Locks.free
    ias := Scanner.idle
    ports := List.replicate ports Port.idle
    destroyed := false
    issuer := 0
    demands := []
    agenda := []
    draws := []
    drawCount := 0
    bus := [] }

/-- The window at reset: every value is a draw (R39), an opaque constant of Config (log 1). -/
def Window.initial : Window :=
  { fsel := #v[Config.initialFsel 0 &&& fselPinMask 0, Config.initialFsel 1 &&& fselPinMask 1,
               Config.initialFsel 2 &&& fselPinMask 2, Config.initialFsel 3 &&& fselPinMask 3,
               Config.initialFsel 4 &&& fselPinMask 4, Config.initialFsel 5 &&& fselPinMask 5]
    eds := #v[Config.initialEds 0 &&& bitPinMask 0, Config.initialEds 1 &&& bitPinMask 1]
    ren := #v[Config.initialRen 0 &&& bitPinMask 0, Config.initialRen 1 &&& bitPinMask 1]
    fen := #v[Config.initialFen 0 &&& bitPinMask 0, Config.initialFen 1 &&& bitPinMask 1]
    outLatch := Config.initialOutLatch
    extLevel := Config.initialExtLevel }

/-- The machine right after reset (R38, R39, R200 to R202). -/
def State.reset : State := State.create Config.windowAvailable Config.numRequesters Window.initial

end Sys2Proof.Machine
end

