-- ==== Sys2Proof/Machine/Sequences.lean ====
section
/-! DEFINITION. The step sequence of each operation, as its pseudocode gives it (`40_addressing.md` to
`42_interrupt_ack.md`). The later steps of QUERY and ACK depend on what a read returns: `act` in `Machine/Ops.lean`
puts them in place of the step that read. -/

namespace Sys2Proof.Machine

/-- The response of an operation that raises `st` (R95). -/
def raise (st : Status) : Action := .respond (errorResponse st) 0

/-- The family a lock belongs to (R23). -/
def LockFamily.family : LockFamily → Family
  | .functionSelect => .functionSelect
  | .risingEdgeEnable => .risingEdgeEnable
  | .fallingEdgeEnable => .fallingEdgeEnable

/-- `RMW(f, pin, v)` (R131). -/
def rmw (f : LockFamily) (pin : Int) (v : Word) : List Action :=
  [.acquire f, .readField f pin, .writeField f pin v, .release f]

/-- The OK response of CFG_OUT, CFG_IN, EDGE_EN and EDGE_DIS (R134). -/
def respondOk : Action := .respond plainResponse 0

/-- ADDR (R119): the family code is checked first, then the pin (R187). No transaction. -/
def addrSteps (pin : Int) (family : Nat) : List Action :=
  match familyOfCode family with
  | none => [raise .unknownCommand]
  | some f =>
    match addr pin f with
    | .error st => [raise st]
    | .ok l => [.respond (addrResponse l.regIndex l.byteOffset l.bitOffset l.width) (fieldMask l.bitOffset l.width)]

/-- ACK (R160). -/
def ackSteps : List Action := [.claimScanner]

/-- CFG_OUT (R135). -/
def cfgOutSteps (pin : Int) (level : Nat) : List Action :=
  .check pin (levelError level) :: rmw .functionSelect pin outputCode ++
    [.writeOne (if level = 1 then .setLevel else .clearLevel) pin, respondOk]

/-- CFG_IN (R137). -/
def cfgInSteps (pin : Int) : List Action :=
  .check pin none :: rmw .functionSelect pin inputCode ++ [respondOk]

/-- EDGE_EN (R139). -/
def edgeEnSteps (pin : Int) (edge : Nat) : List Action :=
  .check pin (edgeError edge) :: rmw .risingEdgeEnable pin 0 ++ rmw .fallingEdgeEnable pin 0 ++
    rmw .functionSelect pin inputCode ++
    rmw (if edge = 0 then .risingEdgeEnable else .fallingEdgeEnable) pin 1 ++ [respondOk]

/-- EDGE_DIS (R141). -/
def edgeDisSteps (pin : Int) : List Action :=
  .check pin none :: rmw .risingEdgeEnable pin 0 ++ rmw .fallingEdgeEnable pin 0 ++ [respondOk]

/-- QUERY (R143). -/
def querySteps (pin : Int) : List Action := [.check pin none, .queryFunction pin]

/-- A request with a reserved `OP` (R82, R180). -/
def unknownSteps : List Action := [raise .unknownCommand]

/-- The sequence of an instruction. -/
def instrSteps : Instr → List Action
  | .addr pin family => addrSteps pin family
  | .ack => ackSteps
  | .cfgOut pin level => cfgOutSteps pin level
  | .cfgIn pin => cfgInSteps pin
  | .edgeEn pin edge => edgeEnSteps pin edge
  | .edgeDis pin => edgeDisSteps pin
  | .query pin => querySteps pin

/-- The sequence that a request word starts: every word starts one (R82). -/
def requestSteps (w : Word) : List Action :=
  match decodeWord w with
  | .ok i => instrSteps i
  | .error _ => unknownSteps

/-- How many steps an operation can take from a position on, this step and those put in its place included. -/
def actionWeight : Action → Nat
  | .check _ _ => 2
  | .acquire _ => 1
  | .readField _ _ => 2
  | .writeField _ _ _ => 2
  | .release _ => 1
  | .writeOne _ _ => 2
  | .queryFunction _ => 3
  | .queryLevel _ _ => 2
  | .claimScanner => 5
  | .scanLow => 4
  | .scanHigh => 3
  | .scanClear => 2
  | .respondScan _ => 1
  | .respond _ _ => 1

/-- A bound on the steps of a sequence. -/
def stepsWeight : List Action → Nat
  | [] => 0
  | a :: rest => stepsWeight rest + actionWeight a

end Sys2Proof.Machine
end

