-- ==== Sys2Proof/Machine/Ops.lean ====
section
/-! DEFINITION. The shared operations: what a read and a write of each window register do (R52 to R57), the hardware
agent (R59), the bus primitives (R51, R73), the locks (R64), one step of an operation (`act`), one move of any agent,
and running an operation to its response. The block takes no trap (R192): an error ends the operation with a status
(`raiseIn`, `accessFailed`), which is all there is of exceptions. -/

namespace Sys2Proof.Machine

open Sys2Proof.Config (BusDraw)

/-! ### The register window -/

/-- The stored word of FSELn. -/
def Window.fselAt (w : Window) (n : Nat) : Word := (w.fsel[n]?).getD 0

/-- The stored word of EDSi. -/
def Window.edsAt (w : Window) (i : Nat) : Word := (w.eds[i]?).getD 0

/-- The stored word of RENi. -/
def Window.renAt (w : Window) (i : Nat) : Word := (w.ren[i]?).getD 0

/-- The stored word of FENi. -/
def Window.fenAt (w : Window) (i : Nat) : Word := (w.fen[i]?).getD 0

/-- `func(p)`, the function code of a pin (`20_memory.md` section 2, R27). -/
def Window.func (w : Window) (p : Nat) : Word := getField (w.fselAt (p / 10)) (3 * (p % 10)) 3

/-- The EDS latch of a pin (R32, R29). -/
def Window.pending (w : Window) (p : Nat) : Bool := (w.edsAt (p / 32)).getLsbD (p % 32)

/-- The rising-edge enable of a pin (R33, R29). -/
def Window.rising (w : Window) (p : Nat) : Bool := (w.renAt (p / 32)).getLsbD (p % 32)

/-- The falling-edge enable of a pin (R33, R29). -/
def Window.falling (w : Window) (p : Nat) : Bool := (w.fenAt (p / 32)).getLsbD (p % 32)

/-- `out_latch[p]` (R35). -/
def Window.latch (w : Window) (p : Nat) : Bool := w.outLatch.getLsbD p

/-- `ext_level[p]` (R36). -/
def Window.external (w : Window) (p : Nat) : Bool := w.extLevel.getLsbD p

/-- The stored bits with the bits outside the mask drawn (R52, R56, R57: non-pin bits read as a draw). -/
def withDraw (stored mask bits : Word) : Word := (stored &&& mask) ||| (bits &&& ~~~mask)

/-- The level of a pin as ReadLevel reports it; `drawn` is the draw of an alternate-function pin (R55). -/
def Window.pinLevel (w : Window) (p : Nat) (drawn : Bool) : Bool :=
  if w.func p = outputCode then w.latch p
  else if w.func p = inputCode then w.external p
  else drawn

/-- What a read of a register returns, `bits` being the draw of the bits no rule fixes (R52 to R57). -/
def Window.read (w : Window) (r : Reg) (bits : Word) : Word :=
  match r with
  | .fsel i => withDraw (w.fselAt i) (fselPinMask i) bits
  | .set _ => bits
  | .clr _ => bits
  | .lev i => packBits 32 fun b =>
      if 32 * i + b < Config.pinCount then w.pinLevel (32 * i + b) (bits.getLsbD b) else bits.getLsbD b
  | .eds i => withDraw (w.edsAt i) (bitPinMask i) bits
  | .ren i => withDraw (w.renAt i) (bitPinMask i) bits
  | .fen i => withDraw (w.fenAt i) (bitPinMask i) bits

/-- A write of `v` to FSELi: the pin fields are stored; the output latch of a pin whose code changes into Output takes
a draw (R52, log 17). -/
def Window.writeFsel (w : Window) (i : Fin 6) (v bits : Word) : Window :=
  let stored := { w with fsel := w.fsel.set i (v &&& fselPinMask i) }
  { stored with
    outLatch := packBits 54 fun p =>
      if stored.func p = outputCode ∧ w.func p ≠ outputCode then bits.getLsbD (p % 10) else w.latch p }

/-- A write of `v` to SETi or CLRi: the output latch of each Output pin whose bit is 1 becomes `level`; any other bit is
ignored (R53, R54). -/
def Window.writeLevel (w : Window) (i : Fin 2) (v : Word) (level : Bool) : Window :=
  { w with
    outLatch := packBits 54 fun p =>
      if p / 32 = i ∧ v.getLsbD (p % 32) = true ∧ w.func p = outputCode then level else w.latch p }

/-- What a write of `v` to a register leaves, `bits` being the draw of its transaction (R52 to R57). A write to
ReadLevel is refused (`checkAccess`), so it leaves the window as it was. -/
def Window.write (w : Window) (r : Reg) (v bits : Word) : Window :=
  match r with
  | .fsel i => w.writeFsel i v bits
  | .set i => w.writeLevel i v true
  | .clr i => w.writeLevel i v false
  | .lev _ => w
  | .eds i => { w with eds := w.eds.set i (w.edsAt i &&& ~~~v) }
  | .ren i => { w with ren := w.ren.set i (v &&& bitPinMask i) }
  | .fen i => { w with fen := w.fen.set i (v &&& bitPinMask i) }

/-- What a register holds (0 where it holds nothing a read can see, R30, R31). -/
def Window.stored (w : Window) : Reg → Word
  | .fsel i => w.fselAt i
  | .eds i => w.edsAt i
  | .ren i => w.renAt i
  | .fen i => w.fenAt i
  | .set _ | .clr _ | .lev _ => 0

/-! ### The window hardware (R59) -/

/-- The EDS latch of a pin becomes 1. -/
def Window.setPending (w : Window) (p : Nat) : Window :=
  { w with eds := w.eds.setIfInBounds (p / 32) (w.edsAt (p / 32) ||| oneBit (p % 32)) }

/-- A level change of a pin latches an event: the pin is an Input and the edge is enabled (R59 step 1). -/
def Window.edgeLatches (w : Window) (p : Nat) (v : Bool) : Bool :=
  w.func p = inputCode && (if v then w.rising p else w.falling p)

/-- Step 1: the external level of pin `p` becomes `v`. If it was `v`, nothing changes; if it changes and the edge is
enabled on an Input pin, the EDS latch becomes 1 in the same step (R59). -/
def Window.changeLevel (w : Window) (p : Nat) (v : Bool) : Window :=
  if p < Config.pinCount then
    if w.external p = v then w
    else
      let moved := { w with extLevel := packBits 54 fun k => if k = p then v else w.external k }
      if w.edgeLatches p v then moved.setPending p else moved
  else w

/-- Step 2: another event sets the EDS latch of pin `p` (R59). -/
def Window.otherEvent (w : Window) (p : Nat) : Window :=
  if p < Config.pinCount then w.setPending p else w

/-! ### The bus -/

/-- A bus address (R50). -/
def busAddress (off : Nat) : Nat := Config.gpioBase + off

/-- The register an access reaches, or why a model refuses it (R69, R76, U5, U11, U17). -/
def checkAccess (off width : Nat) (isWrite : Bool) : Except Refusal Reg :=
  if width ≠ 4 ∨ off % 4 ≠ 0 then .error .subWordAccess
  else
    match Reg.ofOffset off with
    | some (.lev i) => if isWrite then .error .readLevelWrite else .ok (.lev i)
    | some r => .ok r
    | none => if off < Config.windowBytes then .error .unlistedOffset else .error .outsideWindow

/-- The draw of the next transaction but `k`: from the list, or, past its end, a free value (log 4). -/
def State.drawAt (s : State) (k : Nat) : BusDraw := (s.draws[k]?).getD (Config.busDraw (s.drawCount + k))

/-- The draw of the next transaction has been taken. -/
def State.dropDraw (s : State) : State := { s with draws := s.draws.tail, drawCount := s.drawCount + 1 }

/-- The transaction goes into the record. -/
def State.record (s : State) (t : Transaction) : State := { s with bus := t :: s.bus }

def State.setWindow (s : State) (w : Window) : State := { s with window := w }

/-- `MemRead(GPIO_BASE + off, 4)` on behalf of port `q`: `some v` for OK(v), `none` for `ERR` (R51, R73). It changes no
window register (R58). The last line is reached by no operation: every offset they form is listed (R69, R117). -/
def memRead (q off : Nat) (s : State) : Option Word × State :=
  match checkAccess off 4 false with
  | .ok r =>
    let d := s.drawAt 0
    let result := if d.err then none else some (s.window.read r d.bits)
    (result, s.dropDraw.record (.read q off result))
  | .error _ => (none, s)

/-- `MemWrite(GPIO_BASE + off, 4, v)` on behalf of port `q`: whether it returned OK (R51). After `ERR` the register holds
its old value or the written one (R73). The last line is reached by no operation, as in `memRead`. -/
def memWrite (q off : Nat) (v : Word) (s : State) : Bool × State :=
  match checkAccess off 4 true with
  | .ok r =>
    let d := s.drawAt 0
    let w := if d.err && !d.took then s.window else s.window.write r v d.bits
    (!d.err, (s.dropDraw.setWindow w).record (.write q off v (!d.err)))
  | .error _ => (false, s)

/-! ### Ports, locks, failure -/

/-- The operation in flight on a port. -/
def State.flightOf (s : State) (q : Nat) : Option Flight := s.ports[q]?.bind Port.flight

/-- An operation is in flight on the port. -/
def State.inFlight (s : State) (q : Nat) : Bool := (s.flightOf q).isSome

def State.modifyPort (s : State) (q : Nat) (f : Port → Port) : State := { s with ports := s.ports.modify q f }

def Port.withTodo (p : Port) (todo : List Action) : Port :=
  { p with flight := p.flight.map fun f => { f with todo := todo } }

def Port.withTemp (p : Port) (v : Word) : Port :=
  { p with flight := p.flight.map fun f => { f with temp := v } }

/-- Both response words are written and the operation is complete (R90, R205). -/
def Port.complete (p : Port) (r0 r1 : Word) : Port :=
  { p with flight := none, resp0 := r0, resp1 := r1, responded := true }

/-- An operation begins; the response latches hold no value while it is in flight (R21). -/
def Port.start (p : Port) (todo : List Action) : Port :=
  { p with flight := some { todo := todo, temp := 0 }, responded := false }

/-- `REQ[q]` is written (R21). -/
def Port.latch (p : Port) (w : Word) : Port := { p with req := w }

/-- The operation of port `q` has the steps `todo` still to take. -/
def State.setTodo (s : State) (q : Nat) (todo : List Action) : State := s.modifyPort q (·.withTodo todo)

def State.setTemp (s : State) (q : Nat) (v : Word) : State := s.modifyPort q (·.withTemp v)

def State.finish (s : State) (q : Nat) (r0 r1 : Word) : State := s.modifyPort q (·.complete r0 r1)

/-- The holder of `lock[F]` (R23). -/
def Locks.holder (l : Locks) : LockFamily → Option Nat
  | .functionSelect => l.functionSelect
  | .risingEdgeEnable => l.risingEdgeEnable
  | .fallingEdgeEnable => l.fallingEdgeEnable

def Locks.assign (l : Locks) (f : LockFamily) (h : Option Nat) : Locks :=
  match f with
  | .functionSelect => { l with functionSelect := h }
  | .risingEdgeEnable => { l with risingEdgeEnable := h }
  | .fallingEdgeEnable => { l with fallingEdgeEnable := h }

/-- A lock held by port `q` becomes free. -/
def dropIf (q : Nat) (h : Option Nat) : Option Nat := if h = some q then none else h

/-- Every lock the operation of port `q` holds becomes free (R133 item 1). -/
def Locks.dropAll (l : Locks) (q : Nat) : Locks :=
  { functionSelect := dropIf q l.functionSelect
    risingEdgeEnable := dropIf q l.risingEdgeEnable
    fallingEdgeEnable := dropIf q l.fallingEdgeEnable }

def State.setLock (s : State) (f : LockFamily) (h : Option Nat) : State := { s with locks := s.locks.assign f h }

def State.dropLocks (s : State) (q : Nat) : State := { s with locks := s.locks.dropAll q }

def State.setIas (s : State) (i : Scanner) : State := { s with ias := i }

/-- `inoperative <- 1` (R22, R184). -/
def State.fail (s : State) : State := { s with inoperative := true }

/-- The operation of port `q` raises `st`: only its response is left (R95). -/
def raiseIn (q : Nat) (st : Status) (s : State) : State := (s.dropLocks q).setTodo q [raise st]

/-- A bus transaction of a CSQ operation returned `ERR`: its lock is released, `inoperative` set, its other steps
skipped; only the response RegisterAccessFailure is left (R133). -/
def accessFailed (q : Nat) (s : State) : State := raiseIn q .registerAccessFailure s.fail

/-- A bus transaction of ACK returned `ERR`: `inoperative` is set and only the response NO_EVENT is left (R167). -/
def scanFailed (q : Nat) (s : State) : State := s.fail.setTodo q [.respondScan Config.noEvent]

/-! ### One step of an operation -/

/-- The checks of rule R130, in its order. -/
def checkStep (q : Nat) (pin : Int) (bad : Option Status) (rest : List Action) (s : State) : State :=
  if s.inoperative then raiseIn q .registerAccessFailure s
  else if validPin pin = false then raiseIn q .invalidPin s
  else
    match bad with
    | some st => raiseIn q st s
    | none => s.setTodo q rest

/-- `acquire(F)`: held while another operation holds the lock (R64). -/
def acquireStep (q : Nat) (f : LockFamily) (rest : List Action) (s : State) : State :=
  match s.locks.holder f with
  | none => (s.setLock f (some q)).setTodo q rest
  | some r => if r = q then s.setTodo q rest else s

/-- The read of an RMW (R131). -/
def readFieldStep (q : Nat) (f : LockFamily) (pin : Int) (rest : List Action) (s : State) : State :=
  match addr pin f.family with
  | .error st => raiseIn q st s
  | .ok l =>
    match memRead q l.byteOffset s with
    | (some r, s') => (s'.setTemp q r).setTodo q rest
    | (none, s') => accessFailed q s'

/-- The write of an RMW: every bit outside the field is written back as it was read (R131). -/
def writeFieldStep (q : Nat) (f : LockFamily) (pin : Int) (v temp : Word) (rest : List Action) (s : State) : State :=
  match addr pin f.family with
  | .error st => raiseIn q st s
  | .ok l =>
    match memWrite q l.byteOffset (setField temp l.bitOffset l.width v) s with
    | (true, s') => s'.setTodo q rest
    | (false, s') => accessFailed q s'

/-- `release(F)` (R64). -/
def releaseStep (q : Nat) (f : LockFamily) (rest : List Action) (s : State) : State :=
  (s.setLock f none).setTodo q rest

/-- `W1(f, pin)`: one write with exactly the pin's bit set, no lock and no read (R132). -/
def writeOneStep (q : Nat) (f : Family) (pin : Int) (rest : List Action) (s : State) : State :=
  match addr pin f with
  | .error st => raiseIn q st s
  | .ok l =>
    match memWrite q l.byteOffset (oneBit l.bitOffset) s with
    | (true, s') => s'.setTodo q rest
    | (false, s') => accessFailed q s'

/-- The FunctionSelect read of QUERY, and its choice of what follows (R143). -/
def queryFunctionStep (q : Nat) (pin : Int) (s : State) : State :=
  match addr pin .functionSelect with
  | .error st => raiseIn q st s
  | .ok l =>
    match memRead q l.byteOffset s with
    | (some r, s') =>
      let fn := getField r l.bitOffset 3
      if fn = inputCode ∨ fn = outputCode then s'.setTodo q [.queryLevel pin fn]
      else s'.setTodo q [.respond (queryAltResponse fn) 0]
    | (none, s') => accessFailed q s'

/-- The ReadLevel read of QUERY (R143). -/
def queryLevelStep (q : Nat) (pin : Int) (fn : Word) (s : State) : State :=
  match addr pin .readLevel with
  | .error st => raiseIn q st s
  | .ok l =>
    match memRead q l.byteOffset s with
    | (some r, s') => s'.setTodo q [.respond (queryIoResponse fn (getField r l.bitOffset 1)) 0]
    | (none, s') => accessFailed q s'

/-- The offset of the EventStatus register that covers a pin (R161). -/
def scanOffset (pin : Int) : Nat :=
  match addr pin .eventStatus with
  | .ok l => l.byteOffset
  | .error _ => 0

/-- ACK holds while the scanner is busy, then claims it; an inoperative block makes no transaction (R160, R166, R167). -/
def claimStep (q : Nat) (s : State) : State :=
  if s.ias.busy then s
  else
    let s' := s.setIas { s.ias with busy := true, owner := q }
    if s.inoperative then s'.setTodo q [.respondScan Config.noEvent] else s'.setTodo q [.scanLow]

/-- Step 1 of ACK, the EDS0 read (R160, R162). -/
def scanLowStep (q : Nat) (s : State) : State :=
  match memRead q (scanOffset 0) s with
  | (some v, s') =>
    if v ≠ 0 then (s'.setIas { s'.ias with val := v, base := 0, reg := scanOffset 0 }).setTodo q [.scanClear]
    else s'.setTodo q [.scanHigh]
  | (none, s') => scanFailed q s'

/-- Step 1 of ACK, the EDS1 read, and step 3 (R160, R162, R164). -/
def scanHighStep (q : Nat) (s : State) : State :=
  match memRead q (scanOffset 32) s with
  | (some v, s') =>
    let s'' := s'.setIas { s'.ias with val := v, base := 32, reg := scanOffset 32 }
    if v = 0 then s''.setTodo q [.respondScan Config.noEvent] else s''.setTodo q [.scanClear]
  | (none, s') => scanFailed q s'

/-- Steps 2 and 4 of ACK: the lowest set bit, cleared with a word that has that bit alone (R163, R165). -/
def scanClearStep (q : Nat) (s : State) : State :=
  let b := ctz32 s.ias.val
  match memWrite q s.ias.reg (oneBit b) s with
  | (true, s') => s'.setTodo q [.respondScan (s.ias.base + b)]
  | (false, s') => scanFailed q s'

/-- The response of ACK, and `IAS.busy <- 0` (R160, R92). -/
def respondScanStep (q : Nat) (index : Nat) (s : State) : State :=
  (s.setIas { s.ias with busy := false }).finish q (ackResponse index) 0

/-- The step `a` of the operation in flight on port `q`, with temporary `temp` and the steps `rest` after it. -/
def act (q : Nat) (temp : Word) (a : Action) (rest : List Action) (s : State) : State :=
  match a with
  | .check pin bad => checkStep q pin bad rest s
  | .acquire f => acquireStep q f rest s
  | .readField f pin => readFieldStep q f pin rest s
  | .writeField f pin v => writeFieldStep q f pin v temp rest s
  | .release f => releaseStep q f rest s
  | .writeOne f pin => writeOneStep q f pin rest s
  | .queryFunction pin => queryFunctionStep q pin s
  | .queryLevel pin fn => queryLevelStep q pin fn s
  | .claimScanner => claimStep q s
  | .scanLow => scanLowStep q s
  | .scanHigh => scanHighStep q s
  | .scanClear => scanClearStep q s
  | .respondScan index => respondScanStep q index s
  | .respond r0 r1 => s.finish q r0 r1

/-- The operation in flight on port `q` takes its next step. If it is held, nothing changes (R64, R166). -/
def advance (q : Nat) (s : State) : State :=
  match s.flightOf q with
  | none => s
  | some f =>
    match f.todo with
    | [] => s
    | a :: rest => act q f.temp a rest s

/-- The operation that a next step waits for: the holder of the lock (R64), the owner of the busy scanner (R166). -/
def waitsFor (q : Nat) (s : State) : Action → Option Nat
  | .acquire f =>
    match s.locks.holder f with
    | some r => if r = q then none else some r
    | none => none
  | .claimScanner => if s.ias.busy then some s.ias.owner else none
  | _ => none

/-- The port that holds the operation of port `q`, if one does. -/
def blocker (q : Nat) (s : State) : Option Nat :=
  match s.flightOf q with
  | none => none
  | some f =>
    match f.todo with
    | [] => none
    | a :: _ => waitsFor q s a

/-! ### Moves of the agents (R12, R61) -/

/-- The operation with sequence `todo` begins on port `q`. -/
def begin (q : Nat) (todo : List Action) (s : State) : State := s.modifyPort q (·.start todo)

/-- A port can accept a request: it exists, has no operation in flight, and the controller is there (R8, R21, R204). -/
def accepts (q : Nat) (s : State) : Bool := decide (q < s.ports.length) && !s.inFlight q && !s.destroyed

/-- One move. A move that is not possible now (a held step, a request on a port whose operation is in flight) changes
nothing (log 7). -/
def makeMove (m : Move) (s : State) : State :=
  match m with
  | .advance r => advance r s
  | .request r w => if accepts r s then begin r (requestSteps w) (s.modifyPort r (·.latch w)) else s
  | .level p v => s.setWindow (s.window.changeLevel p v)
  | .event p => s.setWindow (s.window.otherEvent p)
  | .redraw => s.dropDraw

/-- The next move while the operation of port `q` runs: the agenda's, or, when that is used up, the operation's own next
step, or a step of the operation that holds it (fairness, R205, R220, log 7). -/
def turn (q : Nat) (s : State) : State :=
  match s.agenda with
  | m :: rest => makeMove m { s with agenda := rest }
  | [] =>
    match blocker q s with
    | some r => advance r s
    | none => advance q s

/-- At most `n` moves, until the operation of port `q` is complete. -/
def drive : Nat → Nat → State → State
  | 0, _, s => s
  | n + 1, q, s => if s.inFlight q then drive n q (turn q s) else s

/-- How many moves an agenda entry can lead to. -/
def moveWeight : Move → Nat
  | .request _ w => stepsWeight (requestSteps w) + 1
  | _ => 1

def agendaWeight : List Move → Nat
  | [] => 0
  | m :: rest => agendaWeight rest + moveWeight m

def portWeight (p : Port) : Nat :=
  match p.flight with
  | none => 0
  | some f => stepsWeight f.todo

def portsWeight : List Port → Nat
  | [] => 0
  | p :: rest => portsWeight rest + portWeight p

/-- A bound on the moves until every operation is complete and the agenda used up (R205). -/
def State.potential (s : State) : Nat := agendaWeight s.agenda + portsWeight s.ports

/-- The operation in flight on port `q`, if one is, runs to its response. -/
def settle (q : Nat) (s : State) : State := if s.inFlight q then drive (s.potential + 1) q s else s

/-- The operation with sequence `todo`, issued on the issuer's port, from its first step to its response. -/
def perform (todo : List Action) (s : State) : Host.Outcome State Fault Refusal :=
  if s.destroyed then .refused .destroyed
  else if s.issuer < s.ports.length then
    if s.inFlight s.issuer then .refused .portBusy
    else .next (settle s.issuer (begin s.issuer todo s))
  else .refused .noSuchPort

/-- A request with a reserved `OP`: it completes with UnknownCommand (R82, R180). -/
def rejectRequest (s : State) : Host.Outcome State Fault Refusal := perform unknownSteps s

/-! ### The requester's side -/

/-- A requester reads the response words of port `q`; none while they hold no value (R21, R38). There is no port
`q >= NUM_REQUESTERS` (R21), and the spec says nothing of a read there: it gives no words either, and `step` refuses it
with `noSuchPort` before it reads (DESIGN CHOICE, log 14; safe). -/
def readResponse (q : Nat) (s : State) : Option (Word × Word) :=
  match s.ports[q]? with
  | none => none
  | some p => if p.responded && p.flight.isNone then some (p.resp0, p.resp1) else none

/-- Some operation is in flight. A run is quiescent when none is (R205). -/
def State.anyInFlight (s : State) : Bool := s.ports.any fun p => p.flight.isSome

/-- The first port with an operation in flight. -/
def State.firstInFlight (s : State) : Option Nat := s.ports.findIdx? fun p => p.flight.isSome

/-- A move while no requester asks anything: the agenda's, or a step of an operation still in flight (R205, R220). In a
quiescent machine nothing changes. -/
def idleMove (s : State) : State :=
  match s.agenda with
  | m :: rest => makeMove m { s with agenda := rest }
  | [] =>
    match s.firstInFlight with
    | some q => turn q s
    | none => s

/-- The request word `w` is accepted on port `q` (R21): it is the one the state holds for the port, and the demand is
met. -/
def accept (q : Nat) (w : Word) (rest : List Demand) (s : State) : State :=
  { s.modifyPort q (·.latch w) with demands := rest, issuer := q }

end Sys2Proof.Machine
end

