-- ==== Sys2Proof/Machine/Acknowledge.lean ====
section
/-! DEFINITION. The meaning of the Interrupt-Acknowledgment Scanner's operation, ACK (`42_interrupt_ack.md`). -/

namespace Sys2Proof.Machine

/-- ACK: acknowledge the lowest-numbered pending pin event (R160). -/
def execAck (s : State) : Host.Outcome State Fault Refusal := perform ackSteps s

end Sys2Proof.Machine
end

