-- ==== Sys2Proof/Machine/Addressing.lean ====
section
/-! DEFINITION. The meaning of the Pin-Addressing Calculator's operation, ADDR (`40_addressing.md`). -/

namespace Sys2Proof.Machine

/-- ADDR: the register location of a pin in a family; no transaction, no lock, unaffected by `inoperative` (R119). -/
def execAddr (pin : Int) (family : Nat) (s : State) : Host.Outcome State Fault Refusal :=
  perform (addrSteps pin family) s

end Sys2Proof.Machine
end

