-- ==== Sys2Proof/Machine/Configuration.lean ====
section
/-! DEFINITION. The meanings of the Configuration Sequencer's operations (`41_configuration.md`). -/

namespace Sys2Proof.Machine

/-- CFG_OUT: make a pin an output and drive it to a level (R135). -/
def execCfgOut (pin : Int) (level : Nat) (s : State) : Host.Outcome State Fault Refusal :=
  perform (cfgOutSteps pin level) s

/-- CFG_IN: make a pin an input (R137). -/
def execCfgIn (pin : Int) (s : State) : Host.Outcome State Fault Refusal :=
  perform (cfgInSteps pin) s

/-- EDGE_EN: enable detection of one edge on a pin, making it an input (R139). -/
def execEdgeEn (pin : Int) (edge : Nat) (s : State) : Host.Outcome State Fault Refusal :=
  perform (edgeEnSteps pin edge) s

/-- EDGE_DIS: disable both edge detections on a pin (R141). -/
def execEdgeDis (pin : Int) (s : State) : Host.Outcome State Fault Refusal :=
  perform (edgeDisSteps pin) s

/-- QUERY: a pin's function code and, for Input or Output pins, its level (R143). -/
def execQuery (pin : Int) (s : State) : Host.Outcome State Fault Refusal :=
  perform (querySteps pin) s

end Sys2Proof.Machine
end

