-- ==== Sys2Proof/Machine/Dispatch.lean ====
section
/-! DEFINITION. The dispatch of an instruction to its meaning, one arm per constructor. -/

namespace Sys2Proof.Machine

def exec (i : Instr) (s : State) : Host.Outcome State Fault Refusal :=
  match i with
  | .addr pin family => Sys2Proof.Machine.execAddr pin family s
  | .ack => Sys2Proof.Machine.execAck s
  | .cfgOut pin level => Sys2Proof.Machine.execCfgOut pin level s
  | .cfgIn pin => Sys2Proof.Machine.execCfgIn pin s
  | .edgeEn pin edge => Sys2Proof.Machine.execEdgeEn pin edge s
  | .edgeDis pin => Sys2Proof.Machine.execEdgeDis pin s
  | .query pin => Sys2Proof.Machine.execQuery pin s

end Sys2Proof.Machine
end

