-- ==== Sys2Proof/Machine/Step.lean ====
section
/-! DEFINITION. One step of the machine: it meets the requesters' next demand. A request on a port whose operation is
still in flight waits for that operation's response (R21, D33). With no demand, another agent moves. -/

namespace Sys2Proof.Machine

/-- The request word `w` on port `q`: accepted once the port's operation is complete, then decoded and run. A reserved
`OP` completes with UnknownCommand (R82). -/
def runRequest (q : Nat) (w : Word) (rest : List Demand) (s : State) : Host.Outcome State Fault Refusal :=
  if s.destroyed then .refused .destroyed
  else if q < s.ports.length then
    match decodeWord w with
    | .ok i => exec i (accept q w rest (settle q s))
    | .error _ => rejectRequest (accept q w rest (settle q s))
  else .refused .noSuchPort

/-- A requester reads the response of port `q`; the words are `readResponse` (R21). While the latches hold no value the
spec has the read fault (R21: "a model reading them then faults"; R38: "a read faults until the first response"; U14).
That the read of a port that does not exist is refused, as a request there is, is the model's choice (DESIGN CHOICE,
log 14). -/
def runReadResponse (q : Nat) (rest : List Demand) (s : State) : Host.Outcome State Fault Refusal :=
  if q < s.ports.length then
    match readResponse q s with
    | some _ => .next { s with demands := rest }
    | none => .fault (.responseNotHeld q)
  else .refused .noSuchPort

/-- The register range is released: the controller is destroyed, with no operation in flight (R204). -/
def runRelease (rest : List Demand) (s : State) : Host.Outcome State Fault Refusal :=
  if s.destroyed then .refused .destroyed
  else if s.anyInFlight then .refused .releasedInFlight
  else .next { s with destroyed := true, demands := rest }

/-- One step. -/
def step (s : State) : Host.Outcome State Fault Refusal :=
  match s.demands with
  | [] => .next (idleMove s)
  | .request q w :: rest => runRequest q w rest s
  | .readResponse q :: rest => runReadResponse q rest s
  | .release :: rest => runRelease rest s

/-- The state in which the next step runs the request word `w` (its bits above `nbits` zero): port 0's requester issues
it next (log 9). -/
def State.withFetchWord (s : State) (nbits w : Nat) : State :=
  { s with demands := .request 0 (BitVec.ofNat 32 (w % 2 ^ nbits)) :: s.demands }

end Sys2Proof.Machine
end

