-- ==== Sys2Proof/Machine/Assembler.lean ====
section
/-! DEFINITION. What stands around the block in its spec: the assembler syntax (R99), the command vocabulary as
pseudo-instructions (R100, R101), and the texts formed outside the block from a QUERY result (R102, R144). A line of
assembler text is taken as its mnemonic and its arguments (log 21). -/

namespace Sys2Proof.Machine

/-- An argument as written: a number or a symbolic name (R99). -/
inductive AsmArg where
  | number (n : Int)
  | symbol (name : String)
  deriving DecidableEq, Repr

/-- The value of an `ARG` operand: a number 0..255, or one of the names of its position (R99). -/
def argValue (names : String → Option Nat) : AsmArg → Option Nat
  | .number n => if 0 ≤ n ∧ n < 256 then some n.toNat else none
  | .symbol name => names name

/-- The family names (R99). -/
def familySymbol : String → Option Nat
  | "FSEL" => some 0
  | "SET" => some 1
  | "CLR" => some 2
  | "LEV" => some 3
  | "EDS" => some 4
  | "REN" => some 5
  | "FEN" => some 6
  | _ => none

/-- The level names (R99). -/
def levelSymbol : String → Option Nat
  | "LOW" => some 0
  | "HIGH" => some 1
  | _ => none

/-- The edge names (R99). -/
def edgeSymbol : String → Option Nat
  | "RISING" => some 0
  | "FALLING" => some 1
  | _ => none

/-- The instruction a line of assembler stands for (R99). -/
def asmInstr (mnemonic : String) (args : List AsmArg) : Option Instr :=
  match mnemonic, args with
  | "ADDR", [.number pin, f] => (argValue familySymbol f).map (.addr pin)
  | "ACK", [] => some .ack
  | "CFG_OUT", [.number pin, l] => (argValue levelSymbol l).map (.cfgOut pin)
  | "CFG_IN", [.number pin] => some (.cfgIn pin)
  | "EDGE_EN", [.number pin, e] => (argValue edgeSymbol e).map (.edgeEn pin)
  | "EDGE_DIS", [.number pin] => some (.edgeDis pin)
  | "QUERY", [.number pin] => some (.query pin)
  | _, _ => none

/-- The request word of a line of assembler; `.req` emits the word as given (R99). None: no such line.
A pin outside -32768..32767, or a `.req` number that does not fit 32 bits, gives no word either, with no truncation and
no InvalidPin: R99 leaves that open (DESIGN CHOICE, log 21; safe). -/
def assemble (mnemonic : String) (args : List AsmArg) : Option Word :=
  match mnemonic, args with
  | ".req", [.number n] => if 0 ≤ n ∧ n < 4294967296 then some (BitVec.ofInt 32 n) else none
  | m, as =>
    match asmInstr m as with
    | some i => if i.wellFormed then some (encode i) else none
    | none => none

/-- The six actions of the command vocabulary (R100). -/
inductive CommandAction where
  | high
  | low
  | input
  | rising
  | falling
  | noEdges
  deriving DecidableEq, Repr

/-- The action words (R100). -/
def commandAction : String → Option CommandAction
  | "high" => some .high
  | "low" => some .low
  | "in" => some .input
  | "rising" => some .rising
  | "falling" => some .falling
  | "none" => some .noEdges
  | _ => none

/-- Each action expands to exactly one request (R100). -/
def expandAction (pin : Int) : CommandAction → Instr
  | .high => .cfgOut pin 1
  | .low => .cfgOut pin 0
  | .input => .cfgIn pin
  | .rising => .edgeEn pin 0
  | .falling => .edgeEn pin 1
  | .noEdges => .edgeDis pin

/-- A command: the request word it issues, or, with no request issued, UnknownCommand for a word outside the vocabulary
(R101) and InvalidPin for an integer that does not fit the `PIN` field (R80). -/
def expandCommand (pin : Int) (word : String) : Except Status Word :=
  match commandAction word with
  | none => .error .unknownCommand
  | some a => if pinFits pin then .ok (encode (expandAction pin a)) else .error .invalidPin

/-- The per-pin query text of a QUERY result (R102). -/
def queryText (r0 : Word) : String :=
  if respIo r0 = 1 then (if respFunc r0 = 0 then "input: " else "output: ") ++ toString (respLevel r0)
  else "not input/output pin"

/-- The enumerator's row for pin `p`, from a QUERY result; none for an alternate-function pin (R144). -/
def enumeratorRow (p : Nat) (r0 : Word) : Option String :=
  if respIo r0 = 1 then
    some (toString p ++ (if respFunc r0 = 0 then ". input  " else ". output  ") ++ toString (respLevel r0))
  else none

end Sys2Proof.Machine
end

