-- ==== Sys2Proof/Safety.lean ====
section
/-! DEFINITION. What claims are stated in: the invariant of the machine (`Inv`), the premises under which an operation
runs undisturbed and its transactions succeed, and the relations "nothing else changed". -/

namespace Sys2Proof.Safety

open Sys2Proof.Machine

/-! ### The invariant -/

/-- The canonical form of the window: non-pin bits are not stored (R28, R29, log 12). -/
def WindowOk (w : Window) : Prop :=
  (∀ i : Fin 6, w.fselAt i &&& ~~~fselPinMask i = 0) ∧
  (∀ i : Fin 2, w.edsAt i &&& ~~~bitPinMask i = 0) ∧
  (∀ i : Fin 2, w.renAt i &&& ~~~bitPinMask i = 0) ∧
  (∀ i : Fin 2, w.fenAt i &&& ~~~bitPinMask i = 0)

/-- A sequence position of a CSQ or ADDR operation at which it holds no lock: what is left is checks, whole RMWs, W1
writes to SetLevel or ClearLevel, and an end. -/
def plainOk : List Action → Bool
  | [.respond _ _] => true
  | [.queryFunction _] => true
  | [.queryLevel _ _] => true
  | .check _ _ :: rest => plainOk rest
  | .writeOne f _ :: rest => (f == .setLevel || f == .clearLevel) && plainOk rest
  | .acquire f :: .readField f1 p1 :: .writeField f2 p2 _ :: .release f3 :: rest =>
    f1 == f && f2 == f && f3 == f && p1 == p2 && plainOk rest
  | _ => false

/-- The sequence positions of the operations, each with the lock held there (R64, R65, R131). -/
inductive Position : List Action → Option LockFamily → Prop where
  | plain {todo : List Action} (h : plainOk todo = true) : Position todo none
  | reading (f : LockFamily) (pin : Int) (v : Word) {rest : List Action} (h : plainOk rest = true) :
      Position (.readField f pin :: .writeField f pin v :: .release f :: rest) (some f)
  | writing (f : LockFamily) (pin : Int) (v : Word) {rest : List Action} (h : plainOk rest = true) :
      Position (.writeField f pin v :: .release f :: rest) (some f)
  | releasing (f : LockFamily) {rest : List Action} (h : plainOk rest = true) :
      Position (.release f :: rest) (some f)
  | claim : Position [.claimScanner] none
  | low : Position [.scanLow] none
  | high : Position [.scanHigh] none
  | clear : Position [.scanClear] none
  | answer (index : Nat) : Position [.respondScan index] none

/-- The operation is an ACK that has claimed the scanner (R160). -/
def inScan : List Action → Bool
  | [.scanLow] => true
  | [.scanHigh] => true
  | [.scanClear] => true
  | [.respondScan _] => true
  | _ => false

/-- The word an RMW has read agrees with the register in every pin bit. -/
def TempAgrees (w : Window) (f : LockFamily) (pin : Int) (temp : Word) : Prop :=
  ∀ l r, addr pin f.family = .ok l → Reg.ofOffset l.byteOffset = some r → temp &&& r.pinMask = w.stored r

/-- The invariant of the machine. It holds at reset and every step keeps it. -/
structure Inv (s : State) : Prop where
  /-- NUM_REQUESTERS is at least 2 (R8). -/
  ports : 2 ≤ s.ports.length
  /-- The issuer is a requester port (R21). -/
  issuer : s.issuer < s.ports.length
  /-- The window is in its canonical form. -/
  window : WindowOk s.window
  /-- While an operation is in flight, the response latches hold no value (R21). -/
  fresh : ∀ (q : Nat) (p : Port), s.ports[q]? = some p → p.flight.isSome = true → p.responded = false
  /-- Every operation in flight is at a position of an operation, and holds exactly the lock of that position, so at most
  one (R23, R65). -/
  sequence : ∀ q f, s.flightOf q = some f →
    ∃ h, Position f.todo h ∧ ∀ l, s.locks.holder l = some q ↔ h = some l
  /-- A lock is free or held by an operation in flight (R23). -/
  holders : ∀ l q, s.locks.holder l = some q → s.inFlight q = true
  /-- `IAS.busy` = 1 exactly while an ACK is in flight that has claimed the scanner, and `IAS.owner` is its port (R24). -/
  scanner : ∀ q, (s.ias.busy = true ∧ s.ias.owner = q) ↔ ∃ f, s.flightOf q = some f ∧ inScan f.todo = true
  /-- When ACK clears, the active register read non-zero, and it is EDS0 with base 0 or EDS1 with base 32 (R24). -/
  active : ∀ q f, s.flightOf q = some f → f.todo = [.scanClear] →
    s.ias.val ≠ 0 ∧ ((s.ias.base = 0 ∧ s.ias.reg = 0x40) ∨ (s.ias.base = 32 ∧ s.ias.reg = 0x44))
  /-- Between the read and the write of an RMW nobody changes the register (R131, R146). -/
  temps : ∀ q f g pin v rest, s.flightOf q = some f → f.todo = .writeField g pin v :: rest →
    TempAgrees s.window g pin f.temp
  /-- After destruction no operation is in flight (R204). -/
  ended : s.destroyed = true → ∀ q, s.flightOf q = none

/-! ### Premises -/

/-- The issuer's port can accept a request: it exists, has no operation in flight, and the controller is there. -/
structure Ready (s : State) : Prop where
  alive : s.destroyed = false
  issuer : s.issuer < s.ports.length
  idle : s.inFlight s.issuer = false

/-- The issuer's operation runs with no move of another agent between its steps. -/
structure Alone (s : State) : Prop extends Ready s where
  agenda : s.agenda = []
  /-- A port with no operation in flight holds no lock (`Inv.holders`). -/
  unlocked : ∀ g, s.locks.holder g ≠ some s.issuer

/-- The issuer's operation runs alone, and there is nothing it could wait for. -/
structure Undisturbed (s : State) : Prop extends Alone s where
  locks : s.locks = Locks.free
  scanner : s.ias.busy = false

/-- None of the next `n` transactions returns `ERR` (the premise of `93_implementation_defined.md` U10). -/
def BusOk (s : State) (n : Nat) : Prop := ∀ k, k < n → (s.drawAt k).err = false

/-- The `n`-th transaction from now is the first that returns `ERR`. -/
def BusFailsAt (s : State) (n : Nat) : Prop := BusOk s n ∧ (s.drawAt n).err = true

/-! ### What is left unchanged -/

/-- The other ports are as they were, and the issuer's `REQ`. -/
def OtherPortsKept (s t : State) : Prop :=
  t.ports.length = s.ports.length ∧ (∀ q, q ≠ s.issuer → t.ports[q]? = s.ports[q]?) ∧
  (t.ports[s.issuer]?).map Port.req = (s.ports[s.issuer]?).map Port.req

/-- The operation of the issuer is complete with the response `r0`, `r1`; locks, requests and the model's own fields but
for the draws and the record are as they were. -/
structure Completed (s t : State) (r0 r1 : Word) : Prop where
  response : readResponse s.issuer t = some (r0, r1)
  others : OtherPortsKept s t
  locks : t.locks = s.locks
  destroyed : t.destroyed = s.destroyed
  issuer : t.issuer = s.issuer
  demands : t.demands = s.demands
  agenda : t.agenda = s.agenda

/-- No transaction was issued, and the block and the window are as they were. -/
structure NothingDone (s t : State) : Prop where
  window : t.window = s.window
  inoperative : t.inoperative = s.inoperative
  scanner : t.ias = s.ias
  bus : t.bus = s.bus

/-- Every pin but `p` has the function, the output latch, the pending latch and the edge enables it had; every external
level is as it was. -/
structure OtherPinsKept (w w' : Window) (p : Nat) : Prop where
  func : ∀ k, k < Config.pinCount → k ≠ p → w'.func k = w.func k
  latch : ∀ k, k < Config.pinCount → k ≠ p → w'.latch k = w.latch k
  pending : ∀ k, k < Config.pinCount → k ≠ p → w'.pending k = w.pending k
  rising : ∀ k, k < Config.pinCount → k ≠ p → w'.rising k = w.rising k
  falling : ∀ k, k < Config.pinCount → k ≠ p → w'.falling k = w.falling k
  external : w'.extLevel = w.extLevel

/-- Pin `p` itself has the pending latch and the edge enables it had. -/
structure EdgesKept (w w' : Window) (p : Nat) : Prop where
  pending : w'.pending p = w.pending p
  rising : w'.rising p = w.rising p
  falling : w'.falling p = w.falling p

/-! ### Words claims are made in -/

/-- The pin of a CSQ operation (R130): CFG_OUT, CFG_IN, EDGE_EN, EDGE_DIS and QUERY. -/
def csqPin : Instr → Option Int
  | .addr _ _ => none
  | .ack => none
  | .cfgOut pin _ => some pin
  | .cfgIn pin => some pin
  | .edgeEn pin _ => some pin
  | .edgeDis pin => some pin
  | .query pin => some pin

/-- The error of a CSQ operation's argument, if it is bad (R86, R87, R130). -/
def csqArgError : Instr → Option Status
  | .cfgOut _ level => levelError level
  | .edgeEn _ edge => edgeError edge
  | _ => none

/-- How many transactions a CSQ operation on pin `p` makes when none fails (R221). -/
def csqTransactions (w : Window) (p : Nat) : Instr → Nat
  | .addr _ _ => 0
  | .ack => 0
  | .cfgOut _ _ => 3
  | .cfgIn _ => 2
  | .edgeEn _ _ => 8
  | .edgeDis _ => 4
  | .query _ => if w.func p = inputCode ∨ w.func p = outputCode then 2 else 1

/-- The statuses an operation may end with ("Status written" of R119, R135, R137, R139, R141, R143, R160). -/
def statusesOf : Instr → List Status
  | .addr _ _ => [.ok, .unknownCommand, .invalidPin]
  | .ack => [.ok]
  | .cfgOut _ _ => [.ok, .registerAccessFailure, .invalidPin, .invalidLevel]
  | .cfgIn _ => [.ok, .registerAccessFailure, .invalidPin]
  | .edgeEn _ _ => [.ok, .registerAccessFailure, .invalidPin, .invalidEdge]
  | .edgeDis _ => [.ok, .registerAccessFailure, .invalidPin]
  | .query _ => [.ok, .registerAccessFailure, .invalidPin]

/-- The port on whose behalf a transaction was issued. -/
def transactionPort : Transaction → Nat
  | .read q _ _ => q
  | .write q _ _ _ => q

/-- The transaction returned `ERR` (R73). -/
def failedTransaction : Transaction → Bool
  | .read _ _ result => result.isNone
  | .write _ _ _ ok => !ok

/-- How many of the recorded transactions belong to port `q`. -/
def transactionCount (q : Nat) (bus : List Transaction) : Nat := bus.countP fun t => transactionPort t == q

/-- The field of pin `p` in the family of a lock: the function code, or the enable bit as a word. -/
def lockField (w : Window) (g : LockFamily) (p : Nat) : Word :=
  match g with
  | .functionSelect => w.func p
  | .risingEdgeEnable => if w.rising p then 1 else 0
  | .fallingEdgeEnable => if w.falling p then 1 else 0

/-- The pins with a pending event, in increasing order (R189). -/
def pendingPins (w : Window) : List Nat := (List.range 54).filter w.pending

/-- The `INDEX` fields of `n` ACKs issued one after the other on the issuer's port (R170). -/
def ackRun : Nat → State → List Nat
  | 0, _ => []
  | n + 1, s =>
    match exec .ack s with
    | .next t =>
      match readResponse s.issuer t with
      | some (r0, _) => respIndex r0 :: ackRun n t
      | none => []
    | .fault _ => []
    | .refused _ => []

/-- A move of the window hardware (R59). -/
def hardwareMove : Move → Bool
  | .level _ _ => true
  | .event _ => true
  | .redraw => true
  | .advance _ => false
  | .request _ _ => false

/-- The moves `ms`, one after the other. -/
def runMoves (ms : List Move) (s : State) : State := ms.foldl (fun s m => makeMove m s) s

/-- The operations of the ports `qs` take their next steps, one after the other. -/
def runSteps (qs : List Nat) (s : State) : State := qs.foldl (fun s q => advance q s) s

end Sys2Proof.Safety
end

