-- ==== Sys2Proof/Certificates/Slice0/Obligations.lean ====
section
/-! DEFINITION. The statements about the machine, each with the rules it formalises. Pins are written as numbers `p`
below 54. "Alone" is: no move of another agent falls between the steps of the operation (`Safety.Alone`). The draws of
the transactions are free in every statement: what they are is said by `BusOk` and `BusFailsAt` alone. -/

section Statements

open Sys2Proof Sys2Proof.Machine Sys2Proof.Safety

/-! ### Reset, decoding, steps -/

/-- R38, R39, R200, R201, R202: what creation leaves, over any window `w`, which it does not change. -/
def Obligations.ResetBlockState : Prop :=
  ∀ (available : Bool) (ports : Nat) (w : Window),
    let s := State.create available ports w
    (s.inoperative = !available) ∧ (∀ g, s.locks.holder g = none) ∧ s.ias.busy = false ∧ s.bus = [] ∧
    s.window = w ∧ s.destroyed = false ∧ s.ports.length = ports ∧
    (∀ q, q < ports → s.inFlight q = false ∧ accepts q s = true ∧
      ∀ rest, step { s with demands := .readResponse q :: rest } = .fault (.responseNotHeld q)) ∧
    State.reset = State.create Config.windowAvailable Config.numRequesters Window.initial

/-- The invariant holds at reset, and after any creation with at least two ports (R8) over a canonical window. -/
def Obligations.ResetMeetsInvariant : Prop :=
  Inv State.reset ∧
  ∀ (available : Bool) (ports : Nat) (w : Window), 2 ≤ ports → WindowOk w → Inv (State.create available ports w)

/-- Words of `95_test_vectors.md`, and what they stand for. -/
def Obligations.SampleRequestWordsDecode : Prop :=
  decodeWord 0x00110000#32 = .ok (.addr 17 0) ∧ decodeWord 0xFFFF0000#32 = .ok (.addr (-1) 0) ∧
  decodeWord 0x00000001#32 = .ok .ack ∧ decodeWord 0x00110102#32 = .ok (.cfgOut 17 1) ∧
  decodeWord 0x00350003#32 = .ok (.cfgIn 53) ∧ decodeWord 0x00040004#32 = .ok (.edgeEn 4 0) ∧
  decodeWord 0x00230005#32 = .ok (.edgeDis 35) ∧ decodeWord 0x00020006#32 = .ok (.query 2) ∧
  decodeWord 0x00360707#32 = .error (.reservedOp 7)

/-- A step that meets a request runs the decoded instruction: `exec i` in the state in which the port's operation in
flight, if one is, has run to its response, the word is latched in `REQ`, the port is the issuer and the demand is met
(R21, R80, R88). -/
def Obligations.StepRunsDecodedInstruction : Prop :=
  ∀ (s : State) (q : Nat) (w : Word) (rest : List Demand) (i : Instr),
    s.demands = .request q w :: rest → s.destroyed = false → q < s.ports.length → decodeWord w = .ok i →
    step s = exec i (accept q w rest (settle q s)) ∧ (s.inFlight q = false → settle q s = s) ∧
    ∀ b : State, (accept q w rest b).issuer = q ∧ (accept q w rest b).demands = rest ∧
      (q < b.ports.length → ((accept q w rest b).ports[q]?).map Port.req = some w) ∧
      (∀ r, r ≠ q → (accept q w rest b).ports[r]? = b.ports[r]?) ∧
      (∀ r, (accept q w rest b).flightOf r = b.flightOf r) ∧
      (accept q w rest b).window = b.window ∧ (accept q w rest b).inoperative = b.inoperative ∧
      (accept q w rest b).locks = b.locks ∧ (accept q w rest b).ias = b.ias ∧
      (accept q w rest b).destroyed = b.destroyed ∧ (accept q w rest b).agenda = b.agenda ∧
      (accept q w rest b).bus = b.bus

/-- R82, R180: a request with a reserved `OP` completes with UnknownCommand, with no transaction and no state change. -/
def Obligations.ReservedOpCompletesUnknown : Prop :=
  ∀ (s : State) (q : Nat) (w : Word) (rest : List Demand),
    s.demands = .request q w :: rest → s.destroyed = false → q < s.ports.length → s.inFlight q = false →
    s.agenda = [] → 7 ≤ reqOp w →
    ∃ t, step s = .next t ∧ Completed (accept q w rest s) t 4 0 ∧ NothingDone s t

/-- R83: fields an operation does not use are ignored. -/
def Obligations.IgnoredFields : Prop :=
  ∀ w w' : Word, reqOp w = reqOp w' →
    (reqOp w = 1 → decodeWord w = .ok .ack ∧ decodeWord w' = .ok .ack) ∧
    ((reqOp w = 3 ∨ reqOp w = 5 ∨ reqOp w = 6) → reqPin w = reqPin w' → decodeWord w = decodeWord w')

/-- What the encoder writes, the decoder reads, for every well-formed instruction and every operand (R80, R81, R99). -/
def Obligations.DecodeEncode : Prop :=
  ∀ i : Instr, i.wellFormed = true → decodeWord (encode i) = .ok i

/-- Every word with an `OP` of 0 to 6 decodes to a well-formed instruction, no other word decodes, and encoding the
instruction gives the word's `OP` and, where the operation uses them, its `PIN` and `ARG` (R80 to R83, R88). -/
def Obligations.DecodedIsWellFormed : Prop :=
  ∀ w : Word,
    (7 ≤ reqOp w ↔ ∃ e, decodeWord w = .error e) ∧
    ∀ i, decodeWord w = .ok i →
      i.wellFormed = true ∧ reqOp (encode i) = reqOp w ∧ (reqOp w ≠ 1 → reqPin (encode i) = reqPin w) ∧
      ((reqOp w = 0 ∨ reqOp w = 2 ∨ reqOp w = 4) → encode i = w)

/-! ### The Pin-Addressing Calculator -/

/-- R119 with R112, R113, R91, R85 and R95: ADDR answers the location of the pin's field; a reserved family code is
reported first; no transaction, no lock, and `inoperative` does not matter. -/
def Obligations.AddrAnswersLocation : Prop :=
  ∀ (s : State) (pin : Int) (family : Nat), Alone s →
    (6 < family → ∃ t, exec (.addr pin family) s = .next t ∧ Completed s t 4 0 ∧ NothingDone s t) ∧
    (family ≤ 6 → ¬(0 ≤ pin ∧ pin < 54) →
      ∃ t, exec (.addr pin family) s = .next t ∧ Completed s t 1 0 ∧ NothingDone s t) ∧
    (∀ f, familyOfCode family = some f → 0 ≤ pin ∧ pin < 54 →
      ∃ t r0, exec (.addr pin family) s = .next t ∧ NothingDone s t ∧
        Completed s t r0 (BitVec.ofNat 32 ((2 ^ fieldWidth f - 1) * 2 ^ (pin.toNat % pinsPerRegister f * fieldWidth f))) ∧
        respStatus r0 = 0 ∧
        respByteOffset r0 = familyBase f + pin.toNat / pinsPerRegister f * 4 ∧
        respBitOffset r0 = pin.toNat % pinsPerRegister f * fieldWidth f ∧
        respWidth r0 = fieldWidth f ∧ respRegIndex r0 = pin.toNat / pinsPerRegister f)

/-- R84, R111, R114: the families, and the ranges of `Addr` on valid pins. -/
def Obligations.AddrRanges : Prop :=
  (∀ c f, familyOfCode c = some f ↔
    (c, f) ∈ [(0, .functionSelect), (1, .setLevel), (2, .clearLevel), (3, .readLevel), (4, .eventStatus),
      (5, .risingEdgeEnable), (6, Family.fallingEdgeEnable)]) ∧
  ∀ (p : Nat) (f : Family), p < 54 → ∃ l, addr p f = .ok l ∧
    (f = .functionSelect → l.regIndex ≤ 5 ∧ l.byteOffset = 4 * l.regIndex ∧ l.bitOffset % 3 = 0 ∧ l.bitOffset ≤ 27 ∧
      l.width = 3 ∧ 10 * l.regIndex + l.bitOffset / 3 = p) ∧
    (f ≠ .functionSelect → l.regIndex ≤ 1 ∧ l.byteOffset = familyBase f + 4 * l.regIndex ∧ l.bitOffset ≤ 31 ∧
      (l.regIndex = 1 → l.bitOffset ≤ 21) ∧ l.width = 1 ∧ 32 * l.regIndex + l.bitOffset = p) ∧
    l.byteOffset ≤ 0x5C ∧ l.byteOffset % 4 = 0 ∧
    l.byteOffset ∉ [0x18, 0x24, 0x30, 0x3C, 0x48, 0x54]

/-- R118: `setField` changes the field and leaves every other bit; `getField` returns the field as an unsigned value. -/
def Obligations.FieldPrimitives : Prop :=
  ∀ (word v : Word) (bo w : Nat), bo + w ≤ 32 →
    (∀ i, i < 32 → (setField word bo w v).getLsbD i =
      if bo ≤ i ∧ i < bo + w then v.getLsbD (i - bo) else word.getLsbD i) ∧
    (getField word bo w).toNat = word.toNat / 2 ^ bo % 2 ^ w ∧ (getField word bo w).toNat < 2 ^ w

/-- R96, R97: the function codes. -/
def Obligations.FunctionCodes : Prop :=
  functionOfCode 0 = .input ∧ functionOfCode 1 = .output ∧ functionOfCode 2 = .alternate5 ∧
  functionOfCode 3 = .alternate4 ∧ functionOfCode 4 = .alternate0 ∧ functionOfCode 5 = .alternate1 ∧
  functionOfCode 6 = .alternate2 ∧ functionOfCode 7 = .alternate3 ∧
  ∀ a b : BitVec 3, functionOfCode a = functionOfCode b → a = b

/-! ### Errors -/

/-- R181: a pin outside 0..53 gives InvalidPin, with no transaction and no state change, before any argument is looked
at; ACK never raises it, whatever other agents do. -/
def Obligations.InvalidPinRejected : Prop :=
  (∀ (s : State) (i : Instr) (pin : Int), Alone s → ¬(0 ≤ pin ∧ pin < 54) →
    ((csqPin i = some pin ∧ s.inoperative = false) ∨ ∃ f, f ≤ 6 ∧ i = .addr pin f) →
    ∃ t, exec i s = .next t ∧ Completed s t 1 0 ∧ NothingDone s t) ∧
  ∀ (s t : State) (r0 r1 : Word), Inv s → Ready s → exec .ack s = .next t → readResponse s.issuer t = some (r0, r1) →
    respStatus r0 ≠ 1

/-- R182: a level code above 1 gives InvalidLevel, with no transaction and no state change; no other operation ends
with InvalidLevel, whatever other agents do. -/
def Obligations.InvalidLevelRejected : Prop :=
  (∀ (s : State) (p level : Nat), Alone s → s.inoperative = false → p < 54 → 1 < level →
    ∃ t, exec (.cfgOut p level) s = .next t ∧ Completed s t 2 0 ∧ NothingDone s t) ∧
  ∀ (i : Instr) (s t : State) (r0 r1 : Word), Inv s → Ready s → exec i s = .next t →
    readResponse s.issuer t = some (r0, r1) → respStatus r0 = 2 → ∃ pin level, i = .cfgOut pin level ∧ 1 < level

/-- R183: an edge code above 1 gives InvalidEdge, with no transaction and no state change; no other operation ends with
InvalidEdge, whatever other agents do. -/
def Obligations.InvalidEdgeRejected : Prop :=
  (∀ (s : State) (p edge : Nat), Alone s → s.inoperative = false → p < 54 → 1 < edge →
    ∃ t, exec (.edgeEn p edge) s = .next t ∧ Completed s t 3 0 ∧ NothingDone s t) ∧
  ∀ (i : Instr) (s t : State) (r0 r1 : Word), Inv s → Ready s → exec i s = .next t →
    readResponse s.issuer t = some (r0, r1) → respStatus r0 = 3 → ∃ pin edge, i = .edgeEn pin edge ∧ 1 < edge

/-- R185 with R130 and R187: while the block is inoperative, every configuration operation and QUERY ends with
RegisterAccessFailure before any transaction, whatever its pin and argument; ACK answers 64 with no transaction; ADDR
still answers the pin's location. -/
def Obligations.InoperativeBlocks : Prop :=
  ∀ s : State, Alone s → s.inoperative = true →
    (∀ i pin, csqPin i = some pin → ∃ t, exec i s = .next t ∧ Completed s t 5 0 ∧ NothingDone s t) ∧
    (s.ias.busy = false → ∃ t, exec .ack s = .next t ∧ Completed s t 0x00004000 0 ∧ t.bus = s.bus ∧
      t.window = s.window ∧ t.inoperative = true ∧ t.ias.busy = false) ∧
    (∀ p : Nat, p < 54 → ∃ t r0, exec (.addr p 5) s = .next t ∧ Completed s t r0 (oneBit (p % 32)) ∧
      NothingDone s t ∧ respStatus r0 = 0 ∧ respByteOffset r0 = 0x4C + 4 * (p / 32))

/-- R22, R184: a step leaves the block inoperative exactly if it was, or if a transaction of the step returned `ERR`; and
the record of transactions only grows. -/
def Obligations.InoperativeExactlyOnFailure : Prop :=
  ∀ s t : State, Inv s → step s = .next t →
    ∃ l, t.bus = l ++ s.bus ∧ (t.inoperative = true ↔ s.inoperative = true ∨ ∃ x ∈ l, failedTransaction x = true)

/-- R94, R95, R186 and the "Status written" lines of R119, R135, R137, R139, R141, R143 and R160: an operation ends with
one of its own statuses, whatever other agents do; with a status other than OK every result field is 0; status 6 is
never produced. -/
def Obligations.ResponseStatuses : Prop :=
  ∀ (i : Instr) (s t : State) (r0 r1 : Word), Inv s → Ready s → exec i s = .next t →
    readResponse s.issuer t = some (r0, r1) →
    ∃ st ∈ statusesOf i, respStatus r0 = st.code.toNat ∧ st ≠ .allocationFailure ∧
      (st ≠ .ok → r0 = st.code ∧ r1 = 0)

/-- R133 with R184 and R64: the first transaction of a configuration operation or QUERY that returns `ERR` ends it with
RegisterAccessFailure: inoperative, no lock held, no further transaction. -/
def Obligations.BusFailureEndsCsqOperation : Prop :=
  ∀ (s : State) (i : Instr) (p k : Nat), Undisturbed s → s.inoperative = false → csqPin i = some (p : Int) → p < 54 →
    csqArgError i = none → k < csqTransactions s.window p i → BusFailsAt s k →
    ∃ t x l, exec i s = .next t ∧ Completed s t 5 0 ∧ t.inoperative = true ∧ t.locks = Locks.free ∧ t.ias = s.ias ∧
      t.bus = x :: l ++ s.bus ∧ failedTransaction x = true ∧ l.length = k ∧ (∀ y ∈ l, failedTransaction y = false) ∧
      OtherPinsKept s.window t.window p

/-- R133 for CFG_OUT: its FunctionSelect write, completed before its last write fails, is not undone, so the pin stays an
Output. -/
def Obligations.CfgOutFailureKeepsFunction : Prop :=
  ∀ (s : State) (p level : Nat), Undisturbed s → s.inoperative = false → p < 54 → level ≤ 1 → BusFailsAt s 2 →
    ∃ t, exec (.cfgOut p level) s = .next t ∧ Completed s t 5 0 ∧ t.inoperative = true ∧ t.window.func p = 1 ∧
      OtherPinsKept s.window t.window p ∧ EdgesKept s.window t.window p

/-- R73: after `ERR` a read has no value, and the target of a write holds its old value or the written one, as the draw
says; nothing else changes but the record. -/
def Obligations.FailedTransaction : Prop :=
  ∀ (s : State) (q p : Nat) (f : Family) (v : Word) (l : Location) (r : Reg), p < 54 → addr p f = .ok l →
    Reg.ofOffset l.byteOffset = some r → (s.drawAt 0).err = true →
    (memRead q l.byteOffset s).1 = none ∧ (memRead q l.byteOffset s).2.window = s.window ∧
    (f ≠ .readLevel →
      (memWrite q l.byteOffset v s).1 = false ∧
      (memWrite q l.byteOffset v s).2.bus = .write q l.byteOffset v false :: s.bus ∧
      (memWrite q l.byteOffset v s).2.window =
        if (s.drawAt 0).took then s.window.write r v (s.drawAt 0).bits else s.window)

/-! ### The configuration operations -/

/-- R135, R130, R131, R132, R134, R221: CFG_OUT, with its three transactions and its frame. -/
def Obligations.CfgOutResult : Prop :=
  ∀ (s : State) (p level : Nat), Undisturbed s → s.inoperative = false → BusOk s 3 → p < 54 → level ≤ 1 →
    ∃ t r, exec (.cfgOut p level) s = .next t ∧ Completed s t 0 0 ∧ t.inoperative = false ∧ t.ias = s.ias ∧
      t.window.func p = 1 ∧ t.window.latch p = decide (level = 1) ∧ EdgesKept s.window t.window p ∧
      OtherPinsKept s.window t.window p ∧
      r &&& fselPinMask (Fin.ofNat 6 (p / 10)) = s.window.fselAt (p / 10) &&& fselPinMask (Fin.ofNat 6 (p / 10)) ∧
      t.bus = .write s.issuer ((if level = 1 then 0x1C else 0x28) + 4 * (p / 32)) (1 <<< (p % 32)) true ::
        .write s.issuer (4 * (p / 10)) (setField r (3 * (p % 10)) 3 1) true ::
        .read s.issuer (4 * (p / 10)) (some r) :: s.bus

/-- R137, R138 (first sentence), R131, R134, R221: CFG_IN, with its two transactions and its frame. -/
def Obligations.CfgInResult : Prop :=
  ∀ (s : State) (p : Nat), Undisturbed s → s.inoperative = false → BusOk s 2 → p < 54 →
    ∃ t r, exec (.cfgIn p) s = .next t ∧ Completed s t 0 0 ∧ t.inoperative = false ∧ t.ias = s.ias ∧
      t.window.func p = 0 ∧ t.window.latch p = s.window.latch p ∧ EdgesKept s.window t.window p ∧
      OtherPinsKept s.window t.window p ∧
      r &&& fselPinMask (Fin.ofNat 6 (p / 10)) = s.window.fselAt (p / 10) &&& fselPinMask (Fin.ofNat 6 (p / 10)) ∧
      t.bus = .write s.issuer (4 * (p / 10)) (setField r (3 * (p % 10)) 3 0) true ::
        .read s.issuer (4 * (p / 10)) (some r) :: s.bus

/-- R139, R140, R131, R134, R214, R215, R221: EDGE_EN, with its eight transactions and its frame. -/
def Obligations.EdgeEnResult : Prop :=
  ∀ (s : State) (p edge : Nat), Undisturbed s → s.inoperative = false → BusOk s 8 → p < 54 → edge ≤ 1 →
    ∃ t r1 r2 r3 r4, exec (.edgeEn p edge) s = .next t ∧ Completed s t 0 0 ∧ t.inoperative = false ∧ t.ias = s.ias ∧
      t.window.func p = 0 ∧ t.window.rising p = decide (edge = 0) ∧ t.window.falling p = decide (edge = 1) ∧
      t.window.latch p = s.window.latch p ∧ t.window.pending p = s.window.pending p ∧
      OtherPinsKept s.window t.window p ∧
      t.bus = .write s.issuer ((if edge = 0 then 0x4C else 0x58) + 4 * (p / 32)) (setField r4 (p % 32) 1 1) true ::
        .read s.issuer ((if edge = 0 then 0x4C else 0x58) + 4 * (p / 32)) (some r4) ::
        .write s.issuer (4 * (p / 10)) (setField r3 (3 * (p % 10)) 3 0) true ::
        .read s.issuer (4 * (p / 10)) (some r3) ::
        .write s.issuer (0x58 + 4 * (p / 32)) (setField r2 (p % 32) 1 0) true ::
        .read s.issuer (0x58 + 4 * (p / 32)) (some r2) ::
        .write s.issuer (0x4C + 4 * (p / 32)) (setField r1 (p % 32) 1 0) true ::
        .read s.issuer (0x4C + 4 * (p / 32)) (some r1) :: s.bus

/-- R141, R131, R134, R214, R215, R221: EDGE_DIS, with its four transactions and its frame. -/
def Obligations.EdgeDisResult : Prop :=
  ∀ (s : State) (p : Nat), Undisturbed s → s.inoperative = false → BusOk s 4 → p < 54 →
    ∃ t r1 r2, exec (.edgeDis p) s = .next t ∧ Completed s t 0 0 ∧ t.inoperative = false ∧ t.ias = s.ias ∧
      t.window.rising p = false ∧ t.window.falling p = false ∧ t.window.func p = s.window.func p ∧
      t.window.latch p = s.window.latch p ∧ t.window.pending p = s.window.pending p ∧
      OtherPinsKept s.window t.window p ∧
      t.bus = .write s.issuer (0x58 + 4 * (p / 32)) (setField r2 (p % 32) 1 0) true ::
        .read s.issuer (0x58 + 4 * (p / 32)) (some r2) ::
        .write s.issuer (0x4C + 4 * (p / 32)) (setField r1 (p % 32) 1 0) true ::
        .read s.issuer (0x4C + 4 * (p / 32)) (some r1) :: s.bus

/-- R143, R93, R66, R221: QUERY of an Input or Output pin: two reads, no write, whatever locks are held. -/
def Obligations.QueryIoResult : Prop :=
  ∀ (s : State) (p : Nat), Alone s → s.inoperative = false → BusOk s 2 → p < 54 →
    (s.window.func p = 0 ∨ s.window.func p = 1) →
    ∃ t r l, exec (.query p) s = .next t ∧
      Completed s t ((if (if s.window.func p = 1 then s.window.latch p else s.window.external p) then 0x01000000 else 0)
        ||| 0x00010000 ||| (s.window.func p <<< 8)) 0 ∧
      t.window = s.window ∧ t.inoperative = false ∧ t.ias = s.ias ∧
      t.bus = .read s.issuer (0x34 + 4 * (p / 32)) (some l) :: .read s.issuer (4 * (p / 10)) (some r) :: s.bus

/-- R143, R93, R66, R221: QUERY of a pin in an alternate function: one read, no level. -/
def Obligations.QueryAlternateResult : Prop :=
  ∀ (s : State) (p : Nat), Alone s → s.inoperative = false → BusOk s 1 → p < 54 →
    s.window.func p ≠ 0 → s.window.func p ≠ 1 →
    ∃ t r, exec (.query p) s = .next t ∧ Completed s t (s.window.func p <<< 8) 0 ∧
      t.window = s.window ∧ t.inoperative = false ∧ t.ias = s.ias ∧
      t.bus = .read s.issuer (4 * (p / 10)) (some r) :: s.bus

/-- R142: EDGE_DIS twice in a row leaves the same window as once: both edge bits of the pin 0, every other pin as it
was. -/
def Obligations.EdgeDisTwice : Prop :=
  ∀ (s : State) (p : Nat), Undisturbed s → s.inoperative = false → BusOk s 8 → p < 54 →
    ∃ t u, exec (.edgeDis p) s = .next t ∧ exec (.edgeDis p) t = .next u ∧ u.window = t.window ∧
      t.window.rising p = false ∧ t.window.falling p = false ∧ OtherPinsKept s.window t.window p ∧
      Completed s t 0 0 ∧ Completed t u 0 0

/-- R136: after CFG_OUT completes with OK, a QUERY of the pin reports the level it was driven to, whatever the window
hardware does before, between and after the steps of the two operations. -/
def Obligations.CfgOutThenQueryLevel : Prop :=
  ∀ (s : State) (p level : Nat) (ms : List Move), Inv s → Ready s → s.locks = Locks.free → s.inoperative = false →
    BusOk s (s.agenda.length + ms.length + 16) → p < 54 → level ≤ 1 →
    (∀ m ∈ s.agenda ++ ms, m = .advance s.issuer ∨ hardwareMove m = true) →
    ∃ t u r0, exec (.cfgOut p level) s = .next t ∧ readResponse s.issuer t = some (0, 0) ∧
      exec (.query p) { t with agenda := ms } = .next u ∧ readResponse s.issuer u = some (r0, 0) ∧
      respFunc r0 = 1 ∧ respIo r0 = 1 ∧ respLevel r0 = level

/-- R138: CFG_IN does not change the output latch, and afterwards ReadLevel reports the external level, whatever the
window hardware does. -/
def Obligations.CfgInReportsExternalLevel : Prop :=
  ∀ (s : State) (p : Nat) (ms : List Move), Undisturbed s → s.inoperative = false → BusOk s 2 → p < 54 →
    ms.all hardwareMove = true →
    ∃ t, exec (.cfgIn p) s = .next t ∧ Completed s t 0 0 ∧ t.window.latch p = s.window.latch p ∧
      ∀ bits, ((runMoves ms t).window.read (.lev (Fin.ofNat 2 (p / 32))) bits).getLsbD (p % 32) =
        (runMoves ms t).window.external p

/-! ### The Interrupt-Acknowledgment Scanner -/

/-- R160, R162, R163, R165: EDS0 reads non-zero. -/
def Obligations.AckLowResult : Prop :=
  ∀ (s : State) (b : Nat), Alone s → s.ias.busy = false → s.inoperative = false → BusOk s 2 → b < 32 →
    s.window.pending b = true → (∀ k, k < b → s.window.pending k = false) →
    ∃ t v, exec .ack s = .next t ∧ Completed s t (BitVec.ofNat 32 b <<< 8) 0 ∧ t.inoperative = false ∧
      t.ias.busy = false ∧ (∀ k, k < 54 → t.window.pending k = (s.window.pending k && !decide (k = b))) ∧
      t.window = { s.window with eds := t.window.eds } ∧ (∀ k, k < 32 → v.getLsbD k = s.window.pending k) ∧
      t.bus = .write s.issuer 0x40 (1 <<< b) true :: .read s.issuer 0x40 (some v) :: s.bus

/-- R160, R162, R163, R165, R169: EDS0 reads zero and EDS1, non-pin bits as drawn, reads `v`, with lowest set bit `b`;
a non-pin bit is answered like any other and clears nothing. -/
def Obligations.AckHighResult : Prop :=
  ∀ (s : State) (v : Word) (b : Nat), Alone s → s.ias.busy = false → s.inoperative = false → BusOk s 3 →
    (∀ k, k < 32 → s.window.pending k = false) → v = s.window.read (.eds 1) (s.drawAt 1).bits →
    b < 32 → v.getLsbD b = true → (∀ k, k < b → v.getLsbD k = false) →
    ∃ t, exec .ack s = .next t ∧ Completed s t (BitVec.ofNat 32 (32 + b) <<< 8) 0 ∧ t.inoperative = false ∧
      t.ias.busy = false ∧ (∀ k, k < 54 → t.window.pending k = (s.window.pending k && !decide (k = 32 + b))) ∧
      t.window = { s.window with eds := t.window.eds } ∧
      t.bus = .write s.issuer 0x44 (1 <<< b) true :: .read s.issuer 0x44 (some v) ::
        .read s.issuer 0x40 (some 0) :: s.bus

/-- R164: both registers read zero: two reads, nothing written, index 64. -/
def Obligations.AckNothingPending : Prop :=
  ∀ s : State, Alone s → s.ias.busy = false → s.inoperative = false → BusOk s 2 →
    (∀ k, k < 54 → s.window.pending k = false) → (s.drawAt 1).bits &&& 0xFFC00000 = 0 →
    ∃ t, exec .ack s = .next t ∧ Completed s t 0x00004000 0 ∧ t.inoperative = false ∧ t.ias.busy = false ∧
      t.window = s.window ∧ t.bus = .read s.issuer 0x44 (some 0) :: .read s.issuer 0x40 (some 0) :: s.bus

/-- R163, R173, R191: while some pin is pending, ACK reports the lowest one and clears that latch alone, whatever the
non-pin bits of EDS1 read. -/
def Obligations.AckReportsLowestPending : Prop :=
  ∀ (s : State) (p : Nat), Alone s → s.ias.busy = false → s.inoperative = false → BusOk s 3 → p < 54 →
    s.window.pending p = true → (∀ k, k < p → s.window.pending k = false) →
    ∃ t, exec .ack s = .next t ∧ Completed s t (BitVec.ofNat 32 p <<< 8) 0 ∧
      ∀ k, k < 54 → t.window.pending k = (s.window.pending k && !decide (k = p))

/-- R167: ACK completes with status OK in every case, whatever other agents do; inoperative at the start, it makes no
transaction and answers 64; after `ERR` it makes the block inoperative, skips the rest and answers 64, and after a
failed write the target latch is cleared or not, every other as it was. -/
def Obligations.AckNeverFails : Prop :=
  (∀ s : State, Inv s → Ready s →
    ∃ t r0, exec .ack s = .next t ∧ readResponse s.issuer t = some (r0, 0) ∧ respStatus r0 = 0) ∧
  (∀ s : State, Alone s → s.ias.busy = false → s.inoperative = true →
    ∃ t, exec .ack s = .next t ∧ Completed s t 0x00004000 0 ∧ t.bus = s.bus ∧ t.window = s.window) ∧
  ∀ (s : State) (k : Nat), Alone s → s.ias.busy = false → s.inoperative = false → BusFailsAt s k →
    ((k = 0) ∨ (k = 1) ∨ (k = 2 ∧ (∀ j, j < 32 → s.window.pending j = false) ∧
      s.window.read (.eds 1) (s.drawAt 1).bits ≠ 0)) →
    ∃ t x l, exec .ack s = .next t ∧ Completed s t 0x00004000 0 ∧ t.inoperative = true ∧ t.ias.busy = false ∧
      t.bus = x :: l ++ s.bus ∧ l.length = k ∧ failedTransaction x = true ∧
      t.window = { s.window with eds := t.window.eds } ∧
      (t.window = s.window ∨
        ∃ off b, x = .write s.issuer off (1 <<< b) false ∧ b < 32 ∧
          ∀ j, j < 54 → t.window.pending j =
            (s.window.pending j && !decide (j = (if off = 0x40 then 0 else 32) + b)))

/-- R168, R66: ACK acquires no lock and waits on none: it does the same whoever holds the locks. -/
def Obligations.AckIgnoresLocks : Prop :=
  ∀ (s t : State) (l : Locks), Alone s → s.ias.busy = false → exec .ack s = .next t →
    t.locks = s.locks ∧ exec .ack { s with locks := l } = .next { t with locks := l }

/-- R171, R165: the write of an ACK that has found the bit `b` clears that latch, though it may have been set again
since the read, and no other, whatever other agents have done since (no draw of the write returns `ERR`). -/
def Obligations.AckClearsOnlyItsBit : Prop :=
  ∀ (s : State) (q : Nat) (temp : Word) (ms : List Move), Inv s → s.flightOf q = some ⟨[.scanClear], temp⟩ →
    (∀ m ∈ ms, m ≠ .advance q) → ((runMoves ms s).drawAt 0).err = false →
    ∃ b, b < 32 ∧ s.ias.val.getLsbD b = true ∧ (∀ k, k < b → s.ias.val.getLsbD k = false) ∧
      (advance q (runMoves ms s)).flightOf q = some ⟨[.respondScan (s.ias.base + b)], temp⟩ ∧
      ∀ k, k < 54 → (advance q (runMoves ms s)).window.pending k =
        ((runMoves ms s).window.pending k && !decide (k = s.ias.base + b))

/-- R170: with no new events, no failure and non-pin bits that read 0, a run of ACKs returns the pending pins in
increasing order and then 64. -/
def Obligations.AckRunDrainsPending : Prop :=
  ∀ s : State, Alone s → s.ias.busy = false → s.inoperative = false →
    (∀ n, n < 3 * ((pendingPins s.window).length + 1) →
      (s.drawAt n).err = false ∧ (s.drawAt n).bits &&& 0xFFC00000 = 0) →
    ackRun ((pendingPins s.window).length + 1) s = pendingPins s.window ++ [64]

/-- R166, R193: a second ACK is held while the scanner is busy; the scanner serves one operation at a time; four steps
of its owner, at most three transactions, lift the hold. -/
def Obligations.ScannerHoldsSecondAck : Prop :=
  ∀ s : State, Inv s → s.ias.busy = true →
    (∀ q temp, s.flightOf q = some ⟨[.claimScanner], temp⟩ → q ≠ s.ias.owner ∧ advance q s = s) ∧
    (∀ q f, s.flightOf q = some f → inScan f.todo = true → q = s.ias.owner) ∧
    (runSteps (List.replicate 4 s.ias.owner) s).ias.busy = false ∧
    (runSteps (List.replicate 4 s.ias.owner) s).inFlight s.ias.owner = false ∧
    transactionCount s.ias.owner (runSteps (List.replicate 4 s.ias.owner) s).bus ≤
      transactionCount s.ias.owner s.bus + 3

/-! ### The register window -/

/-- R58: no read changes any register, nor anything but the record and the draws. -/
def Obligations.ReadsChangeNothing : Prop :=
  ∀ (q off : Nat) (s : State),
    (memRead q off s).2.window = s.window ∧ (memRead q off s).2.locks = s.locks ∧
    (memRead q off s).2.ias = s.ias ∧ (memRead q off s).2.ports = s.ports ∧
    (memRead q off s).2.inoperative = s.inoperative

/-- R52: FunctionSelect. A pin that changes into Output takes a draw, which may be either level. -/
def Obligations.FunctionSelectAccess : Prop :=
  ∀ (w : Window) (i : Fin 6) (v bits : Word) (p : Nat), p < 54 →
    (p / 10 = i → getField (w.read (.fsel i) bits) (3 * (p % 10)) 3 = w.func p) ∧
    (∀ b, b < 32 → (30 ≤ b ∨ (i = 5 ∧ 12 ≤ b)) → (w.read (.fsel i) bits).getLsbD b = bits.getLsbD b) ∧
    (w.write (.fsel i) v bits).func p = (if p / 10 = i then getField v (3 * (p % 10)) 3 else w.func p) ∧
    (¬((w.write (.fsel i) v bits).func p = 1 ∧ w.func p ≠ 1) → (w.write (.fsel i) v bits).latch p = w.latch p) ∧
    ((w.write (.fsel i) v bits).func p = 1 ∧ w.func p ≠ 1 →
      ∀ level : Bool, ∃ drawn, (w.write (.fsel i) v drawn).latch p = level) ∧
    (w.write (.fsel i) v bits).pending p = w.pending p ∧ (w.write (.fsel i) v bits).rising p = w.rising p ∧
    (w.write (.fsel i) v bits).falling p = w.falling p ∧ (w.write (.fsel i) v bits).external p = w.external p

/-- R53, R54: SetLevel and ClearLevel act on the Output pins whose bit is 1; every other bit is ignored; a read of them
is a draw. -/
def Obligations.LevelActionWrites : Prop :=
  ∀ (w : Window) (i : Fin 2) (v bits : Word) (p : Nat), p < 54 →
    (w.write (.set i) v bits).latch p =
      (if p / 32 = i ∧ v.getLsbD (p % 32) = true ∧ w.func p = 1 then true else w.latch p) ∧
    (w.write (.clr i) v bits).latch p =
      (if p / 32 = i ∧ v.getLsbD (p % 32) = true ∧ w.func p = 1 then false else w.latch p) ∧
    (∀ w' ∈ [w.write (.set i) v bits, w.write (.clr i) v bits],
      w'.func p = w.func p ∧ w'.pending p = w.pending p ∧ w'.rising p = w.rising p ∧ w'.falling p = w.falling p ∧
      w'.external p = w.external p) ∧
    w.read (.set i) bits = bits ∧ w.read (.clr i) bits = bits

/-- R55: ReadLevel; a write to it is refused. -/
def Obligations.ReadLevelAccess : Prop :=
  ∀ (w : Window) (i : Fin 2) (bits : Word),
    (∀ b, b < 32 → (w.read (.lev i) bits).getLsbD b =
      if 54 ≤ 32 * i.val + b then bits.getLsbD b
      else if w.func (32 * i + b) = 1 then w.latch (32 * i + b)
      else if w.func (32 * i + b) = 0 then w.external (32 * i + b)
      else bits.getLsbD b) ∧
    checkAccess (Reg.lev i).offset 4 true = .error .readLevelWrite

/-- R56: EventStatus. -/
def Obligations.EventStatusAccess : Prop :=
  ∀ (w : Window) (i : Fin 2) (v bits : Word),
    (∀ b, b < 32 → (w.read (.eds i) bits).getLsbD b =
      if 32 * i.val + b < 54 then w.pending (32 * i + b) else bits.getLsbD b) ∧
    (∀ p, p < 54 → (w.write (.eds i) v bits).pending p =
      (w.pending p && !(decide (p / 32 = i) && v.getLsbD (p % 32)))) ∧
    w.write (.eds i) v bits = { w with eds := (w.write (.eds i) v bits).eds }

/-- R57: RisingEdgeEnable and FallingEdgeEnable. -/
def Obligations.EdgeEnableAccess : Prop :=
  ∀ (w : Window) (i : Fin 2) (v bits : Word),
    (∀ b, b < 32 → (w.read (.ren i) bits).getLsbD b =
      (if 32 * i.val + b < 54 then w.rising (32 * i + b) else bits.getLsbD b) ∧
      (w.read (.fen i) bits).getLsbD b =
      if 32 * i.val + b < 54 then w.falling (32 * i + b) else bits.getLsbD b) ∧
    (∀ p, p < 54 → (w.write (.ren i) v bits).rising p =
        (if p / 32 = i then v.getLsbD (p % 32) else w.rising p) ∧
      (w.write (.fen i) v bits).falling p = if p / 32 = i then v.getLsbD (p % 32) else w.falling p) ∧
    w.write (.ren i) v bits = { w with ren := (w.write (.ren i) v bits).ren } ∧
    w.write (.fen i) v bits = { w with fen := (w.write (.fen i) v bits).fen }

/-- R59, R189: the window hardware. A level change latches an enabled edge of an Input pin in the same step; any latch
may be set; no step clears a latch or changes a function, an enable or an output latch, or anything of the block. -/
def Obligations.HardwareSteps : Prop :=
  ∀ (s : State) (p : Nat) (v : Bool), p < 54 →
    (∀ k, k < 54 → (makeMove (.level p v) s).window.external k = if k = p then v else s.window.external k) ∧
    (∀ k, k < 54 → (makeMove (.level p v) s).window.pending k =
      (s.window.pending k || (decide (k = p) && (decide (s.window.external p ≠ v) &&
        (decide (s.window.func p = 0) && if v then s.window.rising p else s.window.falling p))))) ∧
    (∀ k, k < 54 → (makeMove (.event p) s).window.pending k = (s.window.pending k || decide (k = p))) ∧
    (makeMove (.event p) s).window.extLevel = s.window.extLevel ∧
    (makeMove .redraw s).window = s.window ∧
    ∀ m, hardwareMove m = true →
      (makeMove m s).window.fsel = s.window.fsel ∧ (makeMove m s).window.ren = s.window.ren ∧
      (makeMove m s).window.fen = s.window.fen ∧ (makeMove m s).window.outLatch = s.window.outLatch ∧
      (makeMove m s).ports = s.ports ∧ (makeMove m s).locks = s.locks ∧ (makeMove m s).ias = s.ias ∧
      (makeMove m s).inoperative = s.inoperative ∧ (makeMove m s).bus = s.bus

/-- R67: two one-bit writes to SetLevel, ClearLevel or EventStatus registers for different pins commute, so neither
loses the other's effect. -/
def Obligations.OneBitWritesCommute : Prop :=
  ∀ (w : Window) (f f' : Family) (p p' : Nat) (l l' : Location) (r r' : Reg) (bits bits' : Word),
    f ∈ [Family.setLevel, .clearLevel, .eventStatus] → f' ∈ [Family.setLevel, .clearLevel, .eventStatus] →
    p < 54 → p' < 54 → p ≠ p' → addr p f = .ok l → addr p' f' = .ok l' →
    Reg.ofOffset l.byteOffset = some r → Reg.ofOffset l'.byteOffset = some r' →
    (w.write r (oneBit l.bitOffset) bits).write r' (oneBit l'.bitOffset) bits' =
      (w.write r' (oneBit l'.bitOffset) bits').write r (oneBit l.bitOffset) bits

/-- R69, R76, R55, R7, U5, U11, U17: the accesses a model refuses; every access that `Addr` gives is allowed, but for a
write of ReadLevel. -/
def Obligations.AccessRefusals : Prop :=
  (∀ off width isWrite, (width ≠ 4 ∨ off % 4 ≠ 0) → checkAccess off width isWrite = .error .subWordAccess) ∧
  (∀ off isWrite, off ∈ [0x18, 0x24, 0x30, 0x3C, 0x48, 0x54] → checkAccess off 4 isWrite = .error .unlistedOffset) ∧
  (∀ off isWrite, off % 4 = 0 → 0x60 ≤ off →
    checkAccess off 4 isWrite = .error (if off < Config.windowBytes then .unlistedOffset else .outsideWindow)) ∧
  (∀ off ∈ [0x34, 0x38], checkAccess off 4 true = .error .readLevelWrite) ∧
  ∀ (p : Nat) (f : Family) (l : Location) (isWrite : Bool), p < 54 → addr p f = .ok l →
    (f = .readLevel → isWrite = false) →
    ∃ r, Reg.ofOffset l.byteOffset = some r ∧ checkAccess l.byteOffset 4 isWrite = .ok r

/-! ### The whole machine -/

/-- Every step keeps the invariant, from every state that meets it. -/
def Obligations.InvKeptByStep : Prop :=
  ∀ s t : State, Inv s → step s = .next t → Inv t

/-- R205, R220: on a fair schedule every operation, and a request with a reserved `OP`, completes, whatever the other
agents do between its steps and whatever is drawn: exec answers a next state in which the operation is complete and its
response can be read. The fair schedule that R205 and R220 assume is built into the model (DESIGN CHOICE, log 7): the
agenda of other agents' moves is any list, but finite, and after it the running operation, or the one it waits for,
steps. -/
def Obligations.EveryOperationCompletes : Prop :=
  ∀ s : State, Inv s → Ready s →
    (∀ i : Instr, ∃ t r0 r1, exec i s = .next t ∧ t.inFlight s.issuer = false ∧
      readResponse s.issuer t = some (r0, r1)) ∧
    ∃ t, rejectRequest s = .next t ∧ readResponse s.issuer t = some (4, 0)

/-- R205, R221: an operation makes at most eight transactions, whatever the other agents do. -/
def Obligations.AtMostEightTransactions : Prop :=
  ∀ (i : Instr) (s t : State), Inv s → Ready s → exec i s = .next t →
    transactionCount s.issuer t.bus ≤ transactionCount s.issuer s.bus + 8

/-- R64: a lock held by another operation holds the step; a free one is taken, with nothing else changed but the
operation's own position. -/
def Obligations.LockAcquire : Prop :=
  ∀ (s : State) (q : Nat) (g : LockFamily) (rest : List Action) (temp : Word),
    s.flightOf q = some ⟨.acquire g :: rest, temp⟩ →
    (∀ r, s.locks.holder g = some r → r ≠ q → advance q s = s) ∧
    (s.locks.holder g = none → ∀ h, (advance q s).locks.holder h = (if h = g then some q else s.locks.holder h) ∧
      (advance q s).flightOf q = some ⟨rest, temp⟩ ∧ (advance q s).window = s.window ∧ (advance q s).bus = s.bus)

/-- R65, R23: no operation holds more than one lock, only operations in flight hold one, and an operation that another
waits for is in flight and can step: no deadlock. -/
def Obligations.NoDeadlock : Prop :=
  ∀ s : State, Inv s →
    (∀ q g g', s.locks.holder g = some q → s.locks.holder g' = some q → g = g') ∧
    (∀ q g, s.locks.holder g = some q → s.inFlight q = true) ∧
    ∀ q r, blocker q s = some r → r ≠ q ∧ s.inFlight r = true ∧ blocker r s = none ∧ advance r s ≠ s

/-- R131, R146: between the read and the write of an RMW no other agent changes a register of its family, so the write
changes the pin's own field and no other. -/
def Obligations.RmwNeverLosesUpdate : Prop :=
  ∀ (s : State) (q p : Nat) (g : LockFamily) (v temp : Word) (rest : List Action) (ms : List Move),
    Inv s → s.flightOf q = some ⟨.writeField g p v :: rest, temp⟩ → p < 54 → (∀ m ∈ ms, m ≠ .advance q) →
    (∀ k, k < 54 → lockField (runMoves ms s).window g k = lockField s.window g k) ∧
    (((runMoves ms s).drawAt 0).err = false →
      ∀ k, k < 54 → k ≠ p → lockField (advance q (runMoves ms s)).window g k = lockField s.window g k)

/-- R146: concurrent CFG_OUT of one pin and CFG_IN of another both take effect, in every interleaving of their steps
with each other and with the window hardware (no transaction returns `ERR`): the one pin is an Output driven to the
level, the other an Input. -/
def Obligations.ConcurrentConfigKeepsBoth : Prop :=
  ∀ (s : State) (q r p p' level : Nat) (ms : List Move),
    Inv s → s.anyInFlight = false → s.destroyed = false → s.inoperative = false → BusOk s ms.length →
    q ≠ r → q < s.ports.length → r < s.ports.length → p ≠ p' → p < 54 → p' < 54 → level ≤ 1 →
    (∀ m ∈ ms, m = .advance q ∨ m = .advance r ∨ hardwareMove m = true) →
    let t := runMoves ms (begin r (cfgInSteps p') (begin q (cfgOutSteps p level) s))
    t.inFlight q = false → t.inFlight r = false →
    readResponse q t = some (0, 0) ∧ readResponse r t = some (0, 0) ∧ t.window.func p = 1 ∧
      t.window.latch p = decide (level = 1) ∧ t.window.func p' = 0

/-- R145: EDGE_EN rising and EDGE_EN falling of one pin on two ports may interleave so that both complete with OK and
both edges are enabled. -/
def Obligations.EdgeEnBothEdgesRace : Prop :=
  ∀ (s : State) (q r p : Nat), s.inoperative = false → s.locks = Locks.free → BusOk s 16 → q ≠ r →
    q < s.ports.length → r < s.ports.length → s.inFlight q = false → s.inFlight r = false → p < 54 →
    ∃ qs, let t := runSteps qs (begin r (edgeEnSteps p 1) (begin q (edgeEnSteps p 0) s))
      readResponse q t = some (0, 0) ∧ readResponse r t = some (0, 0) ∧
      t.window.rising p = true ∧ t.window.falling p = true ∧ t.window.func p = 0

/-! ### Ports and destruction -/

/-- R21, R38: a response can be read once the operation is complete; a read while the latches hold no value faults. That
the read of a port `q >= NUM_REQUESTERS`, which R21 does not have, is refused is the model's choice (DESIGN CHOICE,
log 14). -/
def Obligations.ResponseReads : Prop :=
  ∀ (s : State) (q : Nat) (rest : List Demand), s.demands = .readResponse q :: rest →
    (s.inFlight q = true → step s = .fault (.responseNotHeld q)) ∧
    (q < s.ports.length → readResponse q s = none → step s = .fault (.responseNotHeld q)) ∧
    (s.ports.length ≤ q → step s = .refused .noSuchPort) ∧
    ((readResponse q s).isSome = true → step s = .next { s with demands := rest })

/-- R204: the release of the range destroys the controller, with no operation in flight; after it every operation and
every request is refused. That a release with an operation in flight is refused (`releasedInFlight`) is the model's
choice (DESIGN CHOICE, log 15): R204 makes it a duty of the requesters that there is none. That the release is a demand
which `step` meets is the same log's choice. -/
def Obligations.DestructionRefuses : Prop :=
  (∀ s : State, s.destroyed = true →
    (∀ i, exec i s = .refused .destroyed) ∧
    ∀ q w rest, s.demands = .request q w :: rest → step s = .refused .destroyed) ∧
  ∀ (s : State) (rest : List Demand), s.demands = .release :: rest → s.destroyed = false →
    (s.anyInFlight = false → step s = .next { s with destroyed := true, demands := rest }) ∧
    (s.anyInFlight = true → step s = .refused .releasedInFlight)

/-! ### Around the block -/

/-- R100, R101: each word of the command vocabulary expands to one request; any other is UnknownCommand. -/
def Obligations.PseudoInstructions : Prop :=
  (∀ pin : Int, -32768 ≤ pin → pin ≤ 32767 →
    expandCommand pin "high" = .ok (encode (.cfgOut pin 1)) ∧ expandCommand pin "low" = .ok (encode (.cfgOut pin 0)) ∧
    expandCommand pin "in" = .ok (encode (.cfgIn pin)) ∧ expandCommand pin "rising" = .ok (encode (.edgeEn pin 0)) ∧
    expandCommand pin "falling" = .ok (encode (.edgeEn pin 1)) ∧
    expandCommand pin "none" = .ok (encode (.edgeDis pin))) ∧
  ∀ (pin : Int) (word : String), word ∉ ["high", "low", "in", "rising", "falling", "none"] →
    expandCommand pin word = .error .unknownCommand

/-- R102, R144: the query text and the enumerator row of a QUERY result. -/
def Obligations.QueryTexts : Prop :=
  ∀ (fn : Word) (level : Bool), fn.toNat < 8 →
    let l : Word := if level then 1 else 0
    queryText (queryIoResponse 0 l) = "input: " ++ toString l.toNat ∧
    queryText (queryIoResponse 1 l) = "output: " ++ toString l.toNat ∧
    queryText (queryAltResponse fn) = "not input/output pin" ∧
    ∀ p, enumeratorRow p (queryIoResponse 0 l) = some (toString p ++ ". input  " ++ toString l.toNat) ∧
      enumeratorRow p (queryIoResponse 1 l) = some (toString p ++ ". output  " ++ toString l.toNat) ∧
      enumeratorRow p (queryAltResponse fn) = none

end Statements
end

