-- ==== Sys2Proof/Laws/State.lean ====
section
/-! SUPPORT. What each update of the state leaves and sets, field by field, and what the operation in flight on a port
is after it. No later proof unfolds a record update. -/

namespace Sys2Proof.Machine

variable (s : State)

/-! ### Fields -/

@[simp] theorem State.setWindow_fields (w : Window) :
    (s.setWindow w).window = w ∧ (s.setWindow w).inoperative = s.inoperative ∧ (s.setWindow w).locks = s.locks ∧
    (s.setWindow w).ias = s.ias ∧ (s.setWindow w).ports = s.ports ∧ (s.setWindow w).destroyed = s.destroyed ∧
    (s.setWindow w).issuer = s.issuer ∧ (s.setWindow w).demands = s.demands ∧ (s.setWindow w).agenda = s.agenda ∧
    (s.setWindow w).draws = s.draws ∧ (s.setWindow w).drawCount = s.drawCount ∧ (s.setWindow w).bus = s.bus :=
  ⟨rfl, rfl, rfl, rfl, rfl, rfl, rfl, rfl, rfl, rfl, rfl, rfl⟩

@[simp] theorem State.record_fields (t : Transaction) :
    (s.record t).window = s.window ∧ (s.record t).inoperative = s.inoperative ∧ (s.record t).locks = s.locks ∧
    (s.record t).ias = s.ias ∧ (s.record t).ports = s.ports ∧ (s.record t).destroyed = s.destroyed ∧
    (s.record t).issuer = s.issuer ∧ (s.record t).demands = s.demands ∧ (s.record t).agenda = s.agenda ∧
    (s.record t).draws = s.draws ∧ (s.record t).drawCount = s.drawCount ∧ (s.record t).bus = t :: s.bus :=
  ⟨rfl, rfl, rfl, rfl, rfl, rfl, rfl, rfl, rfl, rfl, rfl, rfl⟩

@[simp] theorem State.dropDraw_fields :
    s.dropDraw.window = s.window ∧ s.dropDraw.inoperative = s.inoperative ∧ s.dropDraw.locks = s.locks ∧
    s.dropDraw.ias = s.ias ∧ s.dropDraw.ports = s.ports ∧ s.dropDraw.destroyed = s.destroyed ∧
    s.dropDraw.issuer = s.issuer ∧ s.dropDraw.demands = s.demands ∧ s.dropDraw.agenda = s.agenda ∧
    s.dropDraw.draws = s.draws.tail ∧ s.dropDraw.drawCount = s.drawCount + 1 ∧ s.dropDraw.bus = s.bus :=
  ⟨rfl, rfl, rfl, rfl, rfl, rfl, rfl, rfl, rfl, rfl, rfl, rfl⟩

@[simp] theorem State.modifyPort_fields (q : Nat) (f : Port → Port) :
    (s.modifyPort q f).window = s.window ∧ (s.modifyPort q f).inoperative = s.inoperative ∧
    (s.modifyPort q f).locks = s.locks ∧ (s.modifyPort q f).ias = s.ias ∧
    (s.modifyPort q f).ports = s.ports.modify q f ∧ (s.modifyPort q f).destroyed = s.destroyed ∧
    (s.modifyPort q f).issuer = s.issuer ∧ (s.modifyPort q f).demands = s.demands ∧
    (s.modifyPort q f).agenda = s.agenda ∧ (s.modifyPort q f).draws = s.draws ∧
    (s.modifyPort q f).drawCount = s.drawCount ∧ (s.modifyPort q f).bus = s.bus :=
  ⟨rfl, rfl, rfl, rfl, rfl, rfl, rfl, rfl, rfl, rfl, rfl, rfl⟩

@[simp] theorem State.setTodo_fields (q : Nat) (todo : List Action) :
    (s.setTodo q todo).window = s.window ∧ (s.setTodo q todo).inoperative = s.inoperative ∧
    (s.setTodo q todo).locks = s.locks ∧ (s.setTodo q todo).ias = s.ias ∧
    (s.setTodo q todo).destroyed = s.destroyed ∧ (s.setTodo q todo).issuer = s.issuer ∧
    (s.setTodo q todo).demands = s.demands ∧ (s.setTodo q todo).agenda = s.agenda ∧
    (s.setTodo q todo).draws = s.draws ∧ (s.setTodo q todo).drawCount = s.drawCount ∧
    (s.setTodo q todo).bus = s.bus :=
  ⟨rfl, rfl, rfl, rfl, rfl, rfl, rfl, rfl, rfl, rfl, rfl⟩

@[simp] theorem State.setTemp_fields (q : Nat) (v : Word) :
    (s.setTemp q v).window = s.window ∧ (s.setTemp q v).inoperative = s.inoperative ∧
    (s.setTemp q v).locks = s.locks ∧ (s.setTemp q v).ias = s.ias ∧ (s.setTemp q v).destroyed = s.destroyed ∧
    (s.setTemp q v).issuer = s.issuer ∧ (s.setTemp q v).demands = s.demands ∧ (s.setTemp q v).agenda = s.agenda ∧
    (s.setTemp q v).draws = s.draws ∧ (s.setTemp q v).drawCount = s.drawCount ∧ (s.setTemp q v).bus = s.bus :=
  ⟨rfl, rfl, rfl, rfl, rfl, rfl, rfl, rfl, rfl, rfl, rfl⟩

@[simp] theorem State.finish_fields (q : Nat) (r0 r1 : Word) :
    (s.finish q r0 r1).window = s.window ∧ (s.finish q r0 r1).inoperative = s.inoperative ∧
    (s.finish q r0 r1).locks = s.locks ∧ (s.finish q r0 r1).ias = s.ias ∧
    (s.finish q r0 r1).destroyed = s.destroyed ∧ (s.finish q r0 r1).issuer = s.issuer ∧
    (s.finish q r0 r1).demands = s.demands ∧ (s.finish q r0 r1).agenda = s.agenda ∧
    (s.finish q r0 r1).draws = s.draws ∧ (s.finish q r0 r1).drawCount = s.drawCount ∧
    (s.finish q r0 r1).bus = s.bus :=
  ⟨rfl, rfl, rfl, rfl, rfl, rfl, rfl, rfl, rfl, rfl, rfl⟩

@[simp] theorem begin_fields (q : Nat) (todo : List Action) :
    (begin q todo s).window = s.window ∧ (begin q todo s).inoperative = s.inoperative ∧
    (begin q todo s).locks = s.locks ∧ (begin q todo s).ias = s.ias ∧ (begin q todo s).destroyed = s.destroyed ∧
    (begin q todo s).issuer = s.issuer ∧ (begin q todo s).demands = s.demands ∧
    (begin q todo s).agenda = s.agenda ∧ (begin q todo s).draws = s.draws ∧
    (begin q todo s).drawCount = s.drawCount ∧ (begin q todo s).bus = s.bus :=
  ⟨rfl, rfl, rfl, rfl, rfl, rfl, rfl, rfl, rfl, rfl, rfl⟩

@[simp] theorem State.setLock_fields (f : LockFamily) (h : Option Nat) :
    (s.setLock f h).window = s.window ∧ (s.setLock f h).inoperative = s.inoperative ∧
    (s.setLock f h).locks = s.locks.assign f h ∧ (s.setLock f h).ias = s.ias ∧ (s.setLock f h).ports = s.ports ∧
    (s.setLock f h).destroyed = s.destroyed ∧ (s.setLock f h).issuer = s.issuer ∧
    (s.setLock f h).demands = s.demands ∧ (s.setLock f h).agenda = s.agenda ∧ (s.setLock f h).draws = s.draws ∧
    (s.setLock f h).drawCount = s.drawCount ∧ (s.setLock f h).bus = s.bus :=
  ⟨rfl, rfl, rfl, rfl, rfl, rfl, rfl, rfl, rfl, rfl, rfl, rfl⟩

@[simp] theorem State.dropLocks_fields (q : Nat) :
    (s.dropLocks q).window = s.window ∧ (s.dropLocks q).inoperative = s.inoperative ∧
    (s.dropLocks q).locks = s.locks.dropAll q ∧ (s.dropLocks q).ias = s.ias ∧ (s.dropLocks q).ports = s.ports ∧
    (s.dropLocks q).destroyed = s.destroyed ∧ (s.dropLocks q).issuer = s.issuer ∧
    (s.dropLocks q).demands = s.demands ∧ (s.dropLocks q).agenda = s.agenda ∧ (s.dropLocks q).draws = s.draws ∧
    (s.dropLocks q).drawCount = s.drawCount ∧ (s.dropLocks q).bus = s.bus :=
  ⟨rfl, rfl, rfl, rfl, rfl, rfl, rfl, rfl, rfl, rfl, rfl, rfl⟩

@[simp] theorem State.setIas_fields (i : Scanner) :
    (s.setIas i).window = s.window ∧ (s.setIas i).inoperative = s.inoperative ∧ (s.setIas i).locks = s.locks ∧
    (s.setIas i).ias = i ∧ (s.setIas i).ports = s.ports ∧ (s.setIas i).destroyed = s.destroyed ∧
    (s.setIas i).issuer = s.issuer ∧ (s.setIas i).demands = s.demands ∧ (s.setIas i).agenda = s.agenda ∧
    (s.setIas i).draws = s.draws ∧ (s.setIas i).drawCount = s.drawCount ∧ (s.setIas i).bus = s.bus :=
  ⟨rfl, rfl, rfl, rfl, rfl, rfl, rfl, rfl, rfl, rfl, rfl, rfl⟩

@[simp] theorem State.fail_fields :
    s.fail.window = s.window ∧ s.fail.inoperative = true ∧ s.fail.locks = s.locks ∧ s.fail.ias = s.ias ∧
    s.fail.ports = s.ports ∧ s.fail.destroyed = s.destroyed ∧ s.fail.issuer = s.issuer ∧
    s.fail.demands = s.demands ∧ s.fail.agenda = s.agenda ∧ s.fail.draws = s.draws ∧
    s.fail.drawCount = s.drawCount ∧ s.fail.bus = s.bus :=
  ⟨rfl, rfl, rfl, rfl, rfl, rfl, rfl, rfl, rfl, rfl, rfl, rfl⟩

/-! ### The draws -/

@[simp] theorem State.drawAt_dropDraw (k : Nat) : s.dropDraw.drawAt k = s.drawAt (k + 1) := by
  simp [State.drawAt, Nat.add_assoc, Nat.add_comm 1 k]

theorem State.drawAt_congr {s t : State} (hd : t.draws = s.draws) (hc : t.drawCount = s.drawCount) (k : Nat) :
    t.drawAt k = s.drawAt k := by
  simp [State.drawAt, hd, hc]

@[simp] theorem State.drawAt_setTodo (q : Nat) (todo : List Action) (k : Nat) :
    (s.setTodo q todo).drawAt k = s.drawAt k := rfl
@[simp] theorem State.drawAt_setTemp (q : Nat) (v : Word) (k : Nat) : (s.setTemp q v).drawAt k = s.drawAt k := rfl
@[simp] theorem State.drawAt_setLock (f : LockFamily) (h : Option Nat) (k : Nat) :
    (s.setLock f h).drawAt k = s.drawAt k := rfl
@[simp] theorem State.drawAt_dropLocks (q k : Nat) : (s.dropLocks q).drawAt k = s.drawAt k := rfl
@[simp] theorem State.drawAt_setIas (i : Scanner) (k : Nat) : (s.setIas i).drawAt k = s.drawAt k := rfl
@[simp] theorem State.drawAt_setWindow (w : Window) (k : Nat) : (s.setWindow w).drawAt k = s.drawAt k := rfl
@[simp] theorem State.drawAt_record (t : Transaction) (k : Nat) : (s.record t).drawAt k = s.drawAt k := rfl
@[simp] theorem State.drawAt_fail (k : Nat) : s.fail.drawAt k = s.drawAt k := rfl
@[simp] theorem State.drawAt_begin (q : Nat) (todo : List Action) (k : Nat) :
    (begin q todo s).drawAt k = s.drawAt k := rfl

/-! ### Locks -/

@[simp] theorem Locks.holder_assign (l : Locks) (f g : LockFamily) (h : Option Nat) :
    (l.assign f h).holder g = if f = g then h else l.holder g := by
  cases f <;> cases g <;> simp [Locks.assign, Locks.holder]

theorem Locks.holder_dropAll (l : Locks) (q : Nat) (g : LockFamily) :
    (l.dropAll q).holder g = dropIf q (l.holder g) := by
  cases g <;> rfl

@[simp] theorem Locks.holder_dropAll_eq_some (l : Locks) (q r : Nat) (g : LockFamily) :
    (l.dropAll q).holder g = some r ↔ l.holder g = some r ∧ r ≠ q := by
  rw [Locks.holder_dropAll, dropIf]
  split
  · next h => simp only [h]; constructor
              · intro h; cases h
              · rintro ⟨h, hne⟩; exact absurd (Option.some.inj h).symm hne
  · next h => exact ⟨fun hr => ⟨hr, fun e => h (e ▸ hr)⟩, fun hr => hr.1⟩

@[simp] theorem Locks.holder_free (g : LockFamily) : Locks.free.holder g = none := by cases g <;> rfl

@[simp] theorem Locks.dropAll_free (q : Nat) : Locks.free.dropAll q = Locks.free := rfl

/-- A lock taken and released again leaves the locks as they were. -/
@[simp] theorem Locks.assign_assign (l : Locks) (f : LockFamily) (h h' : Option Nat) :
    (l.assign f h).assign f h' = l.assign f h' := by
  cases f <;> rfl

@[simp] theorem Locks.assign_free (f : LockFamily) : Locks.free.assign f none = Locks.free := by cases f <;> rfl

@[simp] theorem Locks.dropAll_assign_free (f : LockFamily) (q : Nat) :
    (Locks.free.assign f (some q)).dropAll q = Locks.free := by
  cases f <;> simp [Locks.assign, Locks.dropAll, Locks.free, dropIf]

/-! ### The operation in flight on a port -/

theorem State.flightOf_congr {s t : State} (h : t.ports = s.ports) (r : Nat) : t.flightOf r = s.flightOf r := by
  simp [State.flightOf, h]

theorem State.inFlight_iff (q : Nat) : s.inFlight q = true ↔ ∃ f, s.flightOf q = some f := by
  simp [State.inFlight, Option.isSome_iff_exists]

theorem State.inFlight_false (q : Nat) : s.inFlight q = false ↔ s.flightOf q = none := by
  simp [State.inFlight]

theorem State.inFlight_lt {q : Nat} (h : s.inFlight q = true) : q < s.ports.length := by
  rw [State.inFlight, State.flightOf] at h
  by_contra hge
  rw [List.getElem?_eq_none (by omega)] at h
  cases h

@[simp] theorem State.flightOf_setWindow (w : Window) (r : Nat) : (s.setWindow w).flightOf r = s.flightOf r := rfl
@[simp] theorem State.flightOf_record (t : Transaction) (r : Nat) : (s.record t).flightOf r = s.flightOf r := rfl
@[simp] theorem State.flightOf_dropDraw (r : Nat) : s.dropDraw.flightOf r = s.flightOf r := rfl
@[simp] theorem State.flightOf_setLock (f : LockFamily) (h : Option Nat) (r : Nat) :
    (s.setLock f h).flightOf r = s.flightOf r := rfl
@[simp] theorem State.flightOf_dropLocks (q r : Nat) : (s.dropLocks q).flightOf r = s.flightOf r := rfl
@[simp] theorem State.flightOf_setIas (i : Scanner) (r : Nat) : (s.setIas i).flightOf r = s.flightOf r := rfl
@[simp] theorem State.flightOf_fail (r : Nat) : s.fail.flightOf r = s.flightOf r := rfl

theorem State.flightOf_modifyPort (q : Nat) (f : Port → Port) (r : Nat) :
    (s.modifyPort q f).flightOf r = if q = r then s.ports[q]?.bind fun p => (f p).flight else s.flightOf r := by
  simp only [State.flightOf, State.modifyPort, List.getElem?_modify]
  split
  · next h => subst h; cases s.ports[q]? <;> rfl
  · simp

@[simp] theorem State.flightOf_setTodo (q : Nat) (todo : List Action) (r : Nat) :
    (s.setTodo q todo).flightOf r = if q = r then (s.flightOf q).map fun f => { f with todo := todo }
      else s.flightOf r := by
  rw [State.setTodo, State.flightOf_modifyPort]
  split
  · simp only [State.flightOf]; cases s.ports[q]? <;> rfl
  · rfl

@[simp] theorem State.flightOf_setTemp (q : Nat) (v : Word) (r : Nat) :
    (s.setTemp q v).flightOf r = if q = r then (s.flightOf q).map fun f => { f with temp := v }
      else s.flightOf r := by
  rw [State.setTemp, State.flightOf_modifyPort]
  split
  · simp only [State.flightOf]; cases s.ports[q]? <;> rfl
  · rfl

@[simp] theorem State.flightOf_finish (q : Nat) (r0 r1 : Word) (r : Nat) :
    (s.finish q r0 r1).flightOf r = if q = r then none else s.flightOf r := by
  rw [State.finish, State.flightOf_modifyPort]
  split
  · cases s.ports[q]? <;> rfl
  · rfl

theorem flightOf_begin (q : Nat) (todo : List Action) (r : Nat) :
    (begin q todo s).flightOf r = if q = r then (if q < s.ports.length then some ⟨todo, 0⟩ else none)
      else s.flightOf r := by
  rw [begin, State.flightOf_modifyPort]
  split
  · split
    · next h => rw [List.getElem?_eq_getElem h]; rfl
    · next h => rw [List.getElem?_eq_none (by omega)]; rfl
  · rfl

/-! ### The ports -/

@[simp] theorem State.ports_length_modifyPort (q : Nat) (f : Port → Port) :
    (s.modifyPort q f).ports.length = s.ports.length := by
  simp

@[simp] theorem State.ports_length_setTodo (q : Nat) (todo : List Action) :
    (s.setTodo q todo).ports.length = s.ports.length := by
  simp [State.setTodo]

@[simp] theorem State.ports_length_setTemp (q : Nat) (v : Word) :
    (s.setTemp q v).ports.length = s.ports.length := by
  simp [State.setTemp]

@[simp] theorem State.ports_length_finish (q : Nat) (r0 r1 : Word) :
    (s.finish q r0 r1).ports.length = s.ports.length := by
  simp [State.finish]

@[simp] theorem ports_length_begin (q : Nat) (todo : List Action) :
    (begin q todo s).ports.length = s.ports.length := by
  simp [begin]

theorem State.ports_modifyPort_ne (q : Nat) (f : Port → Port) {r : Nat} (h : r ≠ q) :
    (s.modifyPort q f).ports[r]? = s.ports[r]? := by
  simp [State.modifyPort, Ne.symm h]

end Sys2Proof.Machine
end

