-- ==== Sys2Proof/Laws/Operands.lean ====
section
/-! SUPPORT. The Pin-Addressing Calculator and the field primitives, bit by bit: what `addr` answers (R112), which
register it reaches (R26, R114), and which bits `getField` and `setField` concern (R118). -/

namespace Sys2Proof.Machine

/-! ### Pins and addresses -/

theorem validPin_iff (pin : Int) : validPin pin = true ↔ 0 ≤ pin ∧ pin < 54 := by
  rw [validPin, Bool.and_eq_true, decide_eq_true_iff, decide_eq_true_iff]
  exact Iff.rfl

theorem validPin_false_iff (pin : Int) : validPin pin = false ↔ ¬(0 ≤ pin ∧ pin < 54) := by
  rw [← validPin_iff, Bool.not_eq_true]

@[simp] theorem validPin_natCast {p : Nat} (hp : p < 54) : validPin (p : Int) = true := by
  rw [validPin_iff]; omega

/-- The location of a valid pin (R112). -/
def location (p : Nat) (f : Family) : Location :=
  { regIndex := p / pinsPerRegister f
    byteOffset := familyBase f + p / pinsPerRegister f * 4
    bitOffset := p % pinsPerRegister f * fieldWidth f
    width := fieldWidth f }

@[simp] theorem addr_valid {p : Nat} (hp : p < 54) (f : Family) : addr (p : Int) f = .ok (location p f) := by
  simp [addr, hp, location]

/-- The location of a pin in FunctionSelect, in numbers. -/
theorem location_functionSelect (p : Nat) : (location p .functionSelect).byteOffset = 4 * (p / 10) ∧
    (location p .functionSelect).bitOffset = 3 * (p % 10) ∧ (location p .functionSelect).width = 3 := by
  simp [location, familyBase, pinsPerRegister, fieldWidth, Nat.mul_comm]

/-- The location of a pin in a family with one bit a pin, in numbers. -/
theorem location_bit (p : Nat) {f : Family} (hf : f ≠ .functionSelect) :
    (location p f).byteOffset = familyBase f + 4 * (p / 32) ∧ (location p f).bitOffset = p % 32 ∧
    (location p f).width = 1 := by
  cases f <;> first | exact absurd rfl hf | simp [location, pinsPerRegister, fieldWidth, Nat.mul_comm]

theorem addr_eq_ok {pin : Int} {f : Family} {l : Location} (h : addr pin f = .ok l) :
    ∃ p : Nat, p < 54 ∧ pin = p ∧ l = location p f := by
  by_cases hv : validPin pin = true
  · obtain ⟨h0, h54⟩ := (validPin_iff pin).1 hv
    obtain ⟨p, rfl⟩ := Int.eq_ofNat_of_zero_le h0
    rw [addr_valid (by omega)] at h
    exact ⟨p, by omega, rfl, (Except.ok.inj h).symm⟩
  · simp [addr, hv] at h

theorem addr_invalid {pin : Int} (h : validPin pin = false) (f : Family) : addr pin f = .error .invalidPin := by
  simp [addr, h]

/-- The register a valid pin's field of a family lies in. -/
def pinReg (p : Nat) (f : Family) : Reg :=
  match f with
  | .functionSelect => .fsel (Fin.ofNat 6 (p / 10))
  | .setLevel => .set (Fin.ofNat 2 (p / 32))
  | .clearLevel => .clr (Fin.ofNat 2 (p / 32))
  | .readLevel => .lev (Fin.ofNat 2 (p / 32))
  | .eventStatus => .eds (Fin.ofNat 2 (p / 32))
  | .risingEdgeEnable => .ren (Fin.ofNat 2 (p / 32))
  | .fallingEdgeEnable => .fen (Fin.ofNat 2 (p / 32))

/-- Every offset `addr` forms is in the table of R26, at the register of its family and index (R114). -/
theorem ofOffset_location {p : Nat} (hp : p < 54) (f : Family) :
    Reg.ofOffset (location p f).byteOffset = some (pinReg p f) := by
  have h : ∀ q : Fin 54, ∀ g ∈ [Family.functionSelect, .setLevel, .clearLevel, .readLevel, .eventStatus,
      .risingEdgeEnable, .fallingEdgeEnable],
      Reg.ofOffset (location q g).byteOffset = some (pinReg q g) := by decide +kernel
  exact h ⟨p, hp⟩ f (by cases f <;> simp)

theorem Reg.ofOffset_offset (r : Reg) : Reg.ofOffset r.offset = some r := by
  have h6 : ∀ i : Fin 6, Reg.ofOffset (Reg.fsel i).offset = some (.fsel i) := by decide
  have h2 : ∀ i : Fin 2, Reg.ofOffset (Reg.set i).offset = some (.set i) ∧
      Reg.ofOffset (Reg.clr i).offset = some (.clr i) ∧ Reg.ofOffset (Reg.lev i).offset = some (.lev i) ∧
      Reg.ofOffset (Reg.eds i).offset = some (.eds i) ∧ Reg.ofOffset (Reg.ren i).offset = some (.ren i) ∧
      Reg.ofOffset (Reg.fen i).offset = some (.fen i) := by decide
  cases r with
  | fsel i => exact h6 i
  | set i => exact (h2 i).1
  | clr i => exact (h2 i).2.1
  | lev i => exact (h2 i).2.2.1
  | eds i => exact (h2 i).2.2.2.1
  | ren i => exact (h2 i).2.2.2.2.1
  | fen i => exact (h2 i).2.2.2.2.2

/-- Every listed offset is a multiple of 4 (R69). -/
theorem ofOffset_aligned {off : Nat} {r : Reg} (h : Reg.ofOffset off = some r) : off % 4 = 0 := by
  unfold Reg.ofOffset at h
  split at h <;> first | rfl | cases h

/-! ### Bits -/

@[simp] theorem getLsbD_packBits (n : Nat) (f : Nat → Bool) (i : Nat) :
    (packBits n f).getLsbD i = (decide (i < n) && f i) := by
  induction n with
  | zero => simp [packBits]
  | succ n ih =>
    rw [packBits, BitVec.getLsbD_cons, ih]
    by_cases h : i = n
    · simp [h]
    · have : decide (i < n) = decide (i < n + 1) := by simp; omega
      simp [h, this]

theorem getLsbD_lowMask (w i : Nat) : (lowMask w).getLsbD i = (decide (i < 32) && decide (i < w)) := by
  have key : ∀ w : Fin 33, ∀ i : Fin 32, (lowMask w).getLsbD i = decide (i.val < w.val) := by decide +kernel
  by_cases hi : i < 32
  · by_cases hw : w < 33
    · simpa [hi] using key ⟨w, hw⟩ ⟨i, hi⟩
    · have hz : lowMask w = lowMask 32 := by
        rw [lowMask, lowMask, BitVec.shiftLeft_eq_zero (by omega)]; rfl
      have := key 32 ⟨i, hi⟩
      rw [hz]
      simpa [hi, show i < w by omega] using this
  · rw [BitVec.getLsbD_of_ge _ i (by omega)]
    simp [hi]

theorem getLsbD_getField (word : Word) (bo w i : Nat) :
    (getField word bo w).getLsbD i = (decide (i < w) && word.getLsbD (bo + i)) := by
  rw [getField, BitVec.getLsbD_and, BitVec.getLsbD_ushiftRight, getLsbD_lowMask]
  by_cases hi : i < 32
  · simp [hi, Bool.and_comm]
  · simp [hi, BitVec.getLsbD_of_ge word (bo + i) (by omega)]

theorem getLsbD_setField (word : Word) (bo w : Nat) (v : Word) {i : Nat} (hi : i < 32) :
    (setField word bo w v).getLsbD i =
      if bo ≤ i ∧ i < bo + w then v.getLsbD (i - bo) else word.getLsbD i := by
  simp only [setField, BitVec.getLsbD_or, BitVec.getLsbD_and, BitVec.getLsbD_not, BitVec.getLsbD_shiftLeft,
    getLsbD_lowMask, hi, decide_true, Bool.true_and]
  by_cases hb : bo ≤ i
  · have h1 : decide (i < bo) = false := by simp; omega
    have h2 : decide (i - bo < 32) = true := by simp; omega
    by_cases hw : i < bo + w
    · have h3 : decide (i - bo < w) = true := by simp; omega
      simp [hb, hw, h1, h2, h3]
    · have h3 : decide (i - bo < w) = false := by simp; omega
      simp [hw, h1, h3]
  · have h1 : decide (i < bo) = true := by simp; omega
    simp [hb, h1]

@[simp] theorem getLsbD_oneBit {b i : Nat} (hb : b < 32) : (oneBit b).getLsbD i = decide (i = b) := by
  have key : ∀ b : Fin 32, ∀ i : Fin 32, (oneBit b).getLsbD i = decide (i.val = b.val) := by decide +kernel
  by_cases hi : i < 32
  · exact key ⟨b, hb⟩ ⟨i, hi⟩
  · have : decide (i = b) = false := by simp; omega
    rw [this, BitVec.getLsbD_of_ge _ i (by omega)]

/-- `setField` writes the field (R118). -/
theorem getField_setField_same (word : Word) (bo w : Nat) (v : Word) (h : bo + w ≤ 32) :
    getField (setField word bo w v) bo w = v &&& lowMask w := by
  apply BitVec.eq_of_getLsbD_eq
  intro i hi
  rw [getLsbD_getField]
  by_cases hw : i < w
  · rw [getLsbD_setField _ _ _ _ (by omega)]
    simp [hw, hi, getLsbD_lowMask]
  · simp [hw, getLsbD_lowMask]

/-- `setField` leaves every other field as it was (R118). -/
theorem getField_setField_other (word : Word) (bo w bo' w' : Nat) (v : Word) (h : bo' + w' ≤ 32)
    (hd : bo' + w' ≤ bo ∨ bo + w ≤ bo') : getField (setField word bo w v) bo' w' = getField word bo' w' := by
  apply BitVec.eq_of_getLsbD_eq
  intro i hi
  rw [getLsbD_getField, getLsbD_getField]
  by_cases hw : i < w'
  · rw [getLsbD_setField _ _ _ _ (by omega), if_neg (by omega)]
  · simp [hw]

theorem getField_eq_of_bits {a b : Word} {bo w : Nat}
    (h : ∀ i, bo ≤ i → i < bo + w → a.getLsbD i = b.getLsbD i) : getField a bo w = getField b bo w := by
  apply BitVec.eq_of_getLsbD_eq
  intro i hi
  rw [getLsbD_getField, getLsbD_getField]
  by_cases hw : i < w
  · rw [h _ (by omega) (by omega)]
  · simp [hw]

/-! ### The pin bits of a register (R28, R29) -/

theorem getLsbD_fselPinMask (n : Fin 6) (b : Nat) :
    (fselPinMask n).getLsbD b = (decide (b < 30) && decide (10 * n.val + b / 3 < 54)) := by
  have key : ∀ n : Fin 6, ∀ b : Fin 32,
      (fselPinMask n).getLsbD b = (decide (b.val < 30) && decide (10 * n.val + b.val / 3 < 54)) := by decide +kernel
  by_cases hb : b < 32
  · exact key n ⟨b, hb⟩
  · have : decide (b < 30) = false := by simp; omega
    rw [this, BitVec.getLsbD_of_ge _ b (by omega)]; rfl

theorem getLsbD_bitPinMask (n : Fin 2) (b : Nat) :
    (bitPinMask n).getLsbD b = (decide (b < 32) && decide (32 * n.val + b < 54)) := by
  have key : ∀ n : Fin 2, ∀ b : Fin 32, (bitPinMask n).getLsbD b = decide (32 * n.val + b.val < 54) := by
    decide +kernel
  by_cases hb : b < 32
  · simpa [hb] using key n ⟨b, hb⟩
  · rw [BitVec.getLsbD_of_ge _ b (by omega)]; simp [hb]

/-! ### The lowest set bit (R11) -/

/-- `ctz32` finds a set bit of a non-zero word. -/
theorem ctz32_set {v : Word} (h : v ≠ 0) : ctz32 v < 32 ∧ v.getLsbD (ctz32 v) = true := by
  have hex : ∃ i, i < 32 ∧ v.getLsbD i = true := by
    by_contra hno
    push Not at hno
    apply h
    apply BitVec.eq_of_getLsbD_eq
    intro i hi
    simpa using hno i hi
  obtain ⟨i, hi, hvi⟩ := hex
  unfold ctz32
  cases hf : (List.range 32).find? fun i => v.getLsbD i with
  | none =>
    rw [List.find?_eq_none] at hf
    exact absurd hvi (hf i (List.mem_range.2 hi))
  | some j => exact ⟨List.mem_range.1 (List.mem_of_find?_eq_some hf), List.find?_some (p := fun i => v.getLsbD i) hf⟩

/-- No lower bit is set. -/
theorem ctz32_least {v : Word} {i : Nat} (h : i < ctz32 v) : v.getLsbD i = false := by
  unfold ctz32 at h
  cases hf : (List.range 32).find? fun i => v.getLsbD i with
  | none =>
    rw [hf, Option.getD_none] at h
    rw [List.find?_eq_none] at hf
    simpa using hf i (List.mem_range.2 h)
  | some j =>
    rw [hf] at h
    simp only [Option.getD_some] at h
    rw [List.find?_range_eq_some] at hf
    simpa using hf.2.2 i h

end Sys2Proof.Machine
end

