-- ==== Sys2Proof/Laws/Window.lean ====
section
/-! SUPPORT. The register window (R52 to R59): what a read shows of each pin, what a write does to each pin and to
each other register, and that the canonical form is kept. -/

namespace Sys2Proof.Machine

open Sys2Proof.Safety (WindowOk)

theorem getLsbD_zeroWord (i : Nat) : (0 : Word).getLsbD i = false := by simp

variable (w : Window)

/-! ### Stored registers -/

theorem Window.fselAt_set (i : Fin 6) (v : Word) (n : Nat) :
    Window.fselAt { w with fsel := w.fsel.set i v } n = if n = i then v else w.fselAt n := by
  simp only [Window.fselAt, Vector.getElem?_set]
  by_cases h : (i : Nat) = n
  · simp [h]
  · simp [h, Ne.symm h]

theorem Window.edsAt_set (i : Fin 2) (v : Word) (n : Nat) :
    Window.edsAt { w with eds := w.eds.set i v } n = if n = i then v else w.edsAt n := by
  simp only [Window.edsAt, Vector.getElem?_set]
  by_cases h : (i : Nat) = n
  · simp [h]
  · simp [h, Ne.symm h]

theorem Window.renAt_set (i : Fin 2) (v : Word) (n : Nat) :
    Window.renAt { w with ren := w.ren.set i v } n = if n = i then v else w.renAt n := by
  simp only [Window.renAt, Vector.getElem?_set]
  by_cases h : (i : Nat) = n
  · simp [h]
  · simp [h, Ne.symm h]

theorem Window.fenAt_set (i : Fin 2) (v : Word) (n : Nat) :
    Window.fenAt { w with fen := w.fen.set i v } n = if n = i then v else w.fenAt n := by
  simp only [Window.fenAt, Vector.getElem?_set]
  by_cases h : (i : Nat) = n
  · simp [h]
  · simp [h, Ne.symm h]

/-- A write of FSELi leaves everything but FSELi and the output latches. -/
@[simp] theorem Window.writeFsel_fields (i : Fin 6) (v bits : Word) :
    (w.writeFsel i v bits).eds = w.eds ∧ (w.writeFsel i v bits).ren = w.ren ∧ (w.writeFsel i v bits).fen = w.fen ∧
    (w.writeFsel i v bits).extLevel = w.extLevel :=
  ⟨rfl, rfl, rfl, rfl⟩

/-- A write of SETi or CLRi leaves everything but the output latches. -/
@[simp] theorem Window.writeLevel_fields (i : Fin 2) (v : Word) (level : Bool) :
    (w.writeLevel i v level).fsel = w.fsel ∧ (w.writeLevel i v level).eds = w.eds ∧
    (w.writeLevel i v level).ren = w.ren ∧ (w.writeLevel i v level).fen = w.fen ∧
    (w.writeLevel i v level).extLevel = w.extLevel :=
  ⟨rfl, rfl, rfl, rfl, rfl⟩

theorem Window.fselAt_writeFsel (i : Fin 6) (v bits : Word) (n : Nat) :
    (w.writeFsel i v bits).fselAt n = if n = i then v &&& fselPinMask i else w.fselAt n :=
  w.fselAt_set i _ n

/-- A write of one register leaves what every other register holds (R52 to R57). -/
theorem Window.stored_write_ne {r r' : Reg} (h : r' ≠ r) (v bits : Word) :
    (w.write r v bits).stored r' = w.stored r' := by
  cases r with
  | fsel i =>
    cases r' with
    | fsel j => exact (w.fselAt_writeFsel i v bits j).trans (if_neg fun e => h (by rw [Fin.ext e]))
    | _ => rfl
  | eds i =>
    cases r' with
    | eds j => exact (w.edsAt_set i _ j).trans (if_neg fun e => h (by rw [Fin.ext e]))
    | _ => rfl
  | ren i =>
    cases r' with
    | ren j => exact (w.renAt_set i _ j).trans (if_neg fun e => h (by rw [Fin.ext e]))
    | _ => rfl
  | fen i =>
    cases r' with
    | fen j => exact (w.fenAt_set i _ j).trans (if_neg fun e => h (by rw [Fin.ext e]))
    | _ => rfl
  | set i => cases r' <;> rfl
  | clr i => cases r' <;> rfl
  | lev i => rfl

/-! ### Function codes and output latches -/

theorem getField_pinMask {i : Fin 6} {p : Nat} (hp : p < 54) (hi : p / 10 = i) (v : Word) :
    getField (v &&& fselPinMask i) (3 * (p % 10)) 3 = getField v (3 * (p % 10)) 3 := by
  apply getField_eq_of_bits
  intro b hb hb'
  have h1 : decide (b < 30) = true := by simp; omega
  have h2 : decide (10 * i.val + b / 3 < 54) = true := by simp; omega
  rw [BitVec.getLsbD_and, getLsbD_fselPinMask, h1, h2, Bool.and_self, Bool.and_true]

/-- After a write of FSELi, each of its pins has the function code written (R52). -/
theorem Window.func_writeFsel (i : Fin 6) (v bits : Word) {p : Nat} (hp : p < 54) :
    (w.writeFsel i v bits).func p = if p / 10 = i then getField v (3 * (p % 10)) 3 else w.func p := by
  simp only [Window.func, Window.fselAt_writeFsel]
  split
  · next h => exact getField_pinMask hp h v
  · rfl

/-- A pin whose code changes into Output takes the drawn latch; any other keeps its own (R52). -/
theorem Window.latch_writeFsel (i : Fin 6) (v bits : Word) {p : Nat} (hp : p < 54) :
    (w.writeFsel i v bits).latch p =
      if (w.writeFsel i v bits).func p = outputCode ∧ w.func p ≠ outputCode then bits.getLsbD (p % 10)
      else w.latch p := by
  simp only [Window.latch, Window.writeFsel, getLsbD_packBits, hp, decide_true, Bool.true_and]
  rfl

@[simp] theorem Window.func_writeLevel (i : Fin 2) (v : Word) (level : Bool) (p : Nat) :
    (w.writeLevel i v level).func p = w.func p := rfl

/-- SETi and CLRi act on the Output pins whose bit is 1, and on no other (R53, R54). -/
theorem Window.latch_writeLevel (i : Fin 2) (v : Word) (level : Bool) {p : Nat} (hp : p < 54) :
    (w.writeLevel i v level).latch p =
      if p / 32 = i ∧ v.getLsbD (p % 32) = true ∧ w.func p = outputCode then level else w.latch p := by
  simp only [Window.latch, Window.writeLevel, getLsbD_packBits, hp, decide_true, Bool.true_and]

/-! ### Reads -/

@[simp] theorem getLsbD_withDraw (stored mask bits : Word) (b : Nat) :
    (withDraw stored mask bits).getLsbD b =
      if mask.getLsbD b = true then stored.getLsbD b else bits.getLsbD b := by
  by_cases hb : b < 32
  · simp only [withDraw, BitVec.getLsbD_or, BitVec.getLsbD_and, BitVec.getLsbD_not, hb, decide_true, Bool.true_and]
    cases mask.getLsbD b <;> simp
  · simp [BitVec.getLsbD_of_ge _ b (show 32 ≤ b by omega)]

/-- In its pin bits, a read shows what is stored. -/
theorem withDraw_and_mask (stored mask bits : Word) : withDraw stored mask bits &&& mask = stored &&& mask := by
  apply BitVec.eq_of_getLsbD_eq
  intro i _
  rw [BitVec.getLsbD_and, BitVec.getLsbD_and, getLsbD_withDraw]
  cases mask.getLsbD i <;> simp

theorem and_mask_of_canonical {stored mask : Word} (h : stored &&& ~~~mask = 0) : stored &&& mask = stored := by
  apply BitVec.eq_of_getLsbD_eq
  intro i hi
  have := congrArg (fun v => v.getLsbD i) h
  simp only [BitVec.getLsbD_and, BitVec.getLsbD_not, hi, decide_true, Bool.true_and, getLsbD_zeroWord] at this
  rw [BitVec.getLsbD_and]
  cases hm : mask.getLsbD i <;> simp_all

theorem canonical_and_mask (v mask : Word) : (v &&& mask) &&& ~~~mask = 0 := by
  apply BitVec.eq_of_getLsbD_eq
  intro i hi
  simp only [BitVec.getLsbD_and, BitVec.getLsbD_not, hi, decide_true, Bool.true_and, getLsbD_zeroWord]
  cases v.getLsbD i <;> cases mask.getLsbD i <;> rfl

/-- The field a read of FSELi shows for one of its pins is the pin's function code (R52, R143). -/
theorem Window.getField_read_fsel (i : Fin 6) (bits : Word) {p : Nat} (hp : p < 54) (hi : p / 10 = i) :
    getField (w.read (.fsel i) bits) (3 * (p % 10)) 3 = w.func p := by
  rw [Window.func, hi]
  apply getField_eq_of_bits
  intro b hb hb'
  have h1 : decide (b < 30) = true := by simp; omega
  have h2 : decide (10 * i.val + b / 3 < 54) = true := by simp; omega
  rw [Window.read, getLsbD_withDraw, getLsbD_fselPinMask, h1, h2]
  simp

/-- The bit a read of LEVi shows for one of its pins is the pin's level (R55). -/
theorem Window.getLsbD_read_lev (i : Fin 2) (bits : Word) {p : Nat} (hp : p < 54) (hi : p / 32 = i) :
    (w.read (.lev i) bits).getLsbD (p % 32) = w.pinLevel p (bits.getLsbD (p % 32)) := by
  have h32 : p % 32 < 32 := Nat.mod_lt _ (by omega)
  have hpi : 32 * i.val + p % 32 = p := by omega
  simp only [Window.read, getLsbD_packBits, h32, decide_true, Bool.true_and, hpi, Config.pinCount, hp, if_true]

/-! ### The canonical form -/

/-- Every write keeps the canonical form. -/
theorem WindowOk.write {w : Window} (h : WindowOk w) (r : Reg) (v bits : Word) : WindowOk (w.write r v bits) := by
  obtain ⟨hf, he, hr, hn⟩ := h
  cases r with
  | fsel i =>
    refine ⟨fun j => ?_, he, hr, hn⟩
    rw [Window.write, Window.fselAt_writeFsel]
    split
    · next e => rw [Fin.ext e]; exact canonical_and_mask _ _
    · exact hf j
  | set i => exact ⟨hf, he, hr, hn⟩
  | clr i => exact ⟨hf, he, hr, hn⟩
  | lev i => exact ⟨hf, he, hr, hn⟩
  | eds i =>
    refine ⟨hf, fun j => ?_, hr, hn⟩
    rw [Window.write, Window.edsAt_set]
    split
    · next e =>
      rw [Fin.ext e, BitVec.and_assoc, BitVec.and_comm (~~~v), ← BitVec.and_assoc, he i]
      exact BitVec.zero_and
    · exact he j
  | ren i =>
    refine ⟨hf, he, fun j => ?_, hn⟩
    rw [Window.write, Window.renAt_set]
    split
    · next e => rw [Fin.ext e]; exact canonical_and_mask _ _
    · exact hr j
  | fen i =>
    refine ⟨hf, he, hr, fun j => ?_⟩
    rw [Window.write, Window.fenAt_set]
    split
    · next e => rw [Fin.ext e]; exact canonical_and_mask _ _
    · exact hn j

/-- A read of a locked family's register agrees with what it holds, in every pin bit (R52, R57). -/
theorem WindowOk.read_agrees {w : Window} (h : WindowOk w) {r : Reg} (hr : ∀ i, r ≠ .set i ∧ r ≠ .clr i ∧ r ≠ .lev i)
    (bits : Word) : w.read r bits &&& r.pinMask = w.stored r := by
  obtain ⟨hf, he, hrn, hfn⟩ := h
  cases r with
  | fsel i => exact (withDraw_and_mask _ _ _).trans (and_mask_of_canonical (hf i))
  | eds i => exact (withDraw_and_mask _ _ _).trans (and_mask_of_canonical (he i))
  | ren i => exact (withDraw_and_mask _ _ _).trans (and_mask_of_canonical (hrn i))
  | fen i => exact (withDraw_and_mask _ _ _).trans (and_mask_of_canonical (hfn i))
  | set i => exact absurd rfl (hr i).1
  | clr i => exact absurd rfl (hr i).2.1
  | lev i => exact absurd rfl (hr i).2.2

/-! ### The hardware agent (R59) -/

theorem Window.edsAt_setPending (p n : Nat) (hp : p < 54) :
    (w.setPending p).edsAt n = if n = p / 32 then w.edsAt n ||| oneBit (p % 32) else w.edsAt n := by
  have h2 : p / 32 < 2 := by omega
  simp only [Window.setPending, Window.edsAt, Vector.getElem?_setIfInBounds]
  by_cases h : p / 32 = n
  · subst h; simp [h2]
  · simp [h, Ne.symm h]

@[simp] theorem Window.setPending_fields (p : Nat) :
    (w.setPending p).fsel = w.fsel ∧ (w.setPending p).ren = w.ren ∧ (w.setPending p).fen = w.fen ∧
    (w.setPending p).outLatch = w.outLatch ∧ (w.setPending p).extLevel = w.extLevel :=
  ⟨rfl, rfl, rfl, rfl, rfl⟩

/-- Setting a pending latch sets that pin's and no other (R59). -/
theorem Window.pending_setPending {p : Nat} (hp : p < 54) (k : Nat) :
    (w.setPending p).pending k = (w.pending k || decide (k = p)) := by
  rw [Window.pending, Window.edsAt_setPending w p _ hp]
  by_cases h : k / 32 = p / 32
  · rw [if_pos h, BitVec.getLsbD_or, getLsbD_oneBit (Nat.mod_lt _ (by omega))]
    have : (k % 32 = p % 32) ↔ k = p := by omega
    simp [Window.pending, this]
  · have : k ≠ p := fun e => h (by rw [e])
    simp [h, this, Window.pending]

/-- A level change moves the external level and latches an enabled edge of an Input pin; it changes nothing else (R59
step 1). -/
theorem Window.changeLevel_cases (p : Nat) (v : Bool) :
    (w.changeLevel p v = w ∧ (54 ≤ p ∨ w.external p = v)) ∨
    (p < 54 ∧ w.external p ≠ v ∧
      ∃ m : Window, m = { w with extLevel := packBits 54 fun k => if k = p then v else w.external k } ∧
        w.changeLevel p v = if w.edgeLatches p v then m.setPending p else m) := by
  unfold Window.changeLevel
  by_cases hp : p < Config.pinCount
  · by_cases hv : w.external p = v
    · left; simp [hp, hv]
    · right; exact ⟨hp, hv, _, rfl, by simp [hp, hv]⟩
  · left; exact ⟨by simp [hp], Or.inl (by simpa [Config.pinCount] using hp)⟩

theorem WindowOk.setPending {w : Window} (h : WindowOk w) {p : Nat} (hp : p < 54) : WindowOk (w.setPending p) := by
  refine ⟨h.1, fun j => ?_, h.2.2.1, h.2.2.2⟩
  rw [Window.edsAt_setPending w p _ hp]
  split
  · next e =>
    apply BitVec.eq_of_getLsbD_eq
    intro i hi
    have hj := congrArg (fun v => v.getLsbD i) (h.2.1 j)
    simp only [BitVec.getLsbD_and, BitVec.getLsbD_not, getLsbD_zeroWord] at hj
    simp only [BitVec.getLsbD_and, BitVec.getLsbD_or, BitVec.getLsbD_not, getLsbD_zeroWord,
      getLsbD_oneBit (Nat.mod_lt p (show 32 > 0 by omega)), getLsbD_bitPinMask] at hj ⊢
    by_cases hip : i = p % 32
    · have h1 : decide (32 * j.val + i < 54) = true := by simp; omega
      simp [hi, h1]
    · simpa [hi, hip] using hj
  · exact h.2.1 j

theorem WindowOk.changeLevel {w : Window} (h : WindowOk w) (p : Nat) (v : Bool) : WindowOk (w.changeLevel p v) := by
  obtain ⟨e, -⟩ | ⟨hp, -, m, rfl, e⟩ := w.changeLevel_cases p v
  · rw [e]; exact h
  · rw [e]
    split
    · exact WindowOk.setPending (w := { w with extLevel := _ }) h hp
    · exact h

theorem WindowOk.otherEvent {w : Window} (h : WindowOk w) (p : Nat) : WindowOk (w.otherEvent p) := by
  unfold Window.otherEvent
  split
  · next hp => exact WindowOk.setPending h hp
  · exact h

/-- No step of the hardware changes a FunctionSelect, REN or FEN register (R59). -/
theorem Window.stored_changeLevel (p : Nat) (v : Bool) {r : Reg} (hr : ∀ i, r ≠ .eds i) :
    (w.changeLevel p v).stored r = w.stored r := by
  obtain ⟨e, -⟩ | ⟨hp, -, m, rfl, e⟩ := w.changeLevel_cases p v
  · rw [e]
  · rw [e]
    cases r with
    | eds i => exact absurd rfl (hr i)
    | _ => split <;> rfl

theorem Window.stored_otherEvent (p : Nat) {r : Reg} (hr : ∀ i, r ≠ .eds i) :
    (w.otherEvent p).stored r = w.stored r := by
  unfold Window.otherEvent
  cases r with
  | eds i => exact absurd rfl (hr i)
  | _ => split <;> rfl

end Sys2Proof.Machine
end

