-- ==== Sys2Proof/Laws/Ops.lean ====
section
/-! SUPPORT. The bus primitives at the offsets the operations form (R51, R69, R73, R117), and running an operation:
what one move does when nothing disturbs it, and that more fuel than needed changes nothing. -/

namespace Sys2Proof.Machine

open Sys2Proof.Safety

/-! ### Accesses and transactions -/

/-- Every access at a location is whole, aligned and listed (R69, R114); a write, unless it is of ReadLevel. -/
theorem checkAccess_location {p : Nat} (hp : p < 54) (f : Family) (isWrite : Bool)
    (hw : isWrite = true → f ≠ .readLevel) :
    checkAccess (location p f).byteOffset 4 isWrite = .ok (pinReg p f) := by
  have ho := ofOffset_location hp f
  have ha := ofOffset_aligned ho
  rw [checkAccess, if_neg (by simp [ha]), ho]
  cases f with
  | readLevel => cases isWrite with
    | true => exact absurd rfl (hw rfl)
    | false => rfl
  | _ => rfl

/-- The state after a read transaction: the draw is taken and the transaction recorded; nothing else changes (R58). -/
def State.afterRead (s : State) (q off : Nat) (result : Option Word) : State :=
  s.dropDraw.record (.read q off result)

/-- A read at a location (R51, R73). -/
theorem memRead_location {p : Nat} (hp : p < 54) (f : Family) (q : Nat) (s : State) :
    memRead q (location p f).byteOffset s =
      if (s.drawAt 0).err = true then (none, s.afterRead q (location p f).byteOffset none)
      else (some (s.window.read (pinReg p f) (s.drawAt 0).bits),
        s.afterRead q (location p f).byteOffset (some (s.window.read (pinReg p f) (s.drawAt 0).bits))) := by
  simp only [memRead, checkAccess_location hp f false (by simp)]
  split <;> rfl

/-- The window after a write transaction at a location: after `ERR`, the old one or the written one (R73). -/
def State.windowAfter (s : State) (r : Reg) (v : Word) : Window :=
  if (s.drawAt 0).err = true ∧ (s.drawAt 0).took = false then s.window
  else s.window.write r v (s.drawAt 0).bits

/-- The state after a write transaction at a location. -/
def State.afterWrite (s : State) (q off : Nat) (r : Reg) (v : Word) : State :=
  (s.dropDraw.setWindow (s.windowAfter r v)).record (.write q off v (!(s.drawAt 0).err))

/-- A write at a location (R51, R73). -/
theorem memWrite_location {p : Nat} (hp : p < 54) {f : Family} (hf : f ≠ .readLevel) (q : Nat) (v : Word)
    (s : State) :
    memWrite q (location p f).byteOffset v s =
      (!(s.drawAt 0).err, s.afterWrite q (location p f).byteOffset (pinReg p f) v) := by
  simp only [memWrite, checkAccess_location hp f true (fun _ => hf), State.afterWrite, State.windowAfter,
    Bool.and_eq_true, Bool.not_eq_true']

@[simp] theorem State.afterRead_fields (s : State) (q off : Nat) (x : Option Word) :
    (s.afterRead q off x).window = s.window ∧ (s.afterRead q off x).inoperative = s.inoperative ∧
    (s.afterRead q off x).locks = s.locks ∧ (s.afterRead q off x).ias = s.ias ∧
    (s.afterRead q off x).ports = s.ports ∧ (s.afterRead q off x).destroyed = s.destroyed ∧
    (s.afterRead q off x).issuer = s.issuer ∧ (s.afterRead q off x).demands = s.demands ∧
    (s.afterRead q off x).agenda = s.agenda ∧ (s.afterRead q off x).draws = s.draws.tail ∧
    (s.afterRead q off x).drawCount = s.drawCount + 1 ∧ (s.afterRead q off x).bus = .read q off x :: s.bus :=
  ⟨rfl, rfl, rfl, rfl, rfl, rfl, rfl, rfl, rfl, rfl, rfl, rfl⟩

@[simp] theorem State.afterWrite_fields (s : State) (q off : Nat) (r : Reg) (v : Word) :
    (s.afterWrite q off r v).window = s.windowAfter r v ∧ (s.afterWrite q off r v).inoperative = s.inoperative ∧
    (s.afterWrite q off r v).locks = s.locks ∧ (s.afterWrite q off r v).ias = s.ias ∧
    (s.afterWrite q off r v).ports = s.ports ∧ (s.afterWrite q off r v).destroyed = s.destroyed ∧
    (s.afterWrite q off r v).issuer = s.issuer ∧ (s.afterWrite q off r v).demands = s.demands ∧
    (s.afterWrite q off r v).agenda = s.agenda ∧ (s.afterWrite q off r v).draws = s.draws.tail ∧
    (s.afterWrite q off r v).drawCount = s.drawCount + 1 ∧
    (s.afterWrite q off r v).bus = .write q off v (!(s.drawAt 0).err) :: s.bus :=
  ⟨rfl, rfl, rfl, rfl, rfl, rfl, rfl, rfl, rfl, rfl, rfl, rfl⟩

@[simp] theorem State.drawAt_afterRead (s : State) (q off : Nat) (x : Option Word) (k : Nat) :
    (s.afterRead q off x).drawAt k = s.drawAt (k + 1) := State.drawAt_dropDraw s k

@[simp] theorem State.drawAt_afterWrite (s : State) (q off : Nat) (r : Reg) (v : Word) (k : Nat) :
    (s.afterWrite q off r v).drawAt k = s.drawAt (k + 1) := State.drawAt_dropDraw s k

@[simp] theorem State.flightOf_afterRead (s : State) (q off : Nat) (x : Option Word) (r : Nat) :
    (s.afterRead q off x).flightOf r = s.flightOf r := rfl

@[simp] theorem State.flightOf_afterWrite (s : State) (q off : Nat) (g : Reg) (v : Word) (r : Nat) :
    (s.afterWrite q off g v).flightOf r = s.flightOf r := rfl

/-- After a write, every other register holds what it held, and the canonical form is kept. -/
theorem State.stored_windowAfter_ne (s : State) {r r' : Reg} (h : r' ≠ r) (v : Word) :
    (s.windowAfter r v).stored r' = s.window.stored r' := by
  rw [State.windowAfter]
  split
  · rfl
  · exact s.window.stored_write_ne h v _

theorem State.windowOk_windowAfter {s : State} (h : WindowOk s.window) (r : Reg) (v : Word) :
    WindowOk (s.windowAfter r v) := by
  rw [State.windowAfter]
  split
  · exact h
  · exact WindowOk.write h r v _

@[simp] theorem scanOffset_low : scanOffset 0 = (location 0 .eventStatus).byteOffset := rfl
@[simp] theorem scanOffset_high : scanOffset 32 = (location 32 .eventStatus).byteOffset := rfl

/-! ### Running an operation -/

theorem drive_idle {q : Nat} {s : State} (h : s.inFlight q = false) (n : Nat) : drive n q s = s := by
  cases n <;> simp [drive, h]

theorem drive_succ {q : Nat} {s : State} (h : s.inFlight q = true) (n : Nat) :
    drive (n + 1) q s = drive n q (turn q s) := by
  simp [drive, h]

/-- Once the operation is complete, more fuel changes nothing. -/
theorem drive_add {q : Nat} (k n : Nat) {s : State} (h : (drive k q s).inFlight q = false) :
    drive (k + n) q s = drive k q s := by
  induction k generalizing s with
  | zero => rw [Nat.zero_add]; exact drive_idle h n
  | succ k ih =>
    by_cases hf : s.inFlight q = true
    · rw [Nat.add_right_comm, drive_succ hf, drive_succ hf]
      rw [drive_succ hf] at h
      exact ih h
    · rw [Bool.not_eq_true] at hf
      rw [drive_idle hf, drive_idle hf]

/-- With an empty agenda and nothing to wait for, the operation takes its next step. -/
theorem turn_alone {q : Nat} {s : State} {a : Action} {rest : List Action} {temp : Word} (ha : s.agenda = [])
    (hf : s.flightOf q = some ⟨a :: rest, temp⟩) (hw : waitsFor q s a = none) :
    turn q s = act q temp a rest s := by
  have hb : blocker q s = none := by simp [blocker, hf, hw]
  simp [turn, ha, hb, advance, hf]

/-- One step of an operation that runs alone. -/
theorem drive_alone {q : Nat} {s : State} {a : Action} {rest : List Action} {temp : Word} (ha : s.agenda = [])
    (hf : s.flightOf q = some ⟨a :: rest, temp⟩) (hw : waitsFor q s a = none) (n : Nat) :
    drive (n + 1) q s = drive n q (act q temp a rest s) := by
  rw [drive_succ ((s.inFlight_iff q).2 ⟨_, hf⟩), turn_alone ha hf hw]

theorem portWeight_le {ps : List Port} {q : Nat} {p : Port} (h : ps[q]? = some p) : portWeight p ≤ portsWeight ps := by
  induction ps generalizing q with
  | nil => simp at h
  | cons x xs ih =>
    cases q with
    | zero => simp at h; subst h; simp [portsWeight]
    | succ q => simp at h; have := ih h; simp [portsWeight]; omega

/-- The fuel of `settle` is enough for the steps of the operation on any port. -/
theorem stepsWeight_le_potential {s : State} {q : Nat} {f : Flight} (h : s.flightOf q = some f) :
    stepsWeight f.todo ≤ s.potential := by
  rw [State.flightOf] at h
  cases hp : s.ports[q]? with
  | none => simp [hp] at h
  | some p =>
    rw [hp] at h
    have := portWeight_le hp
    simp only [Option.bind_some] at h
    simp only [portWeight, h] at this
    simp only [State.potential]; omega

/-- `perform` at a port that accepts: the operation begins and runs to its response. -/
theorem perform_ready {s : State} (h : Ready s) (todo : List Action) :
    perform todo s = .next (settle s.issuer (begin s.issuer todo s)) := by
  simp [perform, h.alive, h.issuer, h.idle]

theorem flightOf_begin_issuer {s : State} (h : Ready s) (todo : List Action) :
    (begin s.issuer todo s).flightOf s.issuer = some ⟨todo, 0⟩ := by
  rw [flightOf_begin]; simp [h.issuer]

/-- What `settle` answers, if `k` moves are known to complete the operation and `k` is no more than its weight. -/
theorem settle_begin {s t : State} (h : Ready s) {todo : List Action} (k : Nat) (hk : k ≤ stepsWeight todo)
    (ht : drive k s.issuer (begin s.issuer todo s) = t) (hd : t.inFlight s.issuer = false) :
    settle s.issuer (begin s.issuer todo s) = t := by
  have hf := flightOf_begin_issuer h todo
  rw [settle, if_pos ((State.inFlight_iff _ _).2 ⟨_, hf⟩)]
  have hle := stepsWeight_le_potential hf
  simp only at hle
  obtain ⟨n, hn⟩ := Nat.exists_eq_add_of_le (show k ≤ (begin s.issuer todo s).potential + 1 by omega)
  rw [hn, drive_add k n (by rw [ht]; exact hd), ht]

end Sys2Proof.Machine
end

