-- ==== Sys2Proof/Laws/Invariant.lean ====
section
/-! SUPPORT. What one step of an operation can do to everything that is not its own (`StepBy`), that such a step, the
start of an operation and a move of the hardware keep the invariant, and that each step uses up fuel. -/

namespace Sys2Proof.Machine

open Sys2Proof.Safety

/-- A register of the family of a lock. -/
def Reg.ofLock : LockFamily → Reg → Prop
  | .functionSelect, .fsel _ => True
  | .risingEdgeEnable, .ren _ => True
  | .fallingEdgeEnable, .fen _ => True
  | _, _ => False

theorem pinReg_ofLock (p : Nat) (g : LockFamily) : Reg.ofLock g (pinReg p g.family) := by cases g <;> trivial

theorem Reg.ofLock_unique {g g' : LockFamily} {r : Reg} (h : Reg.ofLock g r) (h' : Reg.ofLock g' r) : g = g' := by
  cases g <;> cases g' <;> cases r <;> first | rfl | exact h.elim | exact h'.elim

theorem LockFamily.family_ne_readLevel (g : LockFamily) : g.family ≠ .readLevel := by cases g <;> simp [family]

/-- What a step of the operation of port `q` leaves to the other agents: their ports, their locks, the scanner if one of
them owns it, the registers of every family whose lock `q` does not hold, and the model's own fields. -/
structure StepBy (q : Nat) (s t : State) : Prop where
  length : t.ports.length = s.ports.length
  others : ∀ r, r ≠ q → t.ports[r]? = s.ports[r]?
  destroyed : t.destroyed = s.destroyed
  issuer : t.issuer = s.issuer
  demands : t.demands = s.demands
  agenda : t.agenda = s.agenda
  locks : ∀ l r, r ≠ q → (t.locks.holder l = some r ↔ s.locks.holder l = some r)
  scanner : s.ias.busy = true → s.ias.owner ≠ q → t.ias = s.ias
  claimed : t.ias.busy = true → t.ias.owner ≠ q → t.ias = s.ias
  window : WindowOk s.window → WindowOk t.window
  stored : ∀ g r, Reg.ofLock g r → s.locks.holder g ≠ some q → t.window.stored r = s.window.stored r
  external : t.window.extLevel = s.window.extLevel
  inoperative : s.inoperative = true → t.inoperative = true

theorem StepBy.refl (q : Nat) (s : State) : StepBy q s s :=
  ⟨rfl, fun _ _ => rfl, rfl, rfl, rfl, rfl, fun _ _ _ => Iff.rfl, fun _ _ => rfl, fun _ _ => rfl, id,
    fun _ _ _ _ => rfl, rfl, id⟩

/-- An update of the port's own entry after such a step is still such a step. -/
theorem StepBy.modifyPort {q : Nat} {s t : State} (h : StepBy q s t) (f : Port → Port) :
    StepBy q s (t.modifyPort q f) :=
  { h with
    length := by simp [h.length]
    others := fun r hr => (t.ports_modifyPort_ne q f hr).trans (h.others r hr) }

theorem StepBy.setTodo {q : Nat} {s t : State} (h : StepBy q s t) (todo : List Action) :
    StepBy q s (t.setTodo q todo) := h.modifyPort _

theorem StepBy.setTemp {q : Nat} {s t : State} (h : StepBy q s t) (v : Word) :
    StepBy q s (t.setTemp q v) := h.modifyPort _

theorem StepBy.finish {q : Nat} {s t : State} (h : StepBy q s t) (r0 r1 : Word) :
    StepBy q s (t.finish q r0 r1) := h.modifyPort _

theorem StepBy.fail {q : Nat} {s t : State} (h : StepBy q s t) : StepBy q s t.fail :=
  { h with inoperative := fun _ => rfl }

theorem StepBy.dropLocks {q : Nat} {s t : State} (h : StepBy q s t) : StepBy q s (t.dropLocks q) :=
  { h with locks := fun l r hr => by simp [h.locks l r hr, hr] }

theorem StepBy.raiseIn {q : Nat} {s t : State} (h : StepBy q s t) (st : Status) :
    StepBy q s (raiseIn q st t) := h.dropLocks.setTodo _

theorem StepBy.accessFailed {q : Nat} {s t : State} (h : StepBy q s t) : StepBy q s (accessFailed q t) :=
  h.fail.raiseIn _

theorem StepBy.scanFailed {q : Nat} {s t : State} (h : StepBy q s t) : StepBy q s (scanFailed q t) :=
  h.fail.setTodo _

theorem StepBy.afterRead (q : Nat) (s : State) (off : Nat) (x : Option Word) :
    StepBy q s (s.afterRead q off x) :=
  ⟨rfl, fun _ _ => rfl, rfl, rfl, rfl, rfl, fun _ _ _ => Iff.rfl, fun _ _ => rfl, fun _ _ => rfl, id,
    fun _ _ _ _ => rfl, rfl, id⟩

theorem Window.extLevel_write (w : Window) (r : Reg) (v bits : Word) : (w.write r v bits).extLevel = w.extLevel := by
  cases r <;> rfl

/-- A write of a register whose family lock, if it has one, port `q` holds. -/
theorem StepBy.afterWrite (q : Nat) (s : State) (off : Nat) (r : Reg) (v : Word)
    (hl : ∀ g, Reg.ofLock g r → s.locks.holder g = some q) : StepBy q s (s.afterWrite q off r v) :=
  ⟨rfl, fun _ _ => rfl, rfl, rfl, rfl, rfl, fun _ _ _ => Iff.rfl, fun _ _ => rfl, fun _ _ => rfl,
    fun h => State.windowOk_windowAfter h r v,
    fun g r' hg hn => State.stored_windowAfter_ne s (fun e => hn (hl g (by rw [← e]; exact hg))) v, by
      simp only [State.afterWrite_fields, State.windowAfter]
      split
      · rfl
      · exact Window.extLevel_write _ _ _ _, id⟩

/-- A change of the scanner's latches by the operation that owns it, before and after. -/
theorem StepBy.setIas {q : Nat} {s t : State} (h : StepBy q s t) (hs : s.ias.busy = true → s.ias.owner = q)
    {i : Scanner} (hi : i.busy = true → i.owner = q) : StepBy q s (t.setIas i) :=
  { h with
    scanner := fun hb ho => absurd (hs hb) ho
    claimed := fun hb ho => absurd (hi hb) ho }

theorem position_writeField {f : LockFamily} {pin : Int} {v : Word} {rest : List Action}
    {h : Option LockFamily} (hp : Position (.writeField f pin v :: rest) h) :
    h = some f ∧ ∃ rest', rest = .release f :: rest' ∧ plainOk rest' = true := by
  cases hp with
  | plain hp => simp [plainOk] at hp
  | writing _ _ _ hr => exact ⟨rfl, _, rfl, hr⟩

theorem position_readField {f : LockFamily} {pin : Int} {rest : List Action}
    {h : Option LockFamily} (hp : Position (.readField f pin :: rest) h) :
    h = some f ∧ ∃ v rest', rest = .writeField f pin v :: .release f :: rest' ∧ plainOk rest' = true := by
  cases hp with
  | plain hp => simp [plainOk] at hp
  | reading _ _ v hr => exact ⟨rfl, v, _, rfl, hr⟩

theorem position_release {f : LockFamily} {rest : List Action} {h : Option LockFamily}
    (hp : Position (.release f :: rest) h) : h = some f ∧ plainOk rest = true := by
  cases hp with
  | plain hp => simp [plainOk] at hp
  | releasing _ hr => exact ⟨rfl, hr⟩

theorem position_check {pin : Int} {bad : Option Status} {rest : List Action} {h : Option LockFamily}
    (hp : Position (.check pin bad :: rest) h) : h = none ∧ plainOk rest = true := by
  cases hp with
  | plain hp => exact ⟨rfl, by simpa [plainOk] using hp⟩

theorem position_acquire {f : LockFamily} {rest : List Action} {h : Option LockFamily}
    (hp : Position (.acquire f :: rest) h) : h = none ∧ Position rest (some f) := by
  cases hp with
  | plain hp =>
    refine ⟨rfl, ?_⟩
    unfold plainOk at hp
    split at hp <;> simp_all
    obtain ⟨⟨⟨⟨rfl, rfl⟩, rfl⟩, rfl⟩, hr⟩ := hp
    exact .reading _ _ _ hr

theorem position_writeOne {f : Family} {pin : Int} {rest : List Action} {h : Option LockFamily}
    (hp : Position (.writeOne f pin :: rest) h) :
    h = none ∧ (f = .setLevel ∨ f = .clearLevel) ∧ plainOk rest = true := by
  cases hp with
  | plain hp =>
    simp [plainOk] at hp
    exact ⟨rfl, hp.1, hp.2⟩

theorem position_end {a : Action} {rest : List Action} {h : Option LockFamily} (hp : Position (a :: rest) h)
    (ha : (∃ r0 r1, a = .respond r0 r1) ∨ (∃ p, a = .queryFunction p) ∨ (∃ p f, a = .queryLevel p f)) :
    h = none ∧ rest = [] := by
  obtain ⟨r0, r1, rfl⟩ | ⟨p, rfl⟩ | ⟨p, f, rfl⟩ := ha <;>
  · cases hp with
    | plain hp => cases rest <;> simp_all [plainOk]

theorem position_scan {a : Action} {rest : List Action} {h : Option LockFamily} (hp : Position (a :: rest) h)
    (ha : a = .claimScanner ∨ a = .scanLow ∨ a = .scanHigh ∨ a = .scanClear ∨ ∃ i, a = .respondScan i) :
    h = none ∧ rest = [] := by
  obtain rfl | rfl | rfl | rfl | ⟨i, rfl⟩ := ha <;>
  · cases hp with
    | plain hp => simp [plainOk] at hp
    | _ => exact ⟨rfl, rfl⟩

/-! ### The invariant, port by port -/

/-- The part of the invariant that concerns the operation of port `q`. -/
structure OwnOk (q : Nat) (s : State) : Prop where
  fresh : ∀ p : Port, s.ports[q]? = some p → p.flight.isSome = true → p.responded = false
  sequence : ∀ f, s.flightOf q = some f → ∃ h, Position f.todo h ∧ ∀ l, s.locks.holder l = some q ↔ h = some l
  holders : s.flightOf q = none → ∀ l, s.locks.holder l ≠ some q
  scanner : (s.ias.busy = true ∧ s.ias.owner = q) ↔ ∃ f, s.flightOf q = some f ∧ inScan f.todo = true
  active : ∀ f, s.flightOf q = some f → f.todo = [.scanClear] →
    s.ias.val ≠ 0 ∧ ((s.ias.base = 0 ∧ s.ias.reg = 0x40) ∨ (s.ias.base = 32 ∧ s.ias.reg = 0x44))
  temps : ∀ f g pin v rest, s.flightOf q = some f → f.todo = .writeField g pin v :: rest →
    TempAgrees s.window g pin f.temp

theorem inv_own {s : State} (h : Inv s) (q : Nat) : OwnOk q s :=
  { fresh := h.fresh q
    sequence := h.sequence q
    holders := fun hf l hl => by
      have := h.holders l q hl
      rw [State.inFlight, hf] at this
      cases this
    scanner := h.scanner q
    active := h.active q
    temps := h.temps q }

theorem inv_alive {s : State} (h : Inv s) {q : Nat} (hq : s.inFlight q = true) : s.destroyed = false := by
  cases hd : s.destroyed with
  | false => rfl
  | true => rw [State.inFlight, h.ended hd q] at hq; cases hq

theorem StepBy.flightOf {q : Nat} {s t : State} (h : StepBy q s t) {r : Nat} (hr : r ≠ q) :
    t.flightOf r = s.flightOf r := by
  rw [State.flightOf, h.others r hr]; rfl

/-- A step of the operation of port `q` keeps the invariant if it keeps the part of `q`. -/
theorem inv_of_stepBy {q : Nat} {s t : State} (hI : Inv s) (hq : s.inFlight q = true) (h : StepBy q s t)
    (own : OwnOk q t) : Inv t := by
  have hother : ∀ r, r ≠ q → OwnOk r t := by
    intro r hr
    have ho := inv_own hI r
    have hfl := h.flightOf hr
    have hias : (t.ias.busy = true ∧ t.ias.owner = r) ↔ (s.ias.busy = true ∧ s.ias.owner = r) := by
      constructor
      · rintro ⟨hb, hown⟩
        have := h.claimed hb (by rw [hown]; exact hr)
        rw [← this]; exact ⟨hb, hown⟩
      · rintro ⟨hb, hown⟩
        have := h.scanner hb (by rw [hown]; exact hr)
        rw [this]; exact ⟨hb, hown⟩
    refine ⟨?_, ?_, ?_, ?_, ?_, ?_⟩
    · rw [h.others r hr]; exact ho.fresh
    · intro f hf
      rw [hfl] at hf
      obtain ⟨l, hp, hl⟩ := ho.sequence f hf
      exact ⟨l, hp, fun g => (h.locks g r hr).trans (hl g)⟩
    · intro hf l hl
      rw [hfl] at hf
      exact ho.holders hf l ((h.locks l r hr).1 hl)
    · rw [hias, hfl]; exact ho.scanner
    · intro f hf ht
      rw [hfl] at hf
      have hsc := ho.scanner.2 ⟨f, hf, by rw [ht]; rfl⟩
      rw [h.scanner hsc.1 (by rw [hsc.2]; exact hr)]
      exact ho.active f hf ht
    · intro f g pin v rest hf ht
      rw [hfl] at hf
      obtain ⟨l, hp, hl⟩ := ho.sequence f hf
      rw [ht] at hp
      have hg := (hl g).2 (position_writeField hp).1
      intro loc reg hloc hreg
      have hne : s.locks.holder g ≠ some q := by rw [hg]; exact fun e => hr (Option.some.inj e)
      obtain ⟨p, hp54, rfl, rfl⟩ := addr_eq_ok hloc
      rw [ofOffset_location hp54] at hreg
      have hreg' := Option.some.inj hreg
      rw [h.stored g reg (by rw [← hreg']; exact pinReg_ofLock p g) hne]
      exact ho.temps f g p v rest hf ht _ _ hloc (by rw [ofOffset_location hp54, hreg'])
  have hall : ∀ r, OwnOk r t := fun r => if e : r = q then e ▸ own else hother r e
  exact
    { ports := by rw [h.length]; exact hI.ports
      issuer := by rw [h.length, h.issuer]; exact hI.issuer
      window := h.window hI.window
      fresh := fun r => (hall r).fresh
      sequence := fun r => (hall r).sequence
      holders := fun l r hl => by
        by_contra hf
        rw [Bool.not_eq_true, State.inFlight_false] at hf
        exact (hall r).holders hf l hl
      scanner := fun r => (hall r).scanner
      active := fun r => (hall r).active
      temps := fun r => (hall r).temps
      ended := fun hd => by rw [h.destroyed, inv_alive hI hq] at hd; cases hd }

theorem State.fresh_setTodo {s : State} {q : Nat} (todo : List Action)
    (h : ∀ p : Port, s.ports[q]? = some p → p.flight.isSome = true → p.responded = false) (p : Port)
    (hp : (s.setTodo q todo).ports[q]? = some p) (hs : p.flight.isSome = true) : p.responded = false := by
  simp only [State.setTodo, State.modifyPort, List.getElem?_modify, if_true] at hp
  cases hx : s.ports[q]? with
  | none => rw [hx] at hp; cases hp
  | some x =>
    rw [hx] at hp
    have hp := Option.some.inj hp
    subst hp
    simp only [Port.withTodo, Option.isSome_map] at hs
    exact h x hx hs

/-- The part of a port whose operation goes on with the steps `todo`. -/
theorem OwnOk.of_setTodo {q : Nat} {x : State} {f : Flight} {todo : List Action} {h : Option LockFamily}
    (hf : x.flightOf q = some f)
    (fresh : ∀ p : Port, x.ports[q]? = some p → p.flight.isSome = true → p.responded = false)
    (pos : Position todo h) (locks : ∀ l, x.locks.holder l = some q ↔ h = some l)
    (scan : (x.ias.busy = true ∧ x.ias.owner = q) ↔ inScan todo = true)
    (active : todo = [.scanClear] →
      x.ias.val ≠ 0 ∧ ((x.ias.base = 0 ∧ x.ias.reg = 0x40) ∨ (x.ias.base = 32 ∧ x.ias.reg = 0x44)))
    (temps : ∀ g pin v rest, todo = .writeField g pin v :: rest → TempAgrees x.window g pin f.temp) :
    OwnOk q (x.setTodo q todo) := by
  have hfl : (x.setTodo q todo).flightOf q = some { f with todo := todo } := by simp [hf]
  refine ⟨State.fresh_setTodo todo fresh, ?_, ?_, ?_, ?_, ?_⟩
  · intro f' hf'
    rw [hfl] at hf'
    cases hf'
    exact ⟨h, pos, locks⟩
  · intro hn; rw [hfl] at hn; cases hn
  · rw [hfl]
    simp only [State.setTodo_fields, Option.some.injEq, exists_eq_left']
    exact scan
  · intro f' hf' ht
    rw [hfl] at hf'
    cases hf'
    exact active ht
  · intro f' g pin v rest hf' ht
    rw [hfl] at hf'
    cases hf'
    exact temps g pin v rest ht

/-- The part of a port whose operation is complete. -/
theorem OwnOk.of_finish {q : Nat} {x : State} (r0 r1 : Word) (locks : ∀ l, x.locks.holder l ≠ some q)
    (scan : ¬(x.ias.busy = true ∧ x.ias.owner = q)) : OwnOk q (x.finish q r0 r1) := by
  have hfl : (x.finish q r0 r1).flightOf q = none := by simp
  refine ⟨?_, ?_, fun _ => locks, ?_, ?_, ?_⟩
  · intro p hp hs
    simp only [State.finish, State.modifyPort, List.getElem?_modify, if_true] at hp
    cases hx : x.ports[q]? with
    | none => rw [hx] at hp; cases hp
    | some y =>
      rw [hx] at hp
      have hp := Option.some.inj hp
      subst hp
      cases hs
  all_goals simp only [hfl]
  · intro f hf; cases hf
  · simp only [State.finish_fields, reduceCtorEq, false_and, exists_false, iff_false]
    exact scan
  · intro f hf; cases hf
  · intro f g pin v rest hf; cases hf

/-! ### One step keeps the invariant -/

/-- What a port is known to be in while its operation takes a step. -/
structure AtStep (q : Nat) (s : State) (a : Action) (rest : List Action) (temp : Word) (h : Option LockFamily) :
    Prop where
  inv : Inv s
  flight : s.flightOf q = some ⟨a :: rest, temp⟩
  position : Position (a :: rest) h
  locks : ∀ l, s.locks.holder l = some q ↔ h = some l
  scanner : (s.ias.busy = true ∧ s.ias.owner = q) ↔ inScan (a :: rest) = true

theorem atStep {q : Nat} {s : State} {a : Action} {rest : List Action} {temp : Word} (hI : Inv s)
    (hf : s.flightOf q = some ⟨a :: rest, temp⟩) : ∃ h, AtStep q s a rest temp h := by
  obtain ⟨h, hp, hl⟩ := (inv_own hI q).sequence _ hf
  refine ⟨h, hI, hf, hp, hl, ?_⟩
  rw [(inv_own hI q).scanner, hf]
  simp

/-- The operation ends with an error. -/
theorem OwnOk.of_raiseIn {q : Nat} {x : State} {f : Flight} (st : Status) (hf : x.flightOf q = some f)
    (fresh : ∀ p : Port, x.ports[q]? = some p → p.flight.isSome = true → p.responded = false)
    (scan : ¬(x.ias.busy = true ∧ x.ias.owner = q)) : OwnOk q (raiseIn q st x) := by
  refine OwnOk.of_setTodo (x := x.dropLocks q) (h := none) hf fresh (.plain rfl) ?_ ?_ ?_ ?_
  · intro l; simp
  · simpa [inScan, raise] using scan
  · intro e; simp [raise] at e
  · intro g pin v rest e; simp [raise] at e

namespace AtStep

variable {q : Nat} {s : State} {a : Action} {rest : List Action} {temp : Word} {h : Option LockFamily}

theorem fresh (c : AtStep q s a rest temp h) :
    ∀ p : Port, s.ports[q]? = some p → p.flight.isSome = true → p.responded = false := c.inv.fresh q

theorem notScanning (c : AtStep q s a rest temp h) (hn : inScan (a :: rest) = false) :
    ¬(s.ias.busy = true ∧ s.ias.owner = q) := by
  rw [c.scanner, hn]; simp

theorem plain_inScan {todo : List Action} (hp : plainOk todo = true) : inScan todo = false := by
  unfold plainOk at hp
  split at hp <;> first | rfl | cases hp

/-- After a plain sequence is entered, nothing is held. -/
theorem enterPlain {x : State} {f : Flight} {todo : List Action} (hf : x.flightOf q = some f)
    (fresh : ∀ p : Port, x.ports[q]? = some p → p.flight.isSome = true → p.responded = false)
    (hp : plainOk todo = true) (locks : ∀ l, x.locks.holder l ≠ some q)
    (scan : ¬(x.ias.busy = true ∧ x.ias.owner = q)) : OwnOk q (x.setTodo q todo) := by
  refine OwnOk.of_setTodo (h := none) hf fresh (.plain hp) ?_ ?_ ?_ ?_
  · intro l; simp [locks l]
  · rw [plain_inScan hp]; simpa using scan
  · rintro rfl; simp [plainOk] at hp
  · rintro g pin v r rfl; simp [plainOk] at hp

theorem check_keeps {pin : Int} {bad : Option Status} (c : AtStep q s (.check pin bad) rest temp h) :
    StepBy q s (checkStep q pin bad rest s) ∧ OwnOk q (checkStep q pin bad rest s) := by
  obtain ⟨rfl, hr⟩ := position_check c.position
  have hs := c.notScanning rfl
  have hb := StepBy.refl q s
  unfold checkStep
  split
  · exact ⟨hb.raiseIn _, .of_raiseIn _ c.flight c.fresh hs⟩
  · split
    · exact ⟨hb.raiseIn _, .of_raiseIn _ c.flight c.fresh hs⟩
    · cases bad with
      | some st => exact ⟨hb.raiseIn _, .of_raiseIn _ c.flight c.fresh hs⟩
      | none => exact ⟨hb.setTodo _, enterPlain c.flight c.fresh hr (fun l => by simp [c.locks l]) hs⟩

theorem acquire_keeps {f : LockFamily} (c : AtStep q s (.acquire f) rest temp h) :
    StepBy q s (acquireStep q f rest s) ∧ OwnOk q (acquireStep q f rest s) := by
  obtain ⟨rfl, hr⟩ := position_acquire c.position
  have hs := c.notScanning rfl
  unfold acquireStep
  cases hh : s.locks.holder f with
  | some r =>
    have hrq : r ≠ q := fun e => by have := (c.locks f).1 (e ▸ hh); cases this
    simp only [hrq, if_false]
    exact ⟨.refl q s, inv_own c.inv q⟩
  | none =>
    have hst : StepBy q s (s.setLock f (some q)) :=
      { StepBy.refl q s with
        locks := fun l r hr => by
          simp only [State.setLock_fields, Locks.holder_assign]
          split
          · next e =>
            subst e
            rw [hh]; simp [Ne.symm hr]
          · exact Iff.rfl }
    refine ⟨hst.setTodo _, OwnOk.of_setTodo (h := some f) c.flight c.fresh hr ?_ ?_ ?_ ?_⟩
    · intro l
      simp only [State.setLock_fields, Locks.holder_assign]
      split
      · next e => simp [e]
      · next e => simp [c.locks l, e]
    · cases hr with
      | _ => simpa [inScan] using hs
    · rintro rfl; cases hr
    · intro g pin v r e
      subst e
      have hp := c.position
      cases hp with
      | plain hp => simp [plainOk] at hp

theorem readField_keeps {f : LockFamily} {pin : Int} (c : AtStep q s (.readField f pin) rest temp h) :
    StepBy q s (readFieldStep q f pin rest s) ∧ OwnOk q (readFieldStep q f pin rest s) := by
  obtain ⟨rfl, v, rest', rfl, hr⟩ := position_readField c.position
  have hs := c.notScanning rfl
  unfold readFieldStep
  cases ha : addr pin f.family with
  | error st => exact ⟨(StepBy.refl q s).raiseIn _, .of_raiseIn _ c.flight c.fresh hs⟩
  | ok l =>
    obtain ⟨p, hp, rfl, rfl⟩ := addr_eq_ok ha
    simp only [memRead_location hp]
    split
    · next x hx =>
      split at hx
      · cases hx
      · cases hx
        refine ⟨((StepBy.afterRead q s _ _).setTemp _).setTodo _, OwnOk.of_setTodo (h := some f)
          (f := ⟨_, s.window.read (pinReg p f.family) (s.drawAt 0).bits⟩)
          (by simp only [State.flightOf_setTemp, if_true, State.flightOf_afterRead, c.flight]; rfl)
          ?_ (.writing _ _ _ hr) c.locks ?_ ?_ ?_⟩
        · intro y hy hfl
          simp only [State.setTemp, State.modifyPort, List.getElem?_modify, if_true] at hy
          cases hz : s.ports[q]? with
          | none => rw [State.afterRead_fields _ _ _ _ |>.2.2.2.2.1, hz] at hy; cases hy
          | some z =>
            rw [State.afterRead_fields _ _ _ _ |>.2.2.2.2.1, hz] at hy
            have hy := Option.some.inj hy
            subst hy
            simp only [Port.withTemp, Option.isSome_map] at hfl
            exact c.fresh z hz hfl
        · simpa [inScan] using hs
        · intro e; cases e
        · intro g pin' v' r e
          cases e
          intro loc reg hloc hreg
          rw [ha] at hloc
          cases hloc
          rw [ofOffset_location hp] at hreg
          cases hreg
          exact WindowOk.read_agrees c.inv.window (fun i => by cases f <;> simp [pinReg, LockFamily.family]) _
    · next x hx =>
      split at hx
      · cases hx
        exact ⟨(StepBy.afterRead q s _ _).accessFailed, .of_raiseIn _ c.flight c.fresh hs⟩
      · cases hx

theorem writeField_keeps {f : LockFamily} {pin : Int} {v : Word} (c : AtStep q s (.writeField f pin v) rest temp h) :
    StepBy q s (writeFieldStep q f pin v temp rest s) ∧ OwnOk q (writeFieldStep q f pin v temp rest s) := by
  obtain ⟨rfl, rest', rfl, hr⟩ := position_writeField c.position
  have hs := c.notScanning rfl
  unfold writeFieldStep
  cases ha : addr pin f.family with
  | error st => exact ⟨(StepBy.refl q s).raiseIn _, .of_raiseIn _ c.flight c.fresh hs⟩
  | ok l =>
    obtain ⟨p, hp, rfl, rfl⟩ := addr_eq_ok ha
    simp only [memWrite_location hp f.family_ne_readLevel]
    have hw : ∀ x, StepBy q s (s.afterWrite q (location p f.family).byteOffset (pinReg p f.family) x) := fun x =>
      StepBy.afterWrite q s _ _ x (fun g hg => by
        rw [Reg.ofLock_unique hg (pinReg_ofLock p f)]; exact (c.locks f).2 rfl)
    split
    · next x hx =>
      obtain ⟨-, rfl⟩ := Prod.mk.inj hx
      refine ⟨(hw _).setTodo _, OwnOk.of_setTodo (h := some f) c.flight c.fresh (.releasing _ hr) c.locks ?_ ?_ ?_⟩
      · simpa [inScan] using hs
      · intro e; cases e
      · intro g pin' v' r e; cases e
    · next x hx =>
      obtain ⟨-, rfl⟩ := Prod.mk.inj hx
      exact ⟨(hw _).accessFailed, .of_raiseIn _ c.flight c.fresh hs⟩

theorem release_keeps {f : LockFamily} (c : AtStep q s (.release f) rest temp h) :
    StepBy q s (releaseStep q f rest s) ∧ OwnOk q (releaseStep q f rest s) := by
  obtain ⟨rfl, hr⟩ := position_release c.position
  have hst : StepBy q s (s.setLock f none) :=
    { StepBy.refl q s with
      locks := fun l r hr => by
        simp only [State.setLock_fields, Locks.holder_assign]
        split
        · next e =>
          subst e
          rw [(c.locks f).2 rfl]; simp [Ne.symm hr]
        · exact Iff.rfl }
  refine ⟨hst.setTodo _, enterPlain c.flight c.fresh hr (fun l => ?_) (c.notScanning rfl)⟩
  simp only [State.setLock_fields, Locks.holder_assign]
  split
  · simp
  · next e => rw [ne_eq, c.locks l]; simp [e]

theorem writeOne_keeps {f : Family} {pin : Int} (c : AtStep q s (.writeOne f pin) rest temp h) :
    StepBy q s (writeOneStep q f pin rest s) ∧ OwnOk q (writeOneStep q f pin rest s) := by
  obtain ⟨rfl, hf, hr⟩ := position_writeOne c.position
  have hs := c.notScanning rfl
  unfold writeOneStep
  cases ha : addr pin f with
  | error st => exact ⟨(StepBy.refl q s).raiseIn _, .of_raiseIn _ c.flight c.fresh hs⟩
  | ok l =>
    obtain ⟨p, hp, rfl, rfl⟩ := addr_eq_ok ha
    simp only [memWrite_location hp (show f ≠ .readLevel by rcases hf with rfl | rfl <;> simp)]
    have hw : ∀ x, StepBy q s (s.afterWrite q (location p f).byteOffset (pinReg p f) x) := fun x =>
      StepBy.afterWrite q s _ _ x (fun g hg => by rcases hf with rfl | rfl <;> cases g <;> exact hg.elim)
    split
    · next x hx =>
      obtain ⟨-, rfl⟩ := Prod.mk.inj hx
      exact ⟨(hw _).setTodo _, enterPlain c.flight c.fresh hr (fun l => by simp [c.locks l]) hs⟩
    · next x hx =>
      obtain ⟨-, rfl⟩ := Prod.mk.inj hx
      exact ⟨(hw _).accessFailed, .of_raiseIn _ c.flight c.fresh hs⟩

theorem queryFunction_keeps {pin : Int} (c : AtStep q s (.queryFunction pin) rest temp h) :
    StepBy q s (queryFunctionStep q pin s) ∧ OwnOk q (queryFunctionStep q pin s) := by
  obtain ⟨rfl, rfl⟩ := position_end c.position (.inr (.inl ⟨_, rfl⟩))
  have hs := c.notScanning rfl
  unfold queryFunctionStep
  cases ha : addr pin .functionSelect with
  | error st => exact ⟨(StepBy.refl q s).raiseIn _, .of_raiseIn _ c.flight c.fresh hs⟩
  | ok l =>
    obtain ⟨p, hp, rfl, rfl⟩ := addr_eq_ok ha
    simp only [memRead_location hp]
    split
    · next x hx =>
      split at hx
      · cases hx
      · cases hx
        split <;>
          exact ⟨(StepBy.afterRead q s _ _).setTodo _,
            enterPlain c.flight c.fresh rfl (fun l => by simp [c.locks l]) hs⟩
    · next x hx =>
      split at hx
      · cases hx
        exact ⟨(StepBy.afterRead q s _ _).accessFailed, .of_raiseIn _ c.flight c.fresh hs⟩
      · cases hx

theorem queryLevel_keeps {pin : Int} {fn : Word} (c : AtStep q s (.queryLevel pin fn) rest temp h) :
    StepBy q s (queryLevelStep q pin fn s) ∧ OwnOk q (queryLevelStep q pin fn s) := by
  obtain ⟨rfl, rfl⟩ := position_end c.position (.inr (.inr ⟨_, _, rfl⟩))
  have hs := c.notScanning rfl
  unfold queryLevelStep
  cases ha : addr pin .readLevel with
  | error st => exact ⟨(StepBy.refl q s).raiseIn _, .of_raiseIn _ c.flight c.fresh hs⟩
  | ok l =>
    obtain ⟨p, hp, rfl, rfl⟩ := addr_eq_ok ha
    simp only [memRead_location hp]
    split
    · next x hx =>
      split at hx
      · cases hx
      · cases hx
        exact ⟨(StepBy.afterRead q s _ _).setTodo _,
          enterPlain c.flight c.fresh rfl (fun l => by simp [c.locks l]) hs⟩
    · next x hx =>
      split at hx
      · cases hx
        exact ⟨(StepBy.afterRead q s _ _).accessFailed, .of_raiseIn _ c.flight c.fresh hs⟩
      · cases hx

theorem respond_keeps {r0 r1 : Word} (c : AtStep q s (.respond r0 r1) rest temp h) :
    StepBy q s (s.finish q r0 r1) ∧ OwnOk q (s.finish q r0 r1) := by
  obtain ⟨rfl, rfl⟩ := position_end c.position (.inl ⟨_, _, rfl⟩)
  exact ⟨(StepBy.refl q s).finish _ _, .of_finish _ _ (fun l => by simp [c.locks l]) (c.notScanning rfl)⟩

/-- ACK goes on: it owns the busy scanner of `x`. -/
theorem scanOn {x : State} {f : Flight} {todo : List Action} (hf : x.flightOf q = some f)
    (fresh : ∀ p : Port, x.ports[q]? = some p → p.flight.isSome = true → p.responded = false)
    (hp : Position todo none) (hsc : inScan todo = true) (locks : ∀ l, x.locks.holder l ≠ some q)
    (scan : x.ias.busy = true ∧ x.ias.owner = q)
    (active : todo = [.scanClear] →
      x.ias.val ≠ 0 ∧ ((x.ias.base = 0 ∧ x.ias.reg = 0x40) ∨ (x.ias.base = 32 ∧ x.ias.reg = 0x44))) :
    OwnOk q (x.setTodo q todo) := by
  refine OwnOk.of_setTodo (h := none) hf fresh hp ?_ ?_ active ?_
  · intro l; simp [locks l]
  · simp [hsc, scan]
  · rintro g pin v r rfl; simp [inScan] at hsc

theorem claim_keeps (c : AtStep q s .claimScanner rest temp h) :
    StepBy q s (claimStep q s) ∧ OwnOk q (claimStep q s) := by
  obtain ⟨rfl, rfl⟩ := position_scan c.position (.inl rfl)
  unfold claimStep
  split
  · exact ⟨.refl q s, inv_own c.inv q⟩
  · next hb =>
    have hst : StepBy q s (s.setIas { s.ias with busy := true, owner := q }) :=
      (StepBy.refl q s).setIas (fun e => absurd e hb) (fun _ => rfl)
    split
    · exact ⟨hst.setTodo _, scanOn c.flight c.fresh (.answer _) rfl (fun l => by simp [c.locks l]) ⟨rfl, rfl⟩
        (fun e => by simp at e)⟩
    · exact ⟨hst.setTodo _, scanOn c.flight c.fresh .low rfl (fun l => by simp [c.locks l]) ⟨rfl, rfl⟩
        (fun e => by simp at e)⟩

theorem scanFailed_keeps {x : State} (hx : StepBy q s x) (hf : x.flightOf q = some ⟨a :: rest, temp⟩)
    (fresh : ∀ p : Port, x.ports[q]? = some p → p.flight.isSome = true → p.responded = false)
    (locks : ∀ l, x.locks.holder l ≠ some q) (scan : x.ias.busy = true ∧ x.ias.owner = q) :
    StepBy q s (scanFailed q x) ∧ OwnOk q (scanFailed q x) :=
  ⟨hx.scanFailed, scanOn (x := x.fail) hf fresh (.answer _) rfl locks scan (fun e => by simp at e)⟩

theorem scanLow_keeps (c : AtStep q s .scanLow rest temp h) :
    StepBy q s (scanLowStep q s) ∧ OwnOk q (scanLowStep q s) := by
  obtain ⟨rfl, rfl⟩ := position_scan c.position (.inr (.inl rfl))
  have hs := c.scanner.2 rfl
  unfold scanLowStep
  simp only [scanOffset_low, memRead_location (show 0 < 54 by omega)]
  split
  · next x hx =>
    split at hx
    · cases hx
    · cases hx
      split
      · next hv =>
        have hst := ((StepBy.afterRead q s (location 0 .eventStatus).byteOffset
          (some (s.window.read (pinReg 0 .eventStatus) (s.drawAt 0).bits))).setIas (fun _ => hs.2)
          (i := { s.ias with val := s.window.read (pinReg 0 .eventStatus) (s.drawAt 0).bits, base := 0,
                             reg := (location 0 .eventStatus).byteOffset }) (fun _ => hs.2))
        refine ⟨hst.setTodo _, scanOn c.flight c.fresh .clear rfl (fun l => by simp [c.locks l]) hs (fun _ => ⟨hv, .inl ⟨rfl, rfl⟩⟩)⟩
      · exact ⟨(StepBy.afterRead q s _ _).setTodo _,
          scanOn c.flight c.fresh .high rfl (fun l => by simp [c.locks l]) hs (fun e => by simp at e)⟩
  · next x hx =>
    split at hx
    · cases hx
      exact scanFailed_keeps (StepBy.afterRead q s _ _) c.flight c.fresh (fun l => by simp [c.locks l]) hs
    · cases hx

theorem scanHigh_keeps (c : AtStep q s .scanHigh rest temp h) :
    StepBy q s (scanHighStep q s) ∧ OwnOk q (scanHighStep q s) := by
  obtain ⟨rfl, rfl⟩ := position_scan c.position (.inr (.inr (.inl rfl)))
  have hs := c.scanner.2 rfl
  unfold scanHighStep
  simp only [scanOffset_high, memRead_location (show 32 < 54 by omega)]
  split
  · next x hx =>
    split at hx
    · cases hx
    · cases hx
      have hst := ((StepBy.afterRead q s (location 32 .eventStatus).byteOffset
        (some (s.window.read (pinReg 32 .eventStatus) (s.drawAt 0).bits))).setIas (fun _ => hs.2)
        (i := { s.ias with val := s.window.read (pinReg 32 .eventStatus) (s.drawAt 0).bits, base := 32,
                           reg := (location 32 .eventStatus).byteOffset }) (fun _ => hs.2))
      split
      · exact ⟨hst.setTodo _,
          scanOn c.flight c.fresh (.answer _) rfl (fun l => by simp [c.locks l]) hs (fun e => by simp at e)⟩
      · next hv =>
        exact ⟨hst.setTodo _,
          scanOn c.flight c.fresh .clear rfl (fun l => by simp [c.locks l]) hs (fun _ => ⟨hv, .inr ⟨rfl, rfl⟩⟩)⟩
  · next x hx =>
    split at hx
    · cases hx
      exact scanFailed_keeps (StepBy.afterRead q s _ _) c.flight c.fresh (fun l => by simp [c.locks l]) hs
    · cases hx

theorem scanClear_keeps (c : AtStep q s .scanClear rest temp h) :
    StepBy q s (scanClearStep q s) ∧ OwnOk q (scanClearStep q s) := by
  obtain ⟨rfl, rfl⟩ := position_scan c.position (.inr (.inr (.inr (.inl rfl))))
  have hs := c.scanner.2 rfl
  obtain ⟨-, hreg⟩ := (inv_own c.inv q).active _ c.flight rfl
  have key : ∀ p, p < 54 → (location p .eventStatus).byteOffset = s.ias.reg →
      StepBy q s (scanClearStep q s) ∧ OwnOk q (scanClearStep q s) := by
    intro p hp hoff
    unfold scanClearStep
    rw [← hoff]
    simp only [memWrite_location hp (show Family.eventStatus ≠ .readLevel by simp)]
    have hw : ∀ x, StepBy q s (s.afterWrite q (location p .eventStatus).byteOffset (pinReg p .eventStatus) x) :=
      fun x => StepBy.afterWrite q s _ _ x (fun g hg => by cases g <;> exact hg.elim)
    split
    · next x hx =>
      obtain ⟨-, rfl⟩ := Prod.mk.inj hx
      exact ⟨(hw _).setTodo _,
        scanOn c.flight c.fresh (.answer _) rfl (fun l => by simp [c.locks l]) hs (fun e => by simp at e)⟩
    · next x hx =>
      obtain ⟨-, rfl⟩ := Prod.mk.inj hx
      exact scanFailed_keeps (hw _) c.flight c.fresh (fun l => by simp [c.locks l]) hs
  rcases hreg with ⟨-, hr⟩ | ⟨-, hr⟩
  · exact key 0 (by omega) (by rw [hr]; rfl)
  · exact key 32 (by omega) (by rw [hr]; rfl)

theorem respondScan_keeps {i : Nat} (c : AtStep q s (.respondScan i) rest temp h) :
    StepBy q s (respondScanStep q i s) ∧ OwnOk q (respondScanStep q i s) := by
  obtain ⟨rfl, rfl⟩ := position_scan c.position (.inr (.inr (.inr (.inr ⟨_, rfl⟩))))
  have hs := c.scanner.2 rfl
  exact ⟨((StepBy.refl q s).setIas (fun _ => hs.2) (fun e => by cases e)).finish _ _,
    .of_finish _ _ (fun l => by simp [c.locks l]) (fun e => by cases e.1)⟩

/-- Every step keeps to its own (`StepBy`), and keeps the invariant's part of its port. -/
theorem act_keeps (c : AtStep q s a rest temp h) :
    StepBy q s (act q temp a rest s) ∧ OwnOk q (act q temp a rest s) := by
  cases a with
  | check pin bad => exact c.check_keeps
  | acquire f => exact c.acquire_keeps
  | readField f pin => exact c.readField_keeps
  | writeField f pin v => exact c.writeField_keeps
  | release f => exact c.release_keeps
  | writeOne f pin => exact c.writeOne_keeps
  | queryFunction pin => exact c.queryFunction_keeps
  | queryLevel pin fn => exact c.queryLevel_keeps
  | claimScanner => exact c.claim_keeps
  | scanLow => exact c.scanLow_keeps
  | scanHigh => exact c.scanHigh_keeps
  | scanClear => exact c.scanClear_keeps
  | respondScan i => exact c.respondScan_keeps
  | respond r0 r1 => exact c.respond_keeps

end AtStep

/-- The next step of any operation keeps to its own. -/
theorem advance_stepBy {s : State} (hI : Inv s) (q : Nat) : StepBy q s (advance q s) := by
  unfold advance
  cases hf : s.flightOf q with
  | none => exact .refl q s
  | some f =>
    obtain ⟨todo, temp⟩ := f
    cases todo with
    | nil => exact .refl q s
    | cons a rest =>
      obtain ⟨h, c⟩ := atStep hI hf
      exact c.act_keeps.1

/-- The next step of any operation keeps the invariant. -/
theorem inv_advance {s : State} (hI : Inv s) (q : Nat) : Inv (advance q s) := by
  have hst := advance_stepBy hI q
  unfold advance at *
  cases hf : s.flightOf q with
  | none => exact hI
  | some f =>
    obtain ⟨todo, temp⟩ := f
    cases todo with
    | nil => exact hI
    | cons a rest =>
      obtain ⟨h, c⟩ := atStep hI hf
      exact inv_of_stepBy hI ((s.inFlight_iff q).2 ⟨_, hf⟩) c.act_keeps.1 c.act_keeps.2

/-! ### The start of an operation, and the moves of the other agents -/

/-- The sequence of every request starts at a position that holds nothing (R130, R160). -/
theorem startOk_instrSteps (i : Instr) : plainOk (instrSteps i) = true ∨ instrSteps i = [.claimScanner] := by
  cases i with
  | ack => exact .inr rfl
  | addr pin family =>
    left
    simp only [instrSteps, addrSteps]
    split
    · rfl
    · split <;> rfl
  | cfgOut pin level =>
    left
    simp only [instrSteps, cfgOutSteps, rmw]
    split <;> simp [plainOk, respondOk]
  | cfgIn pin => left; simp [instrSteps, cfgInSteps, rmw, plainOk, respondOk]
  | edgeEn pin edge =>
    left
    simp only [instrSteps, edgeEnSteps, rmw]
    split <;> simp [plainOk, respondOk]
  | edgeDis pin => left; simp [instrSteps, edgeDisSteps, rmw, plainOk, respondOk]
  | query pin => exact .inl rfl

theorem startOk_requestSteps (w : Word) : plainOk (requestSteps w) = true ∨ requestSteps w = [.claimScanner] := by
  unfold requestSteps
  split
  · exact startOk_instrSteps _
  · exact .inl rfl

/-- An update of a port that leaves the operation in flight and the validity of the response. -/
theorem inv_modifyPort {s : State} (hI : Inv s) (q : Nat) {f : Port → Port}
    (hf : ∀ p, (f p).flight = p.flight) (hr : ∀ p, (f p).responded = p.responded) : Inv (s.modifyPort q f) := by
  have hfl : ∀ r, (s.modifyPort q f).flightOf r = s.flightOf r := by
    intro r
    rw [State.flightOf_modifyPort]
    split
    · next e => subst e; simp only [hf]; rfl
    · rfl
  have hin : ∀ r, (s.modifyPort q f).inFlight r = s.inFlight r := fun r => by simp only [State.inFlight, hfl]
  exact
    { ports := by simpa using hI.ports
      issuer := by simpa using hI.issuer
      window := hI.window
      fresh := fun r p hp hs => by
        simp only [State.modifyPort, List.getElem?_modify] at hp
        cases hx : s.ports[r]? with
        | none => rw [hx] at hp; cases hp
        | some x =>
          rw [hx] at hp
          have hp := Option.some.inj hp
          subst hp
          by_cases e : q = r
          · simp only [e, if_true] at hs ⊢
            rw [hr]; exact hI.fresh r x hx (by rw [← hf]; exact hs)
          · simp only [e, if_false] at hs ⊢
            exact hI.fresh r x hx hs
      sequence := fun r g hg => hI.sequence r g (by rw [← hfl]; exact hg)
      holders := fun l r hl => by rw [hin]; exact hI.holders l r hl
      scanner := fun r => by rw [hfl]; exact hI.scanner r
      active := fun r g hg => hI.active r g (by rw [← hfl]; exact hg)
      temps := fun r g l pin v rest hg => hI.temps r g l pin v rest (by rw [← hfl]; exact hg)
      ended := fun hd r => by rw [hfl]; exact hI.ended hd r }

/-- An operation begins on a port that is free to accept it. -/
theorem inv_begin {s : State} (hI : Inv s) {q : Nat} (hq : s.inFlight q = false) (hd : s.destroyed = false)
    {todo : List Action} (ht : plainOk todo = true ∨ todo = [.claimScanner]) : Inv (begin q todo s) := by
  have hpos : Position todo none ∧ inScan todo = false := by
    rcases ht with ht | rfl
    · exact ⟨.plain ht, AtStep.plain_inScan ht⟩
    · exact ⟨.claim, rfl⟩
  have hne : ∀ r, r ≠ q → (begin q todo s).flightOf r = s.flightOf r := fun r hr => by
    rw [flightOf_begin, if_neg (Ne.symm hr)]
  have hsub : ∀ f, (begin q todo s).flightOf q = some f → f = ⟨todo, 0⟩ := by
    intro f hf
    rw [flightOf_begin, if_pos rfl] at hf
    split at hf <;> cases hf
    rfl
  have hnone := (s.inFlight_false q).1 hq
  have hfree : ∀ l, s.locks.holder l ≠ some q := fun l hl => by
    have := hI.holders l q hl; rw [hq] at this; cases this
  exact
    { ports := by simpa using hI.ports
      issuer := by simpa using hI.issuer
      window := hI.window
      fresh := fun r p hp hs => by
        simp only [begin, State.modifyPort, List.getElem?_modify] at hp
        cases hx : s.ports[r]? with
        | none => rw [hx] at hp; cases hp
        | some x =>
          rw [hx] at hp
          have hp := Option.some.inj hp
          subst hp
          by_cases e : q = r
          · simp only [e, if_true]; rfl
          · simp only [e, if_false] at hs ⊢
            exact hI.fresh r x hx hs
      sequence := fun r f hf => by
        by_cases e : r = q
        · subst e
          rw [hsub f hf]
          exact ⟨none, hpos.1, fun l => by simp [hfree l]⟩
        · exact hI.sequence r f (by rw [← hne r e]; exact hf)
      holders := fun l r hl => by
        have e : r ≠ q := fun e => hfree l (e ▸ hl)
        rw [State.inFlight, hne r e]
        exact hI.holders l r hl
      scanner := fun r => by
        by_cases e : r = q
        · subst e
          have h1 : ¬(s.ias.busy = true ∧ s.ias.owner = r) := by
            rw [hI.scanner r, hnone]; simp
          simp only [begin_fields, h1, false_iff, not_exists, not_and]
          intro f hf
          rw [hsub f hf, hpos.2]; simp
        · rw [hne r e]; exact hI.scanner r
      active := fun r f hf h => by
        by_cases e : r = q
        · subst e
          rw [hsub f hf] at h
          simp only at h
          rw [h] at hpos
          cases hpos.2
        · exact hI.active r f (by rw [← hne r e]; exact hf) h
      temps := fun r f g pin v rest hf h => by
        by_cases e : r = q
        · subst e
          rw [hsub f hf] at h
          simp only at h
          rw [h] at hpos
          exact absurd (position_writeField hpos.1).1 (by simp)
        · exact hI.temps r f g pin v rest (by rw [← hne r e]; exact hf) h
      ended := fun h => by rw [begin_fields _ _ _ |>.2.2.2.2.1, hd] at h; cases h }

/-- A move of the window hardware keeps the invariant: it leaves every FunctionSelect, REN and FEN register (R59). -/
theorem inv_setWindow {s : State} (hI : Inv s) {w : Window} (hw : WindowOk w)
    (hst : ∀ r, (∀ i, r ≠ .eds i) → w.stored r = s.window.stored r) : Inv (s.setWindow w) :=
  { hI with
    window := hw
    temps := fun q f g pin v rest hf h l r hl hr => by
      have := hI.temps q f g pin v rest hf h l r hl hr
      rw [State.setWindow_fields _ _ |>.1, hst r _]
      · exact this
      · obtain ⟨p, hp, rfl, rfl⟩ := addr_eq_ok hl
        rw [ofOffset_location hp] at hr
        cases hr
        intro i
        cases g <;> simp [pinReg, LockFamily.family] }

/-- Fields the invariant does not speak of. -/
theorem inv_congr {s t : State} (hI : Inv s) (hp : t.ports = s.ports) (hi : t.issuer < s.ports.length)
    (hw : t.window = s.window) (hl : t.locks = s.locks) (ha : t.ias = s.ias) (hd : t.destroyed = s.destroyed) :
    Inv t := by
  have hfl := fun r => State.flightOf_congr hp r
  have hin : ∀ r, t.inFlight r = s.inFlight r := fun r => by simp only [State.inFlight, hfl]
  exact
    { ports := by rw [hp]; exact hI.ports
      issuer := by rw [hp]; exact hi
      window := by rw [hw]; exact hI.window
      fresh := by rw [hp]; exact hI.fresh
      sequence := fun r g hg => by rw [hl]; exact hI.sequence r g (by rw [← hfl]; exact hg)
      holders := fun l r h => by rw [hin]; rw [hl] at h; exact hI.holders l r h
      scanner := fun r => by rw [hfl, ha]; exact hI.scanner r
      active := fun r g hg => by rw [ha]; exact hI.active r g (by rw [← hfl]; exact hg)
      temps := fun r g l pin v rest hg => by rw [hw]; exact hI.temps r g l pin v rest (by rw [← hfl]; exact hg)
      ended := fun h r => by rw [hfl]; rw [hd] at h; exact hI.ended h r }

theorem accepts_iff {q : Nat} {s : State} :
    accepts q s = true ↔ q < s.ports.length ∧ s.inFlight q = false ∧ s.destroyed = false := by
  simp [accepts, and_assoc]

/-- Every move of every agent keeps the invariant. -/
theorem inv_makeMove {s : State} (hI : Inv s) (m : Move) : Inv (makeMove m s) := by
  cases m with
  | advance r => exact inv_advance hI r
  | request r w =>
    rw [makeMove]
    split
    · next h =>
      obtain ⟨-, hf, hd⟩ := accepts_iff.1 h
      have hI' : Inv (s.modifyPort r (·.latch w)) := inv_modifyPort hI r (fun _ => rfl) (fun _ => rfl)
      refine inv_begin hI' ?_ hd (startOk_requestSteps w)
      rw [State.inFlight_false] at hf ⊢
      rw [State.flightOf_modifyPort, if_pos rfl]
      exact hf
    · exact hI
  | level p v =>
    exact inv_setWindow hI (WindowOk.changeLevel hI.window p v) (fun r hr => s.window.stored_changeLevel p v hr)
  | event p =>
    exact inv_setWindow hI (WindowOk.otherEvent hI.window p) (fun r hr => s.window.stored_otherEvent p hr)
  | redraw => exact inv_congr hI rfl hI.issuer rfl rfl rfl rfl

/-- Every turn keeps the invariant. -/
theorem inv_turn {s : State} (hI : Inv s) (q : Nat) : Inv (turn q s) := by
  unfold turn
  split
  · next m rest _ =>
    exact inv_makeMove (s := { s with agenda := rest }) (inv_congr hI rfl hI.issuer rfl rfl rfl rfl) m
  · split
    · exact inv_advance hI _
    · exact inv_advance hI q

end Sys2Proof.Machine
end

