-- ==== Sys2Proof/Laws/Progress.lean ====
section
/-! SUPPORT. Progress (R65, R205, R220): every step that is not held uses up fuel, an operation that holds a lock or the
scanner is never held itself, so every turn of a machine that meets the invariant uses up fuel. -/

namespace Sys2Proof.Machine

open Sys2Proof.Safety

/-- The steps the operation of a port can still take. -/
def State.weightOf (s : State) (q : Nat) : Nat :=
  match s.flightOf q with
  | none => 0
  | some f => stepsWeight f.todo

theorem State.weightOf_congr {s t : State} {q : Nat} (h : t.flightOf q = s.flightOf q) :
    t.weightOf q = s.weightOf q := by
  simp only [State.weightOf, h]

theorem weightOf_setTodo {x : State} {q : Nat} {f : Flight} (h : x.flightOf q = some f) (todo : List Action) :
    (x.setTodo q todo).weightOf q = stepsWeight todo := by
  simp [State.weightOf, h]

theorem weightOf_finish (x : State) (q : Nat) (r0 r1 : Word) : (x.finish q r0 r1).weightOf q = 0 := by
  simp [State.weightOf]

theorem weightOf_raiseIn {x : State} {q : Nat} {f : Flight} (h : x.flightOf q = some f) (st : Status) :
    (raiseIn q st x).weightOf q = 1 :=
  weightOf_setTodo (x := x.dropLocks q) h _

theorem weightOf_accessFailed {x : State} {q : Nat} {f : Flight} (h : x.flightOf q = some f) :
    (accessFailed q x).weightOf q = 1 :=
  weightOf_raiseIn (x := x.fail) h _

theorem weightOf_scanFailed {x : State} {q : Nat} {f : Flight} (h : x.flightOf q = some f) :
    (scanFailed q x).weightOf q = 1 :=
  weightOf_setTodo (x := x.fail) h _

theorem memRead_flightOf {q off : Nat} {s x : State} {v : Option Word} (h : memRead q off s = (v, x)) (r : Nat) :
    x.flightOf r = s.flightOf r := by
  unfold memRead at h
  split at h <;> (cases h; rfl)

theorem memWrite_flightOf {q off : Nat} {v : Word} {s x : State} {b : Bool} (h : memWrite q off v s = (b, x))
    (r : Nat) : x.flightOf r = s.flightOf r := by
  unfold memWrite at h
  split at h <;> (obtain ⟨-, rfl⟩ := Prod.mk.inj h; rfl)

/-- A step that is not held leaves fewer steps to take. -/
theorem weightOf_act {q : Nat} {s : State} {a : Action} {rest : List Action} {temp : Word}
    (hf : s.flightOf q = some ⟨a :: rest, temp⟩) (hw : waitsFor q s a = none) :
    (act q temp a rest s).weightOf q < stepsWeight (a :: rest) := by
  cases a with
  | check pin bad =>
    simp only [act, checkStep, stepsWeight, actionWeight]
    split
    · rw [weightOf_raiseIn hf]; omega
    · split
      · rw [weightOf_raiseIn hf]; omega
      · split
        · rw [weightOf_raiseIn hf]; omega
        · rw [weightOf_setTodo hf]; omega
  | acquire f =>
    simp only [act, acquireStep, stepsWeight, actionWeight]
    split
    · rw [weightOf_setTodo (x := s.setLock f (some q)) hf]; omega
    · next r hr =>
      have : r = q := by
        simp only [waitsFor, hr] at hw
        by_contra hne
        rw [if_neg hne] at hw
        cases hw
      rw [if_pos this, weightOf_setTodo hf]; omega
  | readField f pin =>
    simp only [act, readFieldStep, stepsWeight, actionWeight]
    split
    · rw [weightOf_raiseIn hf]; omega
    · split
      · next r x hx =>
        have hfx := (memRead_flightOf hx q).trans hf
        have hft : (x.setTemp q r).flightOf q = some ⟨.readField f pin :: rest, r⟩ := by simp [hfx]
        rw [weightOf_setTodo hft]; omega
      · next x hx => rw [weightOf_accessFailed ((memRead_flightOf hx q).trans hf)]; omega
  | writeField f pin v =>
    simp only [act, writeFieldStep, stepsWeight, actionWeight]
    split
    · rw [weightOf_raiseIn hf]; omega
    · split
      · next x hx => rw [weightOf_setTodo ((memWrite_flightOf hx q).trans hf)]; omega
      · next x hx => rw [weightOf_accessFailed ((memWrite_flightOf hx q).trans hf)]; omega
  | release f =>
    simp only [act, releaseStep, stepsWeight, actionWeight]
    rw [weightOf_setTodo (x := s.setLock f none) hf]; omega
  | writeOne f pin =>
    simp only [act, writeOneStep, stepsWeight, actionWeight]
    split
    · rw [weightOf_raiseIn hf]; omega
    · split
      · next x hx => rw [weightOf_setTodo ((memWrite_flightOf hx q).trans hf)]; omega
      · next x hx => rw [weightOf_accessFailed ((memWrite_flightOf hx q).trans hf)]; omega
  | queryFunction pin =>
    simp only [act, queryFunctionStep, stepsWeight, actionWeight]
    split
    · rw [weightOf_raiseIn hf]; omega
    · split
      · next r x hx =>
        split <;>
          (rw [weightOf_setTodo ((memRead_flightOf hx q).trans hf)]; simp only [stepsWeight, actionWeight]; omega)
      · next x hx => rw [weightOf_accessFailed ((memRead_flightOf hx q).trans hf)]; omega
  | queryLevel pin fn =>
    simp only [act, queryLevelStep, stepsWeight, actionWeight]
    split
    · rw [weightOf_raiseIn hf]; omega
    · split
      · next r x hx =>
        rw [weightOf_setTodo ((memRead_flightOf hx q).trans hf)]; simp only [stepsWeight, actionWeight]; omega
      · next x hx => rw [weightOf_accessFailed ((memRead_flightOf hx q).trans hf)]; omega
  | claimScanner =>
    simp only [act, claimStep, stepsWeight, actionWeight]
    split
    · next hb => simp [waitsFor, hb] at hw
    · split <;>
        (rw [weightOf_setTodo ((State.flightOf_setIas s _ q).trans hf)]; simp only [stepsWeight, actionWeight]; omega)
  | scanLow =>
    simp only [act, scanLowStep, stepsWeight, actionWeight]
    split
    · next v x hx =>
      have hfx := (memRead_flightOf hx q).trans hf
      split
      · rw [weightOf_setTodo ((State.flightOf_setIas x _ q).trans hfx)]; simp only [stepsWeight, actionWeight]; omega
      · rw [weightOf_setTodo hfx]; simp only [stepsWeight, actionWeight]; omega
    · next x hx => rw [weightOf_scanFailed ((memRead_flightOf hx q).trans hf)]; omega
  | scanHigh =>
    simp only [act, scanHighStep, stepsWeight, actionWeight]
    split
    · next v x hx =>
      have hfx := (memRead_flightOf hx q).trans hf
      split <;>
        (rw [weightOf_setTodo ((State.flightOf_setIas x _ q).trans hfx)]; simp only [stepsWeight, actionWeight]; omega)
    · next x hx => rw [weightOf_scanFailed ((memRead_flightOf hx q).trans hf)]; omega
  | scanClear =>
    simp only [act, scanClearStep, stepsWeight, actionWeight]
    split
    · next x hx =>
      rw [weightOf_setTodo ((memWrite_flightOf hx q).trans hf)]; simp only [stepsWeight, actionWeight]; omega
    · next x hx => rw [weightOf_scanFailed ((memWrite_flightOf hx q).trans hf)]; omega
  | respondScan i =>
    simp only [act, respondScanStep, stepsWeight, actionWeight, weightOf_finish]; omega
  | respond r0 r1 =>
    simp only [act, stepsWeight, actionWeight, weightOf_finish]; omega

/-- A held step changes nothing. -/
theorem act_held {q : Nat} {s : State} (hI : Inv s) {a : Action} {rest : List Action} {temp : Word}
    (hf : s.flightOf q = some ⟨a :: rest, temp⟩) {r : Nat} (hw : waitsFor q s a = some r) :
    act q temp a rest s = s ∧ r ≠ q := by
  obtain ⟨h, c⟩ := atStep hI hf
  cases a with
  | acquire f =>
    simp only [waitsFor] at hw
    simp only [act, acquireStep]
    cases hh : s.locks.holder f with
    | none => rw [hh] at hw; cases hw
    | some r' =>
      rw [hh] at hw
      simp only at hw ⊢
      split at hw
      · cases hw
      · next hne => cases hw; exact ⟨if_neg hne, hne⟩
  | claimScanner =>
    simp only [waitsFor] at hw
    split at hw
    · next hb =>
      cases hw
      refine ⟨by simp [act, claimStep, hb], fun e => ?_⟩
      have := c.scanner.1 ⟨hb, e⟩
      cases rest <;> simp [inScan] at this
    · cases hw
  | _ => cases hw

theorem portsWeight_update {ps qs : List Port} (q : Nat) (hl : qs.length = ps.length)
    (ho : ∀ r, r ≠ q → qs[r]? = ps[r]?) :
    portsWeight qs + (ps[q]?.elim 0 portWeight) = portsWeight ps + (qs[q]?.elim 0 portWeight) := by
  induction ps generalizing qs q with
  | nil =>
    have : qs = [] := List.length_eq_zero_iff.1 hl
    subst this; rfl
  | cons x xs ih =>
    cases qs with
    | nil => simp at hl
    | cons y ys =>
      simp only [List.length_cons, Nat.add_right_cancel_iff] at hl
      cases q with
      | zero =>
        have : ys = xs := by
          apply List.ext_getElem?
          intro i
          have := ho (i + 1) (by omega)
          simpa using this
        subst this
        simp [portsWeight]; omega
      | succ q =>
        have hxy : y = x := by simpa using ho 0 (by omega)
        subst hxy
        have := ih q hl (fun r hr => by have := ho (r + 1) (by omega); simpa using this)
        simp [portsWeight]; omega

theorem weightOf_eq_elim (s : State) (q : Nat) : s.ports[q]?.elim 0 portWeight = s.weightOf q := by
  simp only [State.weightOf, State.flightOf]
  cases s.ports[q]? with
  | none => rfl
  | some p => obtain ⟨_, _, _, _, f⟩ := p; cases f <;> rfl

/-- How the fuel changes when only port `q` changes. -/
theorem potential_update {s t : State} (q : Nat) (hl : t.ports.length = s.ports.length)
    (ho : ∀ r, r ≠ q → t.ports[r]? = s.ports[r]?) (ha : t.agenda = s.agenda) :
    t.potential + s.weightOf q = s.potential + t.weightOf q := by
  have := portsWeight_update q hl ho
  rw [weightOf_eq_elim, weightOf_eq_elim] at this
  simp only [State.potential, ha]; omega

/-- A step that is not held uses up fuel; no step adds any. -/
theorem potential_advance_le {s : State} (hI : Inv s) (q : Nat) : (advance q s).potential ≤ s.potential := by
  have hst := advance_stepBy hI q
  unfold advance at *
  cases hf : s.flightOf q with
  | none => exact Nat.le_refl _
  | some f =>
    obtain ⟨todo, temp⟩ := f
    cases todo with
    | nil => exact Nat.le_refl _
    | cons a rest =>
      simp only [hf] at hst ⊢
      cases hw : waitsFor q s a with
      | some r => rw [(act_held hI hf hw).1]
      | none =>
        have h1 := weightOf_act hf hw
        have h2 := potential_update q hst.length hst.others hst.agenda
        have h3 : s.weightOf q = stepsWeight (a :: rest) := by simp only [State.weightOf, hf]
        omega

theorem potential_advance_lt {s : State} (hI : Inv s) {q : Nat} (hq : s.inFlight q = true)
    (hb : blocker q s = none) : (advance q s).potential < s.potential := by
  have hst := advance_stepBy hI q
  obtain ⟨⟨todo, temp⟩, hf⟩ := (s.inFlight_iff q).1 hq
  obtain ⟨h, hp, -⟩ := (inv_own hI q).sequence _ hf
  cases todo with
  | nil => cases hp with | plain hp => simp [plainOk] at hp
  | cons a rest =>
    have hw : waitsFor q s a = none := by simpa [blocker, hf] using hb
    unfold advance at *
    simp only [hf] at hst ⊢
    have h1 := weightOf_act hf hw
    have h2 := potential_update q hst.length hst.others hst.agenda
    have h3 : s.weightOf q = stepsWeight (a :: rest) := by simp only [State.weightOf, hf]
    omega

/-- The operation that another waits for is in flight and is not held itself (R65, R168). -/
theorem blocker_runs {s : State} (hI : Inv s) {q r : Nat} (hb : blocker q s = some r) :
    s.inFlight r = true ∧ blocker r s = none := by
  unfold blocker at hb
  cases hf : s.flightOf q with
  | none => rw [hf] at hb; cases hb
  | some f =>
    rw [hf] at hb
    obtain ⟨todo, temp⟩ := f
    cases todo with
    | nil => cases hb
    | cons a rest =>
      simp only at hb
      have key : s.inFlight r = true → (∀ f, s.flightOf r = some f → ∀ h, Position f.todo h →
          (h ≠ none ∨ inScan f.todo = true) → ∀ a rest, f.todo = a :: rest → waitsFor r s a = none) := by
        intro _ f hfr h hp hh a rest ht
        rw [ht] at hp
        rcases hh with hh | hh
        · cases hp <;> first | rfl | exact absurd rfl hh
        · rw [ht] at hh
          cases a <;> first | rfl | (cases rest <;> simp [inScan] at hh)
      have fin : s.inFlight r = true → (∀ f, s.flightOf r = some f → ∀ h, Position f.todo h →
          (∀ l, s.locks.holder l = some r ↔ h = some l) → (h ≠ none ∨ inScan f.todo = true)) →
          s.inFlight r = true ∧ blocker r s = none := by
        intro hr hh
        refine ⟨hr, ?_⟩
        obtain ⟨f, hfr⟩ := (s.inFlight_iff r).1 hr
        obtain ⟨h, hp, hl⟩ := (inv_own hI r).sequence f hfr
        unfold blocker
        rw [hfr]
        obtain ⟨todo', temp'⟩ := f
        cases todo' with
        | nil => rfl
        | cons a' rest' => exact key hr _ hfr h hp (hh _ hfr h hp hl) a' rest' rfl
      cases a with
      | acquire g =>
        simp only [waitsFor] at hb
        cases hg : s.locks.holder g with
        | none => rw [hg] at hb; cases hb
        | some r' =>
          rw [hg] at hb
          simp only at hb
          split at hb
          · cases hb
          · cases hb
            exact fin (hI.holders g r hg) (fun f _ h _ hl => .inl (by rw [(hl g).1 hg]; simp))
      | claimScanner =>
        simp only [waitsFor] at hb
        split at hb
        · next hbusy =>
          cases hb
          obtain ⟨f, hfr, hsc⟩ := (hI.scanner _).1 ⟨hbusy, rfl⟩
          exact fin ((s.inFlight_iff _).2 ⟨f, hfr⟩) (fun f' hf' _ _ _ => .inr (by
            rw [hfr] at hf'; cases hf'; exact hsc))
        · cases hb
      | _ => cases hb

theorem potential_begin {s : State} {q : Nat} (h : s.inFlight q = false) (hq : q < s.ports.length)
    (todo : List Action) : (begin q todo s).potential = s.potential + stepsWeight todo := by
  have hu := potential_update (s := s) (t := begin q todo s) q (by simp)
    (fun r hr => s.ports_modifyPort_ne q _ hr) rfl
  have h1 : s.weightOf q = 0 := by simp only [State.weightOf, (s.inFlight_false q).1 h]
  have h2 : (begin q todo s).weightOf q = stepsWeight todo := by
    simp only [State.weightOf, flightOf_begin, if_true, hq]
  omega

/-- A move of the agenda adds no more fuel than its own weight less one. -/
theorem potential_makeMove {s : State} (hI : Inv s) (m : Move) :
    (makeMove m s).potential + 1 ≤ s.potential + moveWeight m := by
  cases m with
  | advance r => have := potential_advance_le hI r; simp only [makeMove, moveWeight]; omega
  | request r w =>
    rw [makeMove]
    simp only [moveWeight]
    split
    · next h =>
      obtain ⟨hl, hf, -⟩ := accepts_iff.1 h
      have hf' : (s.modifyPort r (·.latch w)).inFlight r = false := by
        rw [State.inFlight_false] at hf ⊢
        rw [State.flightOf_modifyPort, if_pos rfl]; exact hf
      rw [potential_begin hf' (by simpa using hl)]
      have hu := potential_update (s := s) (t := s.modifyPort r (·.latch w)) r (by simp)
        (fun k hk => s.ports_modifyPort_ne r _ hk) rfl
      have h1 : s.weightOf r = 0 := by simp only [State.weightOf, (s.inFlight_false r).1 hf]
      have h2 : (s.modifyPort r (·.latch w)).weightOf r = 0 := by
        simp only [State.weightOf, (State.inFlight_false _ r).1 hf']
      omega
    · omega
  | level p v => simp only [makeMove, moveWeight]; exact Nat.le_refl _
  | event p => simp only [makeMove, moveWeight]; exact Nat.le_refl _
  | redraw => simp only [makeMove, moveWeight]; exact Nat.le_refl _

/-- Every turn uses up fuel while the operation is in flight. -/
theorem potential_turn {s : State} (hI : Inv s) {q : Nat} (hq : s.inFlight q = true) :
    (turn q s).potential < s.potential := by
  unfold turn
  split
  · next m rest ha =>
    have hI' : Inv { s with agenda := rest } := inv_congr hI rfl hI.issuer rfl rfl rfl rfl
    have h1 := potential_makeMove hI' m
    have h2 : s.potential = agendaWeight rest + moveWeight m + portsWeight s.ports := by
      simp only [State.potential, ha, agendaWeight]
    have h3 : State.potential { s with agenda := rest } = agendaWeight rest + portsWeight s.ports := rfl
    omega
  · split
    · next r hb =>
      obtain ⟨hr, hbr⟩ := blocker_runs hI hb
      exact potential_advance_lt hI hr hbr
    · next hb => exact potential_advance_lt hI hq hb

/-! ### Whole runs -/

/-- What every move keeps while the operation of port `q` is in flight, its whole run keeps. -/
theorem drive_induction {P : State → Prop} {q : Nat}
    (hm : ∀ (x : State) (m : Move), Inv x → x.inFlight q = true → P x → P (makeMove m x))
    (ha : ∀ x rest, P x → P { x with agenda := rest }) (n : Nat) {s : State} (hI : Inv s) (hP : P s) :
    Inv (drive n q s) ∧ P (drive n q s) := by
  induction n generalizing s with
  | zero => exact ⟨hI, hP⟩
  | succ n ih =>
    by_cases hf : s.inFlight q = true
    · rw [drive_succ hf]
      refine ih (inv_turn hI q) ?_
      unfold turn
      split
      · next m rest _ =>
        exact hm _ m (inv_congr hI rfl hI.issuer rfl rfl rfl rfl) hf (ha _ rest hP)
      · split
        · exact hm s (.advance _) hI hf hP
        · exact hm s (.advance q) hI hf hP
    · rw [Bool.not_eq_true] at hf
      rw [drive_idle hf]; exact ⟨hI, hP⟩

theorem inv_drive {s : State} (hI : Inv s) (n q : Nat) : Inv (drive n q s) :=
  (drive_induction (P := fun _ => True) (fun _ _ _ _ _ => trivial) (fun _ _ _ => trivial) n hI trivial).1

theorem inv_settle {s : State} (hI : Inv s) (q : Nat) : Inv (settle q s) := by
  unfold settle
  split
  · exact inv_drive hI _ q
  · exact hI

/-- With fuel for its potential, the run ends with the operation complete (R205). -/
theorem drive_complete {s : State} (hI : Inv s) {q n : Nat} (hn : s.potential < n) :
    (drive n q s).inFlight q = false := by
  induction n generalizing s with
  | zero => omega
  | succ n ih =>
    by_cases hf : s.inFlight q = true
    · rw [drive_succ hf]
      exact ih (inv_turn hI q) (by have := potential_turn hI hf; omega)
    · rw [Bool.not_eq_true] at hf
      rw [drive_idle hf]; exact hf

theorem settle_complete {s : State} (hI : Inv s) (q : Nat) : (settle q s).inFlight q = false := by
  unfold settle
  split
  · exact drive_complete hI (by omega)
  · next h => simpa using h

/-- `settle` keeps what every move keeps while the operation of port `q` is in flight. -/
theorem settle_induction {P : State → Prop} {q : Nat}
    (hm : ∀ (x : State) (m : Move), Inv x → x.inFlight q = true → P x → P (makeMove m x))
    (ha : ∀ x rest, P x → P { x with agenda := rest }) {s : State} (hI : Inv s) (hP : P s) : P (settle q s) := by
  unfold settle
  split
  · exact (drive_induction hm ha _ hI hP).2
  · exact hP

end Sys2Proof.Machine
end

