-- ==== Sys2Proof/Laws/Interleaving.lean ====
section
/-! SUPPORT. An operation that runs with other agents: its port changes by its own steps only; what a step puts into the
record of transactions; and that an operation which has run to its response holds one. -/

namespace Sys2Proof.Machine

open Sys2Proof.Safety

/-- Every meaning performs the sequence of its instruction. -/
theorem exec_eq_perform (i : Instr) (s : State) : exec i s = perform (instrSteps i) s := by cases i <;> rfl

theorem exec_ready {s : State} (h : Ready s) (i : Instr) :
    exec i s = .next (settle s.issuer (begin s.issuer (instrSteps i) s)) := by
  rw [exec_eq_perform, perform_ready h]

/-- What `exec` answers, when it answers a next state. -/
theorem exec_next {i : Instr} {s t : State} (h : exec i s = .next t) :
    Ready s ∧ t = settle s.issuer (begin s.issuer (instrSteps i) s) := by
  rw [exec_eq_perform, perform] at h
  split at h
  · cases h
  · next hd =>
    split at h
    · next hi =>
      split at h
      · cases h
      · next hf => cases h; exact ⟨⟨by simpa using hd, hi, by simpa using hf⟩, rfl⟩
    · cases h

/-! ### The issuer and the number of ports -/

theorem makeMove_ports_length {s : State} (hI : Inv s) (m : Move) :
    (makeMove m s).ports.length = s.ports.length := by
  cases m with
  | advance r => exact (advance_stepBy hI r).length
  | request r w => rw [makeMove]; split <;> simp
  | _ => rfl

theorem settle_ports_length {s : State} (hI : Inv s) (q : Nat) : (settle q s).ports.length = s.ports.length :=
  settle_induction (P := fun x => x.ports.length = s.ports.length)
    (fun _ m hx _ h => (makeMove_ports_length hx m).trans h) (fun _ _ h => h) hI rfl

theorem inv_accept {s : State} (hI : Inv s) {q : Nat} (hq : q < s.ports.length) (w : Word) (rest : List Demand) :
    Inv (accept q w rest s) := by
  refine inv_congr (inv_modifyPort hI q (f := (·.latch w)) (fun _ => rfl) (fun _ => rfl)) rfl ?_ rfl rfl rfl rfl
  show q < (s.modifyPort q _).ports.length
  simpa using hq

theorem settle_of_idle {s : State} {q : Nat} (h : s.inFlight q = false) : settle q s = s := by
  rw [settle, if_neg (by simp [h])]

/-! ### The operation's own port -/

/-- A port in flight is changed by the moves of its own operation only. -/
theorem makeMove_port {s : State} (hI : Inv s) {q : Nat} (hq : s.inFlight q = true) {m : Move}
    (hm : m ≠ .advance q) : (makeMove m s).ports[q]? = s.ports[q]? := by
  cases m with
  | advance r => exact (advance_stepBy hI r).others q (fun e => hm (by rw [e]))
  | request r w =>
    rw [makeMove]
    split
    · next h =>
      have hne : q ≠ r := by
        rintro rfl
        rw [(accepts_iff.1 h).2.1] at hq; cases hq
      rw [begin, State.ports_modifyPort_ne _ _ _ hne, State.ports_modifyPort_ne _ _ _ hne]
    · rfl
  | _ => rfl

/-- What is known of the operation of port `q`: the steps it has still to take, or, once complete, its response. -/
structure OwnKnown (q : Nat) (T : List Action → Prop) (R : Word → Word → Prop) (s : State) : Prop where
  going : ∀ f, s.flightOf q = some f → T f.todo
  done : s.flightOf q = none → ∃ r0 r1, readResponse q s = some (r0, r1) ∧ R r0 r1

variable {q : Nat} {T : List Action → Prop} {R : Word → Word → Prop}

theorem OwnKnown.of_going {s : State} {f : Flight} (hf : s.flightOf q = some f) (hT : T f.todo) :
    OwnKnown q T R s :=
  ⟨fun g hg => by rw [hf] at hg; cases hg; exact hT, fun hn => by rw [hf] at hn; cases hn⟩

theorem OwnKnown.setTodo {s : State} {f : Flight} (hf : s.flightOf q = some f) {todo : List Action} (hT : T todo) :
    OwnKnown q T R (s.setTodo q todo) :=
  .of_going (f := { f with todo := todo }) (by simp [hf]) hT

theorem OwnKnown.finish {s : State} {f : Flight} (hf : s.flightOf q = some f) {r0 r1 : Word} (hR : R r0 r1) :
    OwnKnown q T R (s.finish q r0 r1) := by
  refine ⟨fun g hg => by simp at hg, fun _ => ⟨r0, r1, ?_, hR⟩⟩
  simp only [State.flightOf] at hf
  cases hp : s.ports[q]? with
  | none => rw [hp] at hf; cases hf
  | some p => simp [readResponse, State.finish, State.modifyPort, hp, Port.complete]

theorem OwnKnown.raiseIn {s : State} {f : Flight} (hf : s.flightOf q = some f) {st : Status} (hT : T [raise st]) :
    OwnKnown q T R (raiseIn q st s) :=
  OwnKnown.setTodo (s := s.dropLocks q) hf hT

theorem OwnKnown.accessFailed {s : State} {f : Flight} (hf : s.flightOf q = some f)
    (hT : T [raise .registerAccessFailure]) : OwnKnown q T R (accessFailed q s) :=
  OwnKnown.raiseIn (s := s.fail) hf hT

theorem OwnKnown.scanFailed {s : State} {f : Flight} (hf : s.flightOf q = some f)
    (hT : T [.respondScan Config.noEvent]) : OwnKnown q T R (scanFailed q s) :=
  OwnKnown.setTodo (s := s.fail) hf hT

/-- The steps an operation can have to take after the step `a`, whatever it read and whatever it met. -/
structure After (T : List Action → Prop) (R : Word → Word → Prop) (a : Action) (rest : List Action) : Prop where
  rest : T rest
  check : ∀ pin bad, a = .check pin bad → T [raise .registerAccessFailure] ∧ T [raise .invalidPin] ∧
    ∀ st, bad = some st → T [raise st]
  access : (∃ g p, a = .readField g p) ∨ (∃ g p v, a = .writeField g p v) ∨ (∃ f p, a = .writeOne f p) ∨
    (∃ p, a = .queryFunction p) ∨ (∃ p fn, a = .queryLevel p fn) →
    T [raise .registerAccessFailure] ∧ T [raise .invalidPin]
  function : ∀ p, a = .queryFunction p → ∀ fn : Word, T [.queryLevel p fn] ∧ T [.respond (queryAltResponse fn) 0]
  level : ∀ p fn, a = .queryLevel p fn → ∀ v, T [.respond (queryIoResponse fn v) 0]
  scan : (a = .claimScanner ∨ a = .scanLow ∨ a = .scanHigh ∨ a = .scanClear) →
    T [.scanLow] ∧ T [.scanHigh] ∧ T [.scanClear] ∧ ∀ i, T [.respondScan i]
  answer : ∀ i, a = .respondScan i → R (ackResponse i) 0
  response : ∀ r0 r1, a = .respond r0 r1 → R r0 r1

/-- One step of the operation of port `q`. -/
theorem ownKnown_act {s : State} {a : Action} {rest : List Action} {temp : Word}
    (hf : s.flightOf q = some ⟨a :: rest, temp⟩) (hT : T (a :: rest)) (h : After T R a rest) :
    OwnKnown q T R (act q temp a rest s) := by
  cases a with
  | check pin bad =>
    obtain ⟨h1, h2, h3⟩ := h.check pin bad rfl
    simp only [act, checkStep]
    split
    · exact .raiseIn hf h1
    · split
      · exact .raiseIn hf h2
      · split
        · next st => exact .raiseIn hf (h3 st rfl)
        · exact .setTodo hf h.rest
  | acquire g =>
    simp only [act, acquireStep]
    split
    · exact .setTodo (s := s.setLock g (some q)) hf h.rest
    · split
      · exact .setTodo hf h.rest
      · exact .of_going hf hT
  | readField g pin =>
    obtain ⟨h1, h2⟩ := h.access (.inl ⟨_, _, rfl⟩)
    simp only [act, readFieldStep]
    split
    · next st hst =>
      have : st = .invalidPin := by
        unfold addr at hst
        split at hst
        · cases hst
        · exact (Except.error.inj hst).symm
      rw [this]; exact .raiseIn hf h2
    · split
      · next r x hx =>
        have hfx := (memRead_flightOf hx q).trans hf
        exact .setTodo (s := x.setTemp q r) (f := ⟨.readField g pin :: rest, r⟩) (by simp [hfx]) h.rest
      · next x hx => exact .accessFailed ((memRead_flightOf hx q).trans hf) h1
  | writeField g pin v =>
    obtain ⟨h1, h2⟩ := h.access (.inr (.inl ⟨_, _, _, rfl⟩))
    simp only [act, writeFieldStep]
    split
    · next st hst =>
      have : st = .invalidPin := by
        unfold addr at hst
        split at hst
        · cases hst
        · exact (Except.error.inj hst).symm
      rw [this]; exact .raiseIn hf h2
    · split
      · next x hx => exact .setTodo ((memWrite_flightOf hx q).trans hf) h.rest
      · next x hx => exact .accessFailed ((memWrite_flightOf hx q).trans hf) h1
  | release g => exact .setTodo (s := s.setLock g none) hf h.rest
  | writeOne f pin =>
    obtain ⟨h1, h2⟩ := h.access (.inr (.inr (.inl ⟨_, _, rfl⟩)))
    simp only [act, writeOneStep]
    split
    · next st hst =>
      have : st = .invalidPin := by
        unfold addr at hst
        split at hst
        · cases hst
        · exact (Except.error.inj hst).symm
      rw [this]; exact .raiseIn hf h2
    · split
      · next x hx => exact .setTodo ((memWrite_flightOf hx q).trans hf) h.rest
      · next x hx => exact .accessFailed ((memWrite_flightOf hx q).trans hf) h1
  | queryFunction pin =>
    obtain ⟨h1, h2⟩ := h.access (.inr (.inr (.inr (.inl ⟨_, rfl⟩))))
    simp only [act, queryFunctionStep]
    split
    · next st hst =>
      have : st = .invalidPin := by
        unfold addr at hst
        split at hst
        · cases hst
        · exact (Except.error.inj hst).symm
      rw [this]; exact .raiseIn hf h2
    · split
      · next r x hx =>
        have hfx := (memRead_flightOf hx q).trans hf
        split
        · exact .setTodo hfx (h.function pin rfl _).1
        · exact .setTodo hfx (h.function pin rfl _).2
      · next x hx => exact .accessFailed ((memRead_flightOf hx q).trans hf) h1
  | queryLevel pin fn =>
    obtain ⟨h1, h2⟩ := h.access (.inr (.inr (.inr (.inr ⟨_, _, rfl⟩))))
    simp only [act, queryLevelStep]
    split
    · next st hst =>
      have : st = .invalidPin := by
        unfold addr at hst
        split at hst
        · cases hst
        · exact (Except.error.inj hst).symm
      rw [this]; exact .raiseIn hf h2
    · split
      · next r x hx => exact .setTodo ((memRead_flightOf hx q).trans hf) (h.level pin fn rfl _)
      · next x hx => exact .accessFailed ((memRead_flightOf hx q).trans hf) h1
  | claimScanner =>
    obtain ⟨h1, h2, h3, h4⟩ := h.scan (.inl rfl)
    simp only [act, claimStep]
    split
    · exact .of_going hf hT
    · split
      · exact .setTodo ((State.flightOf_setIas s _ q).trans hf) (h4 _)
      · exact .setTodo ((State.flightOf_setIas s _ q).trans hf) h1
  | scanLow =>
    obtain ⟨h1, h2, h3, h4⟩ := h.scan (.inr (.inl rfl))
    simp only [act, scanLowStep]
    split
    · next v x hx =>
      have hfx := (memRead_flightOf hx q).trans hf
      split
      · exact .setTodo ((State.flightOf_setIas x _ q).trans hfx) h3
      · exact .setTodo hfx h2
    · next x hx => exact .scanFailed ((memRead_flightOf hx q).trans hf) (h4 _)
  | scanHigh =>
    obtain ⟨h1, h2, h3, h4⟩ := h.scan (.inr (.inr (.inl rfl)))
    simp only [act, scanHighStep]
    split
    · next v x hx =>
      have hfx := (memRead_flightOf hx q).trans hf
      split
      · exact .setTodo ((State.flightOf_setIas x _ q).trans hfx) (h4 _)
      · exact .setTodo ((State.flightOf_setIas x _ q).trans hfx) h3
    · next x hx => exact .scanFailed ((memRead_flightOf hx q).trans hf) (h4 _)
  | scanClear =>
    obtain ⟨h1, h2, h3, h4⟩ := h.scan (.inr (.inr (.inr rfl)))
    simp only [act, scanClearStep]
    split
    · next x hx => exact .setTodo ((memWrite_flightOf hx q).trans hf) (h4 _)
    · next x hx => exact .scanFailed ((memWrite_flightOf hx q).trans hf) (h4 _)
  | respondScan i =>
    simp only [act, respondScanStep]
    exact .finish ((State.flightOf_setIas s _ q).trans hf) (h.answer i rfl)
  | respond r0 r1 => exact .finish hf (h.response r0 r1 rfl)

/-- If each step leads from `T` to `T` or to a response in `R`, then an operation begun at `T` ends with a response in
`R`, whatever the other agents do (R205). -/
theorem settle_response {s : State} (hI : Inv s) (hR : Ready s) {todo : List Action}
    (ht : plainOk todo = true ∨ todo = [.claimScanner]) (hT : T todo)
    (h : ∀ a rest, T (a :: rest) → After T R a rest) :
    ∃ r0 r1, readResponse s.issuer (settle s.issuer (begin s.issuer todo s)) = some (r0, r1) ∧ R r0 r1 := by
  have hI' : Inv (begin s.issuer todo s) := inv_begin hI hR.idle hR.alive ht
  have hP : OwnKnown s.issuer T R (settle s.issuer (begin s.issuer todo s)) := by
    refine settle_induction (P := OwnKnown s.issuer T R) ?_ ?_ hI' ?_
    · intro x m hx hq hP
      by_cases hm : m = .advance s.issuer
      · subst hm
        obtain ⟨⟨todo', temp⟩, hf⟩ := (x.inFlight_iff _).1 hq
        obtain ⟨l, hpos, -⟩ := (inv_own hx s.issuer).sequence _ hf
        cases todo' with
        | nil => cases hpos with | plain hp => simp [plainOk] at hp
        | cons a rest =>
          have hT' := hP.going _ hf
          have := ownKnown_act (R := R) hf hT' (h a rest hT')
          simpa [makeMove, advance, hf] using this
      · have hp := makeMove_port hx hq hm
        refine ⟨fun f hf => hP.going f ?_, fun hn => ?_⟩
        · rw [State.flightOf, hp] at hf; exact hf
        · rw [State.flightOf, hp] at hn
          rw [State.inFlight, State.flightOf, hn] at hq; cases hq
    · intro x rest hP
      exact ⟨hP.going, hP.done⟩
    · exact .of_going (flightOf_begin_issuer hR todo) hT
  exact hP.done ((State.inFlight_false _ _).1 (settle_complete hI' _))

/-! ### The record of transactions -/

/-- How many transactions an operation can make from a step on, those of the steps put in its place included (R221). -/
def actionCost : Action → Nat
  | .readField _ _ => 1
  | .writeField _ _ _ => 1
  | .writeOne _ _ => 1
  | .queryFunction _ => 2
  | .queryLevel _ _ => 1
  | .claimScanner => 3
  | .scanLow => 3
  | .scanHigh => 2
  | .scanClear => 1
  | .check _ _ => 0
  | .acquire _ => 0
  | .release _ => 0
  | .respondScan _ => 0
  | .respond _ _ => 0

def stepsCost : List Action → Nat
  | [] => 0
  | a :: rest => stepsCost rest + actionCost a

/-- The transactions the operation of a port can still make. -/
def State.costOf (s : State) (q : Nat) : Nat :=
  match s.flightOf q with
  | none => 0
  | some f => stepsCost f.todo

/-- What a move of port `q` puts into the record: at most what its cost allows, on its behalf; and the block is
inoperative after it exactly if it was or if one of these transactions failed (R22, R184). -/
structure Recorded (q : Nat) (s t : State) : Prop where
  record : ∃ l, t.bus = l ++ s.bus ∧ (∀ x ∈ l, transactionPort x = q) ∧ l.length + t.costOf q ≤ s.costOf q ∧
    (t.inoperative = true ↔ s.inoperative = true ∨ ∃ x ∈ l, failedTransaction x = true)

theorem costOf_setTodo {x : State} {q : Nat} {f : Flight} (h : x.flightOf q = some f) (todo : List Action) :
    (x.setTodo q todo).costOf q = stepsCost todo := by
  simp [State.costOf, h]

theorem costOf_finish (x : State) (q : Nat) (r0 r1 : Word) : (x.finish q r0 r1).costOf q = 0 := by
  simp [State.costOf]

theorem costOf_eq {s : State} {q : Nat} {f : Flight} (h : s.flightOf q = some f) : s.costOf q = stepsCost f.todo := by
  simp [State.costOf, h]

/-- A move that issues no transaction. -/
theorem Recorded.silent {q : Nat} {s t : State} (hb : t.bus = s.bus) (hi : t.inoperative = s.inoperative)
    (hc : t.costOf q ≤ s.costOf q) : Recorded q s t :=
  ⟨[], by simp [hb], by simp, by simpa using hc, by simp [hi]⟩

/-- A move that issues one transaction, and makes the block inoperative if that returned `ERR`. -/
theorem Recorded.one {q : Nat} {s t : State} {x : Transaction} (hb : t.bus = x :: s.bus) (hx : transactionPort x = q)
    (hc : t.costOf q + 1 ≤ s.costOf q)
    (hi : t.inoperative = (s.inoperative || failedTransaction x)) : Recorded q s t :=
  ⟨[x], by simp [hb], by simp [hx], by simp; omega, by simp [hi]⟩

theorem stepsCost_raise (st : Status) : stepsCost [raise st] = 0 := rfl

/-- One step of an operation, in the record. -/
theorem recorded_act {q : Nat} {s : State} {a : Action} {rest : List Action} {temp : Word} (hI : Inv s)
    (hf : s.flightOf q = some ⟨a :: rest, temp⟩) : Recorded q s (act q temp a rest s) := by
  have hc := costOf_eq hf
  simp only [stepsCost] at hc
  cases a with
  | check pin bad =>
    simp only [act, checkStep]
    have hr : ∀ st, Recorded q s (raiseIn q st s) := fun st =>
      .silent rfl rfl (by rw [raiseIn, costOf_setTodo (x := s.dropLocks q) hf, stepsCost_raise]; omega)
    split
    · exact hr _
    · split
      · exact hr _
      · split
        · exact hr _
        · exact .silent rfl rfl (by rw [costOf_setTodo hf]; omega)
  | acquire g =>
    simp only [act, acquireStep]
    split
    · exact .silent rfl rfl (by rw [costOf_setTodo (x := s.setLock g (some q)) hf]; omega)
    · split
      · exact .silent rfl rfl (by rw [costOf_setTodo hf]; omega)
      · exact .silent rfl rfl (Nat.le_refl _)
  | readField g pin =>
    simp only [actionCost] at hc
    simp only [act, readFieldStep]
    split
    · exact .silent rfl rfl (by rw [raiseIn, costOf_setTodo (x := s.dropLocks q) hf, stepsCost_raise]; omega)
    · next l hl =>
      obtain ⟨p, hp, rfl, rfl⟩ := addr_eq_ok hl
      rw [memRead_location hp]
      by_cases he : (s.drawAt 0).err = true
      · rw [if_pos he]
        simp only
        exact .one (x := .read q _ none) rfl rfl
          (by rw [accessFailed, raiseIn, costOf_setTodo (x := ((s.afterRead q _ none).fail.dropLocks q)) hf,
                stepsCost_raise]; omega) (by simp [accessFailed, raiseIn, failedTransaction])
      · rw [if_neg he]
        simp only
        have hft : ∀ v : Word, ((s.afterRead q (location p g.family).byteOffset (some v)).setTemp q v).flightOf q =
            some ⟨.readField g p :: rest, v⟩ := fun v => by simp [hf]
        exact .one (x := .read q _ (some _)) rfl rfl (by rw [costOf_setTodo (hft _)]; omega)
          (by simp [failedTransaction])
  | writeField g pin v =>
    simp only [actionCost] at hc
    simp only [act, writeFieldStep]
    split
    · exact .silent rfl rfl (by rw [raiseIn, costOf_setTodo (x := s.dropLocks q) hf, stepsCost_raise]; omega)
    · next l hl =>
      obtain ⟨p, hp, rfl, rfl⟩ := addr_eq_ok hl
      rw [memWrite_location hp g.family_ne_readLevel]
      by_cases he : (s.drawAt 0).err = true
      · rw [he]
        simp only [Bool.not_true]
        exact .one (x := .write q _ _ (!(s.drawAt 0).err)) rfl rfl
          (by rw [accessFailed, raiseIn, costOf_setTodo (x := ((s.afterWrite q _ _ _).fail.dropLocks q)) hf,
                stepsCost_raise]; omega) (by simp [accessFailed, raiseIn, failedTransaction, he])
      · rw [Bool.not_eq_true] at he
        rw [he]
        simp only [Bool.not_false]
        exact .one (x := .write q _ _ (!(s.drawAt 0).err)) rfl rfl
          (by rw [costOf_setTodo (x := s.afterWrite q _ _ _) hf]; omega) (by simp [failedTransaction, he])
  | release g => exact .silent rfl rfl (by rw [act, releaseStep, costOf_setTodo (x := s.setLock g none) hf]; omega)
  | writeOne f pin =>
    simp only [actionCost] at hc
    obtain ⟨h, c⟩ := atStep hI hf
    have hfl : f ≠ .readLevel := by
      rcases (position_writeOne c.position).2.1 with rfl | rfl <;> simp
    simp only [act, writeOneStep]
    split
    · exact .silent rfl rfl (by rw [raiseIn, costOf_setTodo (x := s.dropLocks q) hf, stepsCost_raise]; omega)
    · next l hl =>
      obtain ⟨p, hp, rfl, rfl⟩ := addr_eq_ok hl
      rw [memWrite_location hp hfl]
      by_cases he : (s.drawAt 0).err = true
      · rw [he]
        simp only [Bool.not_true]
        exact .one (x := .write q _ _ (!(s.drawAt 0).err)) rfl rfl
          (by rw [accessFailed, raiseIn, costOf_setTodo (x := ((s.afterWrite q _ _ _).fail.dropLocks q)) hf,
                stepsCost_raise]; omega) (by simp [accessFailed, raiseIn, failedTransaction, he])
      · rw [Bool.not_eq_true] at he
        rw [he]
        simp only [Bool.not_false]
        exact .one (x := .write q _ _ (!(s.drawAt 0).err)) rfl rfl
          (by rw [costOf_setTodo (x := s.afterWrite q _ _ _) hf]; omega) (by simp [failedTransaction, he])
  | queryFunction pin =>
    simp only [actionCost] at hc
    simp only [act, queryFunctionStep]
    split
    · exact .silent rfl rfl (by rw [raiseIn, costOf_setTodo (x := s.dropLocks q) hf, stepsCost_raise]; omega)
    · next l hl =>
      obtain ⟨p, hp, rfl, rfl⟩ := addr_eq_ok hl
      rw [memRead_location hp]
      by_cases he : (s.drawAt 0).err = true
      · rw [if_pos he]
        simp only
        exact .one (x := .read q _ none) rfl rfl
          (by rw [accessFailed, raiseIn, costOf_setTodo (x := ((s.afterRead q _ none).fail.dropLocks q)) hf,
                stepsCost_raise]; omega) (by simp [accessFailed, raiseIn, failedTransaction])
      · rw [if_neg he]
        simp only
        split
        · exact .one (x := .read q _ (some _)) rfl rfl
            (by rw [costOf_setTodo (x := s.afterRead q _ _) hf]; simp only [stepsCost, actionCost]; omega)
            (by simp [failedTransaction])
        · exact .one (x := .read q _ (some _)) rfl rfl
            (by rw [costOf_setTodo (x := s.afterRead q _ _) hf]; simp only [stepsCost, actionCost]; omega)
            (by simp [failedTransaction])
  | queryLevel pin fn =>
    simp only [actionCost] at hc
    simp only [act, queryLevelStep]
    split
    · exact .silent rfl rfl (by rw [raiseIn, costOf_setTodo (x := s.dropLocks q) hf, stepsCost_raise]; omega)
    · next l hl =>
      obtain ⟨p, hp, rfl, rfl⟩ := addr_eq_ok hl
      rw [memRead_location hp]
      by_cases he : (s.drawAt 0).err = true
      · rw [if_pos he]
        simp only
        exact .one (x := .read q _ none) rfl rfl
          (by rw [accessFailed, raiseIn, costOf_setTodo (x := ((s.afterRead q _ none).fail.dropLocks q)) hf,
                stepsCost_raise]; omega) (by simp [accessFailed, raiseIn, failedTransaction])
      · rw [if_neg he]
        exact .one (x := .read q _ (some _)) rfl rfl
          (by rw [costOf_setTodo (x := s.afterRead q _ _) hf]; simp only [stepsCost, actionCost]; omega)
          (by simp [failedTransaction])
  | claimScanner =>
    simp only [actionCost] at hc
    simp only [act, claimStep]
    split
    · exact .silent rfl rfl (Nat.le_refl _)
    · split
      · exact .silent rfl rfl (by
          rw [costOf_setTodo ((State.flightOf_setIas s _ q).trans hf)]; simp only [stepsCost, actionCost]; omega)
      · exact .silent rfl rfl (by
          rw [costOf_setTodo ((State.flightOf_setIas s _ q).trans hf)]; simp only [stepsCost, actionCost]; omega)
  | scanLow =>
    simp only [actionCost] at hc
    simp only [act, scanLowStep, scanOffset_low, memRead_location (show 0 < 54 by omega)]
    by_cases he : (s.drawAt 0).err = true
    · simp only [he, if_true]
      exact .one (x := .read q _ none) rfl rfl
        (by rw [scanFailed, costOf_setTodo (x := ((s.afterRead q _ none).fail)) hf]
            simp only [stepsCost, actionCost]; omega) (by simp [scanFailed, failedTransaction])
    · simp only [he, if_false, Bool.false_eq_true]
      split
      · exact .one (x := .read q _ (some _)) rfl rfl
          (by rw [costOf_setTodo (x := (s.afterRead q _ _).setIas _) hf]; simp only [stepsCost, actionCost]; omega)
          (by simp [failedTransaction])
      · exact .one (x := .read q _ (some _)) rfl rfl
          (by rw [costOf_setTodo (x := s.afterRead q _ _) hf]; simp only [stepsCost, actionCost]; omega)
          (by simp [failedTransaction])
  | scanHigh =>
    simp only [actionCost] at hc
    simp only [act, scanHighStep, scanOffset_high, memRead_location (show 32 < 54 by omega)]
    by_cases he : (s.drawAt 0).err = true
    · simp only [he, if_true]
      exact .one (x := .read q _ none) rfl rfl
        (by rw [scanFailed, costOf_setTodo (x := ((s.afterRead q _ none).fail)) hf]
            simp only [stepsCost, actionCost]; omega) (by simp [scanFailed, failedTransaction])
    · simp only [he, if_false, Bool.false_eq_true]
      split
      · exact .one (x := .read q _ (some _)) rfl rfl
          (by rw [costOf_setTodo (x := (s.afterRead q _ _).setIas _) hf]; simp only [stepsCost, actionCost]; omega)
          (by simp [failedTransaction])
      · exact .one (x := .read q _ (some _)) rfl rfl
          (by rw [costOf_setTodo (x := (s.afterRead q _ _).setIas _) hf]; simp only [stepsCost, actionCost]; omega)
          (by simp [failedTransaction])
  | scanClear =>
    simp only [actionCost] at hc
    obtain ⟨h, c⟩ := atStep hI hf
    obtain ⟨-, rfl⟩ := position_scan c.position (.inr (.inr (.inr (.inl rfl))))
    obtain ⟨p, hp, hreg⟩ : ∃ p, p < 54 ∧ s.ias.reg = (location p .eventStatus).byteOffset := by
      rcases (hI.active q _ hf rfl).2 with ⟨-, hr⟩ | ⟨-, hr⟩
      · exact ⟨0, by omega, hr⟩
      · exact ⟨32, by omega, hr⟩
    simp only [act, scanClearStep, hreg]
    rw [memWrite_location hp (by simp)]
    by_cases he : (s.drawAt 0).err = true
    · rw [he]
      simp only [Bool.not_true]
      exact .one (x := .write q _ _ (!(s.drawAt 0).err)) rfl rfl
        (by rw [scanFailed, costOf_setTodo (x := ((s.afterWrite q _ _ _).fail)) hf]
            simp only [stepsCost, actionCost]; omega) (by simp [scanFailed, failedTransaction, he])
    · rw [Bool.not_eq_true] at he
      rw [he]
      simp only [Bool.not_false]
      exact .one (x := .write q _ _ (!(s.drawAt 0).err)) rfl rfl
        (by rw [costOf_setTodo (x := s.afterWrite q _ _ _) hf]; simp only [stepsCost, actionCost]; omega)
        (by simp [failedTransaction, he])
  | respondScan i =>
    exact .silent rfl rfl (by rw [act, respondScanStep, costOf_finish]; omega)
  | respond r0 r1 => exact .silent rfl rfl (by rw [act, costOf_finish]; omega)

theorem recorded_advance {s : State} (hI : Inv s) (q : Nat) : Recorded q s (advance q s) := by
  unfold advance
  split
  · exact .silent rfl rfl (Nat.le_refl _)
  · next f hf =>
    split
    · exact .silent rfl rfl (Nat.le_refl _)
    · next a rest ht => exact recorded_act hI (by rw [hf, ← ht])

/-- What a move puts into the record, whoever moves. -/
theorem makeMove_record {s : State} (hI : Inv s) (m : Move) :
    ∃ l, (makeMove m s).bus = l ++ s.bus ∧ (∀ x ∈ l, ∃ r, m = .advance r ∧ transactionPort x = r) ∧
      ((makeMove m s).inoperative = true ↔ s.inoperative = true ∨ ∃ x ∈ l, failedTransaction x = true) := by
  cases m with
  | advance r =>
    obtain ⟨l, h1, h2, -, h4⟩ := (recorded_advance hI r).record
    exact ⟨l, h1, fun x hx => ⟨r, rfl, h2 x hx⟩, h4⟩
  | request r w =>
    refine ⟨[], ?_, by simp, ?_⟩
    · rw [makeMove]; split <;> simp
    · rw [makeMove]; split <;> simp
  | _ => exact ⟨[], rfl, by simp, by simp [makeMove]⟩

end Sys2Proof.Machine
end

