-- ==== Sys2Proof/Laws/Run.lean ====
section
/-! SUPPORT. An operation that runs alone, in a normal form: what it has changed so far (`Run`) over the state it began
in. One lemma per step says how the step changes the normal form; a whole RMW has one of its own. -/

namespace Sys2Proof.Machine

open Sys2Proof.Safety

/-- What an operation that runs alone has changed since it began. -/
structure Run where
  window : Window
  inoperative : Bool
  locks : Locks
  ias : Scanner
  /-- The transactions issued, latest first. -/
  bus : List Transaction
  /-- How many draws have been taken. -/
  taken : Nat

/-- Nothing has changed yet. -/
def Run.start (s : State) : Run :=
  { window := s.window, inoperative := s.inoperative, locks := s.locks, ias := s.ias, bus := [], taken := 0 }

/-- The state in which the operation of port `q`, begun in `s`, has changed `x` and is at `f`. -/
def State.amid (s : State) (q : Nat) (x : Run) (f : Flight) : State :=
  { s with
    window := x.window
    inoperative := x.inoperative
    locks := x.locks
    ias := x.ias
    bus := x.bus ++ s.bus
    draws := s.draws.drop x.taken
    drawCount := s.drawCount + x.taken
    ports := s.ports.modify q fun p => { p with flight := some f, responded := false } }

/-- The state in which the operation is complete. -/
def State.ended (s : State) (q : Nat) (x : Run) (r0 r1 : Word) : State :=
  { s with
    window := x.window
    inoperative := x.inoperative
    locks := x.locks
    ias := x.ias
    bus := x.bus ++ s.bus
    draws := s.draws.drop x.taken
    drawCount := s.drawCount + x.taken
    ports := s.ports.modify q fun p => { p with flight := none, resp0 := r0, resp1 := r1, responded := true } }

variable {s : State} {q : Nat} {x : Run} {temp : Word} {rest : List Action}

theorem modify_modify {α : Type} (l : List α) (n : Nat) (f g : α → α) :
    (l.modify n f).modify n g = l.modify n fun a => g (f a) := by
  apply List.ext_getElem?
  intro i
  simp only [List.getElem?_modify]
  cases l[i]? <;> by_cases h : n = i <;> simp [h]

theorem begin_eq_amid (s : State) (q : Nat) (todo : List Action) :
    begin q todo s = s.amid q (.start s) ⟨todo, 0⟩ := by
  simp [begin, State.modifyPort, Port.start, State.amid, Run.start]

theorem amid_setTodo (f : Flight) (todo : List Action) :
    (s.amid q x f).setTodo q todo = s.amid q x ⟨todo, f.temp⟩ := by
  simp [State.setTodo, State.modifyPort, State.amid, modify_modify, Port.withTodo]

theorem amid_setTemp (f : Flight) (v : Word) : (s.amid q x f).setTemp q v = s.amid q x ⟨f.todo, v⟩ := by
  simp [State.setTemp, State.modifyPort, State.amid, modify_modify, Port.withTemp]

theorem amid_finish (f : Flight) (r0 r1 : Word) : (s.amid q x f).finish q r0 r1 = s.ended q x r0 r1 := by
  simp [State.finish, State.modifyPort, State.amid, State.ended, modify_modify, Port.complete]

theorem amid_setLock (f : Flight) (g : LockFamily) (h : Option Nat) :
    (s.amid q x f).setLock g h = s.amid q { x with locks := x.locks.assign g h } f := rfl

theorem amid_dropLocks (f : Flight) :
    (s.amid q x f).dropLocks q = s.amid q { x with locks := x.locks.dropAll q } f := rfl

theorem amid_setIas (f : Flight) (i : Scanner) : (s.amid q x f).setIas i = s.amid q { x with ias := i } f := rfl

theorem amid_fail (f : Flight) : (s.amid q x f).fail = s.amid q { x with inoperative := true } f := rfl

theorem amid_drawAt (f : Flight) (k : Nat) : (s.amid q x f).drawAt k = s.drawAt (x.taken + k) := by
  simp [State.drawAt, State.amid, Nat.add_assoc]

theorem amid_drawAt_zero (f : Flight) : (s.amid q x f).drawAt 0 = s.drawAt x.taken := amid_drawAt f 0

theorem amid_afterRead (f : Flight) (off : Nat) (v : Option Word) :
    (s.amid q x f).afterRead q off v =
      s.amid q { x with bus := .read q off v :: x.bus, taken := x.taken + 1 } f := by
  simp [State.afterRead, State.dropDraw, State.record, State.amid, Nat.add_assoc]

/-- The window after a write, by the draw of its transaction (R73). -/
def Run.windowAfter (s : State) (x : Run) (r : Reg) (v : Word) : Window :=
  if (s.drawAt x.taken).err = true ∧ (s.drawAt x.taken).took = false then x.window
  else x.window.write r v (s.drawAt x.taken).bits

theorem amid_afterWrite (f : Flight) (off : Nat) (r : Reg) (v : Word) :
    (s.amid q x f).afterWrite q off r v =
      s.amid q { x with
        window := x.windowAfter s r v
        bus := .write q off v (!(s.drawAt x.taken).err) :: x.bus
        taken := x.taken + 1 } f := by
  simp [State.afterWrite, State.windowAfter, Run.windowAfter, State.dropDraw, State.record, State.setWindow,
    amid_drawAt]
  simp [State.amid, Nat.add_assoc]

theorem flightOf_amid (hq : q < s.ports.length) (f : Flight) : (s.amid q x f).flightOf q = some f := by
  simp [State.flightOf, State.amid, List.getElem?_eq_getElem hq]

theorem inFlight_ended (r0 r1 : Word) : (s.ended q x r0 r1).inFlight q = false := by
  rw [State.inFlight_false]
  simp only [State.flightOf, State.ended, List.getElem?_modify]
  cases s.ports[q]? <;> simp

/-- One step of an operation that runs alone. -/
theorem drive_amid (ha : s.agenda = []) (hq : q < s.ports.length) {a : Action}
    (hw : waitsFor q (s.amid q x ⟨a :: rest, temp⟩) a = none) (n : Nat) :
    drive (n + 1) q (s.amid q x ⟨a :: rest, temp⟩) =
      drive n q (act q temp a rest (s.amid q x ⟨a :: rest, temp⟩)) :=
  drive_alone (by exact ha) (flightOf_amid hq _) hw n

/-- A lock taken and released again is as it was. -/
theorem locks_restored {l : Locks} {g : LockFamily} (h : l.holder g = none) (r : Nat) :
    (l.assign g (some r)).assign g none = l := by
  cases g <;> simp only [Locks.holder] at h <;> simp [Locks.assign, ← h]

section Steps

variable (ha : s.agenda = []) (hq : q < s.ports.length)
include ha hq

/-- The response ends the operation. -/
theorem drive_respond (n : Nat) (r0 r1 : Word) :
    drive (n + 1) q (s.amid q x ⟨.respond r0 r1 :: rest, temp⟩) = s.ended q x r0 r1 := by
  rw [drive_amid ha hq rfl, act, amid_finish, drive_idle (inFlight_ended r0 r1)]

/-- An error ends the operation with its status (R95). -/
theorem drive_raise (n : Nat) (st : Status) :
    drive (n + 1) q (s.amid q x ⟨[raise st], temp⟩) = s.ended q x st.code 0 :=
  drive_respond ha hq n _ _

theorem drive_check_inoperative (hi : x.inoperative = true) (n : Nat) (pin : Int) (bad : Option Status) :
    drive (n + 2) q (s.amid q x ⟨.check pin bad :: rest, temp⟩) =
      s.ended q { x with locks := x.locks.dropAll q } Status.registerAccessFailure.code 0 := by
  have h : (s.amid q x ⟨.check pin bad :: rest, temp⟩).inoperative = true := hi
  rw [drive_amid ha hq rfl]
  simp only [act, checkStep, h, if_true]
  rw [raiseIn, amid_dropLocks, amid_setTodo, drive_raise ha hq]

theorem drive_check_pin (hi : x.inoperative = false) {pin : Int} (hp : validPin pin = false) (n : Nat)
    (bad : Option Status) :
    drive (n + 2) q (s.amid q x ⟨.check pin bad :: rest, temp⟩) =
      s.ended q { x with locks := x.locks.dropAll q } Status.invalidPin.code 0 := by
  have h : (s.amid q x ⟨.check pin bad :: rest, temp⟩).inoperative = false := hi
  rw [drive_amid ha hq rfl]
  simp only [act, checkStep, h, Bool.false_eq_true, if_false, hp, if_true]
  rw [raiseIn, amid_dropLocks, amid_setTodo, drive_raise ha hq]

theorem drive_check_argument (hi : x.inoperative = false) {pin : Int} (hp : validPin pin = true) (n : Nat)
    (st : Status) :
    drive (n + 2) q (s.amid q x ⟨.check pin (some st) :: rest, temp⟩) =
      s.ended q { x with locks := x.locks.dropAll q } st.code 0 := by
  have h : (s.amid q x ⟨.check pin (some st) :: rest, temp⟩).inoperative = false := hi
  rw [drive_amid ha hq rfl]
  simp only [act, checkStep, h, Bool.false_eq_true, if_false, hp, reduceCtorEq]
  rw [raiseIn, amid_dropLocks, amid_setTodo, drive_raise ha hq]

/-- The checks pass (R130). -/
theorem drive_check (hi : x.inoperative = false) {pin : Int} (hp : validPin pin = true) (n : Nat) :
    drive (n + 1) q (s.amid q x ⟨.check pin none :: rest, temp⟩) = drive n q (s.amid q x ⟨rest, temp⟩) := by
  have h : (s.amid q x ⟨.check pin none :: rest, temp⟩).inoperative = false := hi
  rw [drive_amid ha hq rfl]
  simp only [act, checkStep, h, Bool.false_eq_true, if_false, hp, reduceCtorEq]
  rw [amid_setTodo]

theorem drive_acquire (g : LockFamily) (hl : x.locks.holder g = none) (n : Nat) :
    drive (n + 1) q (s.amid q x ⟨.acquire g :: rest, temp⟩) =
      drive n q (s.amid q { x with locks := x.locks.assign g (some q) } ⟨rest, temp⟩) := by
  have h : (s.amid q x ⟨.acquire g :: rest, temp⟩).locks.holder g = none := hl
  rw [drive_amid ha hq (by simp [waitsFor, h]), act, acquireStep, h]
  simp only
  rw [amid_setLock, amid_setTodo]

theorem drive_release (g : LockFamily) (n : Nat) :
    drive (n + 1) q (s.amid q x ⟨.release g :: rest, temp⟩) =
      drive n q (s.amid q { x with locks := x.locks.assign g none } ⟨rest, temp⟩) := by
  rw [drive_amid ha hq rfl, act, releaseStep, amid_setLock, amid_setTodo]

theorem drive_readField {p : Nat} (hp : p < 54) (g : LockFamily) (he : (s.drawAt x.taken).err = false) (n : Nat) :
    drive (n + 1) q (s.amid q x ⟨.readField g p :: rest, temp⟩) =
      drive n q (s.amid q { x with
          bus := .read q (location p g.family).byteOffset
            (some (x.window.read (pinReg p g.family) (s.drawAt x.taken).bits)) :: x.bus
          taken := x.taken + 1 }
        ⟨rest, x.window.read (pinReg p g.family) (s.drawAt x.taken).bits⟩) := by
  rw [drive_amid ha hq rfl, act, readFieldStep, addr_valid hp]
  simp only
  rw [memRead_location hp, amid_drawAt_zero, he, if_neg (by simp)]
  simp only
  rw [amid_afterRead, amid_setTemp, amid_setTodo]; rfl

theorem drive_writeField {p : Nat} (hp : p < 54) (g : LockFamily) (he : (s.drawAt x.taken).err = false) (v : Word)
    (n : Nat) :
    drive (n + 1) q (s.amid q x ⟨.writeField g p v :: rest, temp⟩) =
      drive n q (s.amid q { x with
          window := x.window.write (pinReg p g.family)
            (setField temp (location p g.family).bitOffset (location p g.family).width v) (s.drawAt x.taken).bits
          bus := .write q (location p g.family).byteOffset
            (setField temp (location p g.family).bitOffset (location p g.family).width v) true :: x.bus
          taken := x.taken + 1 }
        ⟨rest, temp⟩) := by
  rw [drive_amid ha hq rfl, act, writeFieldStep, addr_valid hp]
  simp only
  rw [memWrite_location hp g.family_ne_readLevel, amid_drawAt_zero, he]
  simp only [Bool.not_false]
  rw [amid_afterWrite, amid_setTodo, Run.windowAfter, he, if_neg (by simp)]; rfl

theorem drive_writeOne {p : Nat} (hp : p < 54) {f : Family} (hf : f ≠ .readLevel)
    (he : (s.drawAt x.taken).err = false) (n : Nat) :
    drive (n + 1) q (s.amid q x ⟨.writeOne f p :: rest, temp⟩) =
      drive n q (s.amid q { x with
          window := x.window.write (pinReg p f) (oneBit (location p f).bitOffset) (s.drawAt x.taken).bits
          bus := .write q (location p f).byteOffset (oneBit (location p f).bitOffset) true :: x.bus
          taken := x.taken + 1 }
        ⟨rest, temp⟩) := by
  rw [drive_amid ha hq rfl, act, writeOneStep, addr_valid hp]
  simp only
  rw [memWrite_location hp hf, amid_drawAt_zero, he]
  simp only [Bool.not_false]
  rw [amid_afterWrite, amid_setTodo, Run.windowAfter, he, if_neg (by simp)]; rfl

/-- The word an RMW of pin `p` reads, its draw being the `k`-th. -/
def rmwRead (s : State) (w : Window) (g : LockFamily) (p k : Nat) : Word :=
  w.read (pinReg p g.family) (s.drawAt k).bits

/-- The word an RMW of pin `p` writes, having read `r`. -/
def rmwWord (g : LockFamily) (p : Nat) (r v : Word) : Word :=
  setField r (location p g.family).bitOffset (location p g.family).width v

/-- The window after an RMW of pin `p`, the draws of its transactions being the `k`-th and the next. -/
def rmwWindow (s : State) (w : Window) (g : LockFamily) (p : Nat) (v : Word) (k : Nat) : Window :=
  w.write (pinReg p g.family) (rmwWord g p (rmwRead s w g p k) v) (s.drawAt (k + 1)).bits

/-- What a whole RMW changes (R131). -/
def Run.rmw (s : State) (q : Nat) (x : Run) (g : LockFamily) (p : Nat) (v : Word) : Run :=
  { x with
    window := rmwWindow s x.window g p v x.taken
    bus := .write q (location p g.family).byteOffset (rmwWord g p (rmwRead s x.window g p x.taken) v) true ::
      .read q (location p g.family).byteOffset (some (rmwRead s x.window g p x.taken)) :: x.bus
    taken := x.taken + 2 }

/-- A whole RMW that meets no `ERR` (R131). -/
theorem drive_rmw {p : Nat} (hp : p < 54) (g : LockFamily) (hl : x.locks.holder g = none)
    (he : (s.drawAt x.taken).err = false) (he' : (s.drawAt (x.taken + 1)).err = false) (v : Word) (n : Nat) :
    drive (n + 4) q (s.amid q x ⟨rmw g p v ++ rest, temp⟩) =
      drive n q (s.amid q (x.rmw s q g p v) ⟨rest, rmwRead s x.window g p x.taken⟩) := by
  rw [rmw]
  simp only [List.cons_append, List.nil_append]
  rw [drive_acquire ha hq g hl, drive_readField ha hq hp g (by exact he), drive_writeField ha hq hp g (by exact he'),
    drive_release ha hq g]
  simp only [locks_restored hl]
  rfl

/-! ### Transactions that return `ERR` -/

/-- What a failed read changes before the response (R133). -/
def Run.failedRead (q off : Nat) (x : Run) : Run :=
  { x with
    inoperative := true
    locks := x.locks.dropAll q
    bus := .read q off none :: x.bus
    taken := x.taken + 1 }

/-- What a failed write changes before the response (R73, R133). -/
def Run.failedWrite (s : State) (q off : Nat) (r : Reg) (v : Word) (x : Run) : Run :=
  { x with
    window := x.windowAfter s r v
    inoperative := true
    locks := x.locks.dropAll q
    bus := .write q off v false :: x.bus
    taken := x.taken + 1 }

theorem drive_readField_err {p : Nat} (hp : p < 54) (g : LockFamily) (he : (s.drawAt x.taken).err = true) (n : Nat) :
    drive (n + 2) q (s.amid q x ⟨.readField g p :: rest, temp⟩) =
      s.ended q (x.failedRead q (location p g.family).byteOffset) 5 0 := by
  rw [drive_amid ha hq rfl, act, readFieldStep, addr_valid hp]
  simp only
  rw [memRead_location hp, amid_drawAt_zero, he, if_pos rfl]
  simp only
  rw [amid_afterRead, accessFailed, raiseIn, amid_fail, amid_dropLocks, amid_setTodo, drive_raise ha hq]; rfl

theorem drive_writeField_err {p : Nat} (hp : p < 54) (g : LockFamily) (he : (s.drawAt x.taken).err = true) (v : Word)
    (n : Nat) :
    drive (n + 2) q (s.amid q x ⟨.writeField g p v :: rest, temp⟩) =
      s.ended q (x.failedWrite s q (location p g.family).byteOffset (pinReg p g.family) (rmwWord g p temp v)) 5 0 := by
  rw [drive_amid ha hq rfl, act, writeFieldStep, addr_valid hp]
  simp only
  rw [memWrite_location hp g.family_ne_readLevel, amid_drawAt_zero, he]
  simp only [Bool.not_true]
  rw [amid_afterWrite, accessFailed, raiseIn, amid_fail, amid_dropLocks, amid_setTodo, drive_raise ha hq, he]; rfl

theorem drive_writeOne_err {p : Nat} (hp : p < 54) {f : Family} (hf : f ≠ .readLevel)
    (he : (s.drawAt x.taken).err = true) (n : Nat) :
    drive (n + 2) q (s.amid q x ⟨.writeOne f p :: rest, temp⟩) =
      s.ended q (x.failedWrite s q (location p f).byteOffset (pinReg p f) (oneBit (location p f).bitOffset)) 5 0 := by
  rw [drive_amid ha hq rfl, act, writeOneStep, addr_valid hp]
  simp only
  rw [memWrite_location hp hf, amid_drawAt_zero, he]
  simp only [Bool.not_true]
  rw [amid_afterWrite, accessFailed, raiseIn, amid_fail, amid_dropLocks, amid_setTodo, drive_raise ha hq, he]; rfl

/-! ### QUERY and ACK -/

/-- What a successful read changes. -/
def Run.read (q off : Nat) (v : Word) (x : Run) : Run :=
  { x with bus := .read q off (some v) :: x.bus, taken := x.taken + 1 }

theorem drive_queryFunction {p : Nat} (hp : p < 54) (he : (s.drawAt x.taken).err = false) (n : Nat) :
    drive (n + 1) q (s.amid q x ⟨.queryFunction p :: rest, temp⟩) =
      drive n q (s.amid q (x.read q (location p .functionSelect).byteOffset
          (x.window.read (pinReg p .functionSelect) (s.drawAt x.taken).bits))
        ⟨if x.window.func p = inputCode ∨ x.window.func p = outputCode then [.queryLevel p (x.window.func p)]
          else [.respond (queryAltResponse (x.window.func p)) 0], temp⟩) := by
  have hfn : getField (x.window.read (pinReg p .functionSelect) (s.drawAt x.taken).bits)
      (location p .functionSelect).bitOffset 3 = x.window.func p := by
    have := x.window.getField_read_fsel (Fin.ofNat 6 (p / 10)) (s.drawAt x.taken).bits hp
      (by simp [Fin.ofNat]; omega)
    rw [← this]
    congr 1
    simp [location, pinsPerRegister, fieldWidth, Nat.mul_comm]
  rw [drive_amid ha hq rfl, act, queryFunctionStep, addr_valid hp]
  simp only
  rw [memRead_location hp, amid_drawAt_zero, he, if_neg (by simp)]
  have hw : (s.amid q x ⟨.queryFunction p :: rest, temp⟩).window = x.window := rfl
  simp only [hw, hfn]
  split <;> (rw [amid_afterRead, amid_setTodo]; rfl)

theorem drive_queryLevel {p : Nat} (hp : p < 54) (fn : Word) (he : (s.drawAt x.taken).err = false) (n : Nat) :
    drive (n + 2) q (s.amid q x ⟨.queryLevel p fn :: rest, temp⟩) =
      s.ended q (x.read q (location p .readLevel).byteOffset
          (x.window.read (pinReg p .readLevel) (s.drawAt x.taken).bits))
        (queryIoResponse fn (getField (x.window.read (pinReg p .readLevel) (s.drawAt x.taken).bits)
          (location p .readLevel).bitOffset 1)) 0 := by
  rw [drive_amid ha hq rfl, act, queryLevelStep, addr_valid hp]
  simp only
  rw [memRead_location hp, amid_drawAt_zero, he, if_neg (by simp)]
  simp only
  rw [amid_afterRead, amid_setTodo, drive_respond ha hq]; rfl

theorem drive_queryFunction_err {p : Nat} (hp : p < 54) (he : (s.drawAt x.taken).err = true) (n : Nat) :
    drive (n + 2) q (s.amid q x ⟨.queryFunction p :: rest, temp⟩) =
      s.ended q (x.failedRead q (location p .functionSelect).byteOffset) 5 0 := by
  rw [drive_amid ha hq rfl, act, queryFunctionStep, addr_valid hp]
  simp only
  rw [memRead_location hp, amid_drawAt_zero, he, if_pos rfl]
  simp only
  rw [amid_afterRead, accessFailed, raiseIn, amid_fail, amid_dropLocks, amid_setTodo, drive_raise ha hq]; rfl

theorem drive_queryLevel_err {p : Nat} (hp : p < 54) (fn : Word) (he : (s.drawAt x.taken).err = true) (n : Nat) :
    drive (n + 2) q (s.amid q x ⟨.queryLevel p fn :: rest, temp⟩) =
      s.ended q (x.failedRead q (location p .readLevel).byteOffset) 5 0 := by
  rw [drive_amid ha hq rfl, act, queryLevelStep, addr_valid hp]
  simp only
  rw [memRead_location hp, amid_drawAt_zero, he, if_pos rfl]
  simp only
  rw [amid_afterRead, accessFailed, raiseIn, amid_fail, amid_dropLocks, amid_setTodo, drive_raise ha hq]; rfl

/-- The response of ACK, which frees the scanner. -/
theorem drive_respondScan (n index : Nat) :
    drive (n + 1) q (s.amid q x ⟨.respondScan index :: rest, temp⟩) =
      s.ended q { x with ias := { x.ias with busy := false } } (ackResponse index) 0 := by
  rw [drive_amid ha hq rfl, act, respondScanStep, amid_setIas, amid_finish, drive_idle (inFlight_ended _ _)]; rfl

theorem drive_claim (hb : x.ias.busy = false) (n : Nat) :
    drive (n + 1) q (s.amid q x ⟨.claimScanner :: rest, temp⟩) =
      drive n q (s.amid q { x with ias := { x.ias with busy := true, owner := q } }
        ⟨if x.inoperative then [.respondScan 64] else [.scanLow], temp⟩) := by
  have h : (s.amid q x ⟨.claimScanner :: rest, temp⟩).ias = x.ias := rfl
  have hi : (s.amid q x ⟨.claimScanner :: rest, temp⟩).inoperative = x.inoperative := rfl
  rw [drive_amid ha hq (by simp [waitsFor, h, hb]), act, claimStep, h, hb, hi, if_neg (by simp)]
  simp only
  split <;> (rw [amid_setIas, amid_setTodo] <;> rfl)

theorem drive_scanLow (he : (s.drawAt x.taken).err = false) (n : Nat) :
    drive (n + 1) q (s.amid q x ⟨.scanLow :: rest, temp⟩) =
      drive n q (s.amid q
        (let v := x.window.read (.eds 0) (s.drawAt x.taken).bits
         { x.read q 0x40 v with ias := if v ≠ 0 then { x.ias with val := v, base := 0, reg := 0x40 } else x.ias })
        ⟨if x.window.read (.eds 0) (s.drawAt x.taken).bits ≠ 0 then [.scanClear] else [.scanHigh], temp⟩) := by
  rw [drive_amid ha hq rfl, act, scanLowStep, scanOffset_low, memRead_location (by omega), amid_drawAt_zero,
    he, if_neg (by simp)]
  have hw : (s.amid q x ⟨.scanLow :: rest, temp⟩).window = x.window := rfl
  simp only [hw, show pinReg 0 .eventStatus = .eds 0 from rfl]
  split
  · rw [amid_afterRead, amid_setIas, amid_setTodo]; rfl
  · rw [amid_afterRead, amid_setTodo]; rfl

theorem drive_scanHigh (he : (s.drawAt x.taken).err = false) (n : Nat) :
    drive (n + 1) q (s.amid q x ⟨.scanHigh :: rest, temp⟩) =
      drive n q (s.amid q
        (let v := x.window.read (.eds 1) (s.drawAt x.taken).bits
         { x.read q 0x44 v with ias := { x.ias with val := v, base := 32, reg := 0x44 } })
        ⟨if x.window.read (.eds 1) (s.drawAt x.taken).bits = 0 then [.respondScan 64] else [.scanClear], temp⟩) := by
  rw [drive_amid ha hq rfl, act, scanHighStep, scanOffset_high, memRead_location (by omega), amid_drawAt_zero,
    he, if_neg (by simp)]
  have hw : (s.amid q x ⟨.scanHigh :: rest, temp⟩).window = x.window := rfl
  simp only [hw, show pinReg 32 .eventStatus = .eds 1 from rfl]
  split <;> (rw [amid_afterRead, amid_setIas, amid_setTodo]; rfl)

theorem drive_scanLow_err (he : (s.drawAt x.taken).err = true) (n : Nat) :
    drive (n + 2) q (s.amid q x ⟨.scanLow :: rest, temp⟩) =
      s.ended q { x with
        inoperative := true, ias := { x.ias with busy := false }, bus := .read q 0x40 none :: x.bus,
        taken := x.taken + 1 } (ackResponse 64) 0 := by
  rw [drive_amid ha hq rfl, act, scanLowStep, scanOffset_low, memRead_location (by omega), amid_drawAt_zero,
    he, if_pos rfl]
  simp only
  rw [amid_afterRead, scanFailed, amid_fail, amid_setTodo, drive_respondScan ha hq]; rfl

theorem drive_scanHigh_err (he : (s.drawAt x.taken).err = true) (n : Nat) :
    drive (n + 2) q (s.amid q x ⟨.scanHigh :: rest, temp⟩) =
      s.ended q { x with
        inoperative := true, ias := { x.ias with busy := false }, bus := .read q 0x44 none :: x.bus,
        taken := x.taken + 1 } (ackResponse 64) 0 := by
  rw [drive_amid ha hq rfl, act, scanHighStep, scanOffset_high, memRead_location (by omega), amid_drawAt_zero,
    he, if_pos rfl]
  simp only
  rw [amid_afterRead, scanFailed, amid_fail, amid_setTodo, drive_respondScan ha hq]; rfl

/-- The clearing write at the active register of `i`, EDS0 or EDS1. -/
theorem drive_scanClear (i : Fin 2) (hr : x.ias.reg = (Reg.eds i).offset) (he : (s.drawAt x.taken).err = false)
    (n : Nat) :
    drive (n + 2) q (s.amid q x ⟨.scanClear :: rest, temp⟩) =
      s.ended q { x with
        window := x.window.write (.eds i) (oneBit (ctz32 x.ias.val)) (s.drawAt x.taken).bits
        ias := { x.ias with busy := false }
        bus := .write q (Reg.eds i).offset (oneBit (ctz32 x.ias.val)) true :: x.bus
        taken := x.taken + 1 } (ackResponse (x.ias.base + ctz32 x.ias.val)) 0 := by
  rw [drive_amid ha hq rfl, act, scanClearStep]
  have hi : (s.amid q x ⟨.scanClear :: rest, temp⟩).ias = x.ias := rfl
  have key : ∀ j : Fin 2, (Reg.eds j).offset = (location (32 * j) .eventStatus).byteOffset ∧
      pinReg (32 * j) .eventStatus = .eds j := by decide
  have e := memWrite_location (p := 32 * i) (by omega) (f := .eventStatus) (by simp) q (oneBit (ctz32 x.ias.val))
    (s.amid q x ⟨.scanClear :: rest, temp⟩)
  rw [← (key i).1, (key i).2, amid_drawAt_zero, he, amid_afterWrite, he] at e
  simp only [hi]
  rw [hr, e]
  simp only [Bool.not_false]
  rw [amid_setTodo, drive_respondScan ha hq, Run.windowAfter, he, if_neg (by simp), ← hr]

theorem drive_scanClear_err (i : Fin 2) (hr : x.ias.reg = (Reg.eds i).offset) (he : (s.drawAt x.taken).err = true)
    (n : Nat) :
    drive (n + 2) q (s.amid q x ⟨.scanClear :: rest, temp⟩) =
      s.ended q { x with
        window := x.windowAfter s (.eds i) (oneBit (ctz32 x.ias.val))
        inoperative := true
        ias := { x.ias with busy := false }
        bus := .write q (Reg.eds i).offset (oneBit (ctz32 x.ias.val)) false :: x.bus
        taken := x.taken + 1 } (ackResponse 64) 0 := by
  rw [drive_amid ha hq rfl, act, scanClearStep]
  have hi : (s.amid q x ⟨.scanClear :: rest, temp⟩).ias = x.ias := rfl
  have key : ∀ j : Fin 2, (Reg.eds j).offset = (location (32 * j) .eventStatus).byteOffset ∧
      pinReg (32 * j) .eventStatus = .eds j := by decide
  have e := memWrite_location (p := 32 * i) (by omega) (f := .eventStatus) (by simp) q (oneBit (ctz32 x.ias.val))
    (s.amid q x ⟨.scanClear :: rest, temp⟩)
  rw [← (key i).1, (key i).2, amid_drawAt_zero, he, amid_afterWrite, he] at e
  simp only [hi]
  rw [hr, e]
  simp only [Bool.not_true]
  rw [scanFailed, amid_fail, amid_setTodo, drive_respondScan ha hq, ← hr]
  rfl

end Steps

/-! ### The whole operation -/

/-- An operation that runs alone ends as its steps say, if `k`, at most the weight of its sequence, are enough. -/
theorem perform_alone {s : State} (h : Ready s) {todo : List Action} {x : Run} {r0 r1 : Word} (k : Nat)
    (hk : k ≤ stepsWeight todo)
    (hd : drive k s.issuer (s.amid s.issuer (.start s) ⟨todo, 0⟩) = s.ended s.issuer x r0 r1) :
    perform todo s = .next (s.ended s.issuer x r0 r1) := by
  rw [perform_ready h, settle_begin h k hk (by rw [begin_eq_amid]; exact hd) (inFlight_ended r0 r1)]

/-- The state at the end of an operation, if the locks are as they were. -/
theorem completed_ended {s : State} (h : s.issuer < s.ports.length) {x : Run} (hl : x.locks = s.locks)
    (r0 r1 : Word) : Completed s (s.ended s.issuer x r0 r1) r0 r1 := by
  have hp : s.ports[s.issuer]? = some s.ports[s.issuer] := List.getElem?_eq_getElem h
  refine ⟨?_, ⟨?_, fun q hq => ?_, ?_⟩, hl, rfl, rfl, rfl, rfl⟩
  · simp [readResponse, State.ended, hp]
  · simp [State.ended]
  · simp [State.ended, Ne.symm hq]
  · simp [State.ended, hp]

/-- An error drops no lock of a port that holds none. -/
theorem dropAll_unlocked {l : Locks} {r : Nat} (h : ∀ g, l.holder g ≠ some r) : l.dropAll r = l := by
  have h1 := h .functionSelect
  have h2 := h .risingEdgeEnable
  have h3 := h .fallingEdgeEnable
  simp only [Locks.holder] at h1 h2 h3
  simp [Locks.dropAll, dropIf, h1, h2, h3]

/-! ### The window after an RMW -/

theorem lowMask_one_and (v : Word) (i : Nat) : (v &&& lowMask 1).getLsbD i = (decide (i = 0) && v.getLsbD 0) := by
  rw [BitVec.getLsbD_and, getLsbD_lowMask]
  by_cases h : i = 0
  · subst h; simp
  · simp [h]

/-- The function code of each pin after an RMW of FunctionSelect (R131). -/
theorem func_rmwWindow_functionSelect (s : State) (w : Window) {p k : Nat} (hp : p < 54) (hk : k < 54) (v : Word)
    (d : Nat) :
    (rmwWindow s w .functionSelect p v d).func k = if k = p then v &&& lowMask 3 else w.func k := by
  have hval : (Fin.ofNat 6 (p / 10)).val = p / 10 := by simp [Fin.ofNat]; omega
  have hloc : (location p Family.functionSelect).bitOffset = 3 * (p % 10) := by
    simp [location, pinsPerRegister, fieldWidth, Nat.mul_comm]
  have hwid : (location p Family.functionSelect).width = 3 := rfl
  rw [rmwWindow, show pinReg p LockFamily.functionSelect.family = .fsel (Fin.ofNat 6 (p / 10)) from rfl, Window.write,
    Window.func_writeFsel w _ _ _ hk, hval, rmwWord, show LockFamily.functionSelect.family = .functionSelect from rfl,
    hloc, hwid]
  split
  · next h =>
    split
    · next e => rw [e, getField_setField_same _ _ _ _ (by omega)]
    · next e =>
      rw [getField_setField_other _ _ _ _ _ _ (by omega) (by omega), rmwRead]
      exact w.getField_read_fsel _ _ hk (by rw [hval]; exact h)
  · next h => rw [if_neg (fun e => h (by rw [e]))]

/-- Only the pin an RMW turns into Output takes a drawn latch (R52). -/
theorem latch_rmwWindow_functionSelect (s : State) (w : Window) {p k : Nat} (hp : p < 54) (hk : k < 54) (v : Word)
    (d : Nat) (h : k ≠ p ∨ v &&& lowMask 3 ≠ outputCode) :
    (rmwWindow s w .functionSelect p v d).latch k = w.latch k := by
  have hf := func_rmwWindow_functionSelect s w hp hk v d
  rw [rmwWindow, show pinReg p LockFamily.functionSelect.family = .fsel (Fin.ofNat 6 (p / 10)) from rfl,
    Window.write] at hf ⊢
  rw [Window.latch_writeFsel w _ _ _ hk, if_neg]
  rintro ⟨h1, h2⟩
  rw [hf] at h1
  split at h1
  · next e => exact h.elim (fun hn => hn e) (fun hn => hn h1)
  · exact h2 h1

theorem rmwWindow_functionSelect_fields (s : State) (w : Window) (p : Nat) (v : Word) (d : Nat) :
    (rmwWindow s w .functionSelect p v d).eds = w.eds ∧ (rmwWindow s w .functionSelect p v d).ren = w.ren ∧
    (rmwWindow s w .functionSelect p v d).fen = w.fen ∧
    (rmwWindow s w .functionSelect p v d).extLevel = w.extLevel :=
  ⟨rfl, rfl, rfl, rfl⟩

theorem rmwWindow_rising_fields (s : State) (w : Window) (p : Nat) (v : Word) (d : Nat) :
    (rmwWindow s w .risingEdgeEnable p v d).fsel = w.fsel ∧ (rmwWindow s w .risingEdgeEnable p v d).eds = w.eds ∧
    (rmwWindow s w .risingEdgeEnable p v d).fen = w.fen ∧
    (rmwWindow s w .risingEdgeEnable p v d).outLatch = w.outLatch ∧
    (rmwWindow s w .risingEdgeEnable p v d).extLevel = w.extLevel :=
  ⟨rfl, rfl, rfl, rfl, rfl⟩

theorem rmwWindow_falling_fields (s : State) (w : Window) (p : Nat) (v : Word) (d : Nat) :
    (rmwWindow s w .fallingEdgeEnable p v d).fsel = w.fsel ∧ (rmwWindow s w .fallingEdgeEnable p v d).eds = w.eds ∧
    (rmwWindow s w .fallingEdgeEnable p v d).ren = w.ren ∧
    (rmwWindow s w .fallingEdgeEnable p v d).outLatch = w.outLatch ∧
    (rmwWindow s w .fallingEdgeEnable p v d).extLevel = w.extLevel :=
  ⟨rfl, rfl, rfl, rfl, rfl⟩

/-- What an RMW stores in the bit of pin `k`, in a family with one bit a pin. -/
theorem getLsbD_rmw_bit {w r v : Word} {i : Fin 2} {p k : Nat} (hp : p < 54) (hk : k < 54) (hi : k / 32 = i)
    (hpi : p / 32 = i) (hr : ∀ b, (bitPinMask i).getLsbD b = true → r.getLsbD b = w.getLsbD b) :
    (setField r (p % 32) 1 v &&& bitPinMask i).getLsbD (k % 32) =
      if k = p then v.getLsbD 0 else w.getLsbD (k % 32) := by
  have hm : (bitPinMask i).getLsbD (k % 32) = true := by
    rw [getLsbD_bitPinMask]; simp; omega
  rw [BitVec.getLsbD_and, hm, Bool.and_true, getLsbD_setField _ _ _ _ (Nat.mod_lt _ (by omega))]
  by_cases h : k = p
  · subst h; simp
  · rw [if_neg (by omega), if_neg h, hr _ hm]

theorem rising_rmwWindow (s : State) (w : Window) {p k : Nat} (hp : p < 54) (hk : k < 54) (v : Word) (d : Nat) :
    (rmwWindow s w .risingEdgeEnable p v d).rising k = if k = p then v.getLsbD 0 else w.rising k := by
  have hval : (Fin.ofNat 2 (p / 32)).val = p / 32 := by simp [Fin.ofNat]; omega
  have hloc : (location p Family.risingEdgeEnable).bitOffset = p % 32 := by
    simp [location, pinsPerRegister, fieldWidth]
  rw [rmwWindow, show pinReg p LockFamily.risingEdgeEnable.family = .ren (Fin.ofNat 2 (p / 32)) from rfl, Window.write,
    rmwWord, show LockFamily.risingEdgeEnable.family = .risingEdgeEnable from rfl, hloc,
    show (location p Family.risingEdgeEnable).width = 1 from rfl, Window.rising, Window.renAt_set, hval]
  split
  · next h =>
    rw [getLsbD_rmw_bit (w := w.renAt (p / 32)) hp hk (by rw [hval]; exact h) hval.symm]
    · split
      · rfl
      · rw [Window.rising, h]
    · intro b hb
      rw [rmwRead, show pinReg p LockFamily.risingEdgeEnable.family = .ren (Fin.ofNat 2 (p / 32)) from rfl,
        Window.read, getLsbD_withDraw, if_pos hb, hval]
  · next h => rw [if_neg (fun e => h (by rw [e]))]; rfl

theorem falling_rmwWindow (s : State) (w : Window) {p k : Nat} (hp : p < 54) (hk : k < 54) (v : Word) (d : Nat) :
    (rmwWindow s w .fallingEdgeEnable p v d).falling k = if k = p then v.getLsbD 0 else w.falling k := by
  have hval : (Fin.ofNat 2 (p / 32)).val = p / 32 := by simp [Fin.ofNat]; omega
  have hloc : (location p Family.fallingEdgeEnable).bitOffset = p % 32 := by
    simp [location, pinsPerRegister, fieldWidth]
  rw [rmwWindow, show pinReg p LockFamily.fallingEdgeEnable.family = .fen (Fin.ofNat 2 (p / 32)) from rfl,
    Window.write, rmwWord, show LockFamily.fallingEdgeEnable.family = .fallingEdgeEnable from rfl, hloc,
    show (location p Family.fallingEdgeEnable).width = 1 from rfl, Window.falling, Window.fenAt_set, hval]
  split
  · next h =>
    rw [getLsbD_rmw_bit (w := w.fenAt (p / 32)) hp hk (by rw [hval]; exact h) hval.symm]
    · split
      · rfl
      · rw [Window.falling, h]
    · intro b hb
      rw [rmwRead, show pinReg p LockFamily.fallingEdgeEnable.family = .fen (Fin.ofNat 2 (p / 32)) from rfl,
        Window.read, getLsbD_withDraw, if_pos hb, hval]
  · next h => rw [if_neg (fun e => h (by rw [e]))]; rfl

/-! ### The window after a clearing write of ACK -/

/-- The write of one bit to EDSi clears that latch and no other (R56, R165). -/
theorem pending_write_eds (w : Window) (i : Fin 2) {b : Nat} (hb : b < 32) (bits : Word) (k : Nat) :
    (w.write (.eds i) (oneBit b) bits).pending k = (w.pending k && !decide (k = 32 * i + b)) := by
  rw [Window.write, Window.pending, Window.edsAt_set]
  have h32 : k % 32 < 32 := Nat.mod_lt _ (by omega)
  split
  · next h =>
    rw [BitVec.getLsbD_and, BitVec.getLsbD_not, getLsbD_oneBit hb, Window.pending, h]
    have : (k % 32 = b) ↔ k = 32 * i.val + b := by omega
    simp [h32, this]
  · next h =>
    have : k ≠ 32 * i.val + b := by omega
    simp [Window.pending, this]

/-- EDS0 has no non-pin bits: it reads as it is. -/
theorem read_eds_low (w : Window) (bits : Word) : w.read (.eds 0) bits = w.edsAt 0 := by
  apply BitVec.eq_of_getLsbD_eq
  intro b hb
  rw [Window.read, getLsbD_withDraw, getLsbD_bitPinMask, if_pos (by simp; omega)]; rfl

/-- In its pin bits, EDS1 reads as the latches of pins 32 to 53. -/
theorem getLsbD_read_eds_high (w : Window) (bits : Word) {b : Nat} (hb : b < 22) :
    (w.read (.eds 1) bits).getLsbD b = w.pending (32 + b) := by
  rw [Window.read, getLsbD_withDraw, getLsbD_bitPinMask, if_pos (by simp; omega), Window.pending]
  have h1 : (32 + b) / 32 = 1 := by omega
  have h2 : (32 + b) % 32 = b := by omega
  rw [h1, h2]; rfl

theorem getLsbD_edsAt_low (w : Window) {b : Nat} (hb : b < 32) : (w.edsAt 0).getLsbD b = w.pending b := by
  rw [Window.pending, Nat.div_eq_of_lt hb, Nat.mod_eq_of_lt hb]

end Sys2Proof.Machine
end

