-- ==== Sys2Proof/Laws/Locking.lean ====
section
/-! SUPPORT. What a lock protects (R64, R131, R146): the moves of other agents between the read and the write of an RMW,
and the fields of the other pins in the word that is written back. -/

namespace Sys2Proof.Machine

open Sys2Proof.Safety

/-- A field of one bit, as a word. -/
theorem getField_one (r : Word) (b : Nat) : getField r b 1 = if r.getLsbD b then 1 else 0 := by
  apply BitVec.eq_of_getLsbD_eq
  intro i hi
  rw [getLsbD_getField]
  by_cases h : i = 0
  · subst h; cases h2 : r.getLsbD b <;> simp
  · have h1 : decide (i < 1) = false := by simp; omega
    rw [h1]
    split <;> simp
    omega

/-- Moves of other agents keep the position of an operation in flight, the registers of the family it holds the lock
of, its locks, and, while it owns it, the scanner (R64, R131, R146, R166). -/
theorem runMoves_keeps {s : State} (hI : Inv s) {q : Nat} {f : Flight} (hf : s.flightOf q = some f) (ms : List Move)
    (hms : ∀ m ∈ ms, m ≠ .advance q) :
    Inv (runMoves ms s) ∧ (runMoves ms s).flightOf q = some f ∧
    (∀ g r, Reg.ofLock g r → s.locks.holder g = some q → (runMoves ms s).window.stored r = s.window.stored r) ∧
    (∀ g, (runMoves ms s).locks.holder g = some q ↔ s.locks.holder g = some q) ∧
    (s.ias.busy = true → s.ias.owner = q → (runMoves ms s).ias = s.ias) := by
  induction ms generalizing s with
  | nil => exact ⟨hI, hf, fun _ _ _ _ => rfl, fun _ => Iff.rfl, fun _ _ => rfl⟩
  | cons m ms ih =>
    have hm := hms m (by simp)
    have hq : s.inFlight q = true := (s.inFlight_iff q).2 ⟨f, hf⟩
    have hI' := inv_makeMove hI m
    have hf' : (makeMove m s).flightOf q = some f := by
      rw [State.flightOf, makeMove_port hI hq hm]; exact hf
    have hl : ∀ g, (makeMove m s).locks.holder g = some q ↔ s.locks.holder g = some q := by
      intro g
      cases m with
      | advance r => exact (advance_stepBy hI r).locks g q (fun e => hm (by rw [e]))
      | request r w => rw [makeMove]; split <;> exact Iff.rfl
      | _ => exact Iff.rfl
    have hst : ∀ g r, Reg.ofLock g r → s.locks.holder g = some q →
        (makeMove m s).window.stored r = s.window.stored r := by
      intro g r hg hh
      have hne : ∀ i, r ≠ .eds i := by rintro i rfl; cases g <;> exact hg
      cases m with
      | advance r' =>
        refine (advance_stepBy hI r').stored g r hg ?_
        rw [hh]; rintro e; cases e; exact hm rfl
      | request r' w => rw [makeMove]; split <;> rfl
      | level p v => exact s.window.stored_changeLevel p v hne
      | event p => exact s.window.stored_otherEvent p hne
      | redraw => rfl
    have hias : s.ias.busy = true → s.ias.owner = q → (makeMove m s).ias = s.ias := by
      intro hb ho
      cases m with
      | advance r => exact (advance_stepBy hI r).scanner hb (fun e => hm (by rw [← e, ho]))
      | request r w => rw [makeMove]; split <;> rfl
      | _ => rfl
    obtain ⟨a1, a2, a3, a4, a5⟩ := ih hI' hf' (fun m h => hms m (by simp [h]))
    refine ⟨a1, a2, ?_, ?_, ?_⟩
    · intro g r hg hh
      exact (a3 g r hg ((hl g).2 hh)).trans (hst g r hg hh)
    · intro g; exact (a4 g).trans (hl g)
    · intro hb ho
      have e := hias hb ho
      exact (a5 (by rw [e]; exact hb) (by rw [e]; exact ho)).trans e

theorem lockField_congr {w w' : Window} {g : LockFamily} (h : ∀ r, Reg.ofLock g r → w'.stored r = w.stored r)
    {k : Nat} (hk : k < 54) : lockField w' g k = lockField w g k := by
  cases g with
  | functionSelect =>
    have := h (.fsel (Fin.ofNat 6 (k / 10))) trivial
    have hval : (Fin.ofNat 6 (k / 10)).val = k / 10 := by simp [Fin.ofNat]; omega
    simp only [Window.stored, hval] at this
    simp only [lockField, Window.func, this]
  | risingEdgeEnable =>
    have := h (.ren (Fin.ofNat 2 (k / 32))) trivial
    have hval : (Fin.ofNat 2 (k / 32)).val = k / 32 := by simp [Fin.ofNat]; omega
    simp only [Window.stored, hval] at this
    show (if w'.rising k then (1 : Word) else 0) = if w.rising k then 1 else 0
    rw [show w'.rising k = w.rising k by simp only [Window.rising, this]]
  | fallingEdgeEnable =>
    have := h (.fen (Fin.ofNat 2 (k / 32))) trivial
    have hval : (Fin.ofNat 2 (k / 32)).val = k / 32 := by simp [Fin.ofNat]; omega
    simp only [Window.stored, hval] at this
    show (if w'.falling k then (1 : Word) else 0) = if w.falling k then 1 else 0
    rw [show w'.falling k = w.falling k by simp only [Window.falling, this]]

/-- The field of a pin, in the word of its register. -/
theorem lockField_word {w : Window} {g : LockFamily} {k : Nat} (hk : k < 54) :
    lockField w g k =
      getField (w.stored (pinReg k g.family)) (location k g.family).bitOffset (location k g.family).width := by
  cases g with
  | functionSelect =>
    have hval : (Fin.ofNat 6 (k / 10)).val = k / 10 := by simp [Fin.ofNat]; omega
    simp only [lockField, Window.func, LockFamily.family, pinReg, Window.stored, hval, (location_functionSelect k).2.1,
      (location_functionSelect k).2.2]
  | risingEdgeEnable =>
    have hval : (Fin.ofNat 2 (k / 32)).val = k / 32 := by simp [Fin.ofNat]; omega
    have hl := location_bit k (f := .risingEdgeEnable) (by simp)
    show (if w.rising k then (1 : Word) else 0) = getField (w.stored (.ren (Fin.ofNat 2 (k / 32))))
      (location k .risingEdgeEnable).bitOffset (location k .risingEdgeEnable).width
    rw [hl.2.1, hl.2.2]
    have e : w.rising k = (w.stored (.ren (Fin.ofNat 2 (k / 32)))).getLsbD (k % 32) := by
      simp only [Window.rising, Window.stored, hval]
    rw [e]
    exact (getField_one _ _).symm
  | fallingEdgeEnable =>
    have hval : (Fin.ofNat 2 (k / 32)).val = k / 32 := by simp [Fin.ofNat]; omega
    have hl := location_bit k (f := .fallingEdgeEnable) (by simp)
    show (if w.falling k then (1 : Word) else 0) = getField (w.stored (.fen (Fin.ofNat 2 (k / 32))))
      (location k .fallingEdgeEnable).bitOffset (location k .fallingEdgeEnable).width
    rw [hl.2.1, hl.2.2]
    have e : w.falling k = (w.stored (.fen (Fin.ofNat 2 (k / 32)))).getLsbD (k % 32) := by
      simp only [Window.falling, Window.stored, hval]
    rw [e]
    exact (getField_one _ _).symm

/-- A register with a lock holds the pin bits of the word written (R52, R57). -/
theorem stored_write_self (w : Window) (p : Nat) (g : LockFamily) (v bits : Word) :
    (w.write (pinReg p g.family) v bits).stored (pinReg p g.family) = v &&& (pinReg p g.family).pinMask := by
  cases g with
  | functionSelect =>
    simp [pinReg, LockFamily.family, Window.write, Window.stored, Window.fselAt_writeFsel, Reg.pinMask]
  | risingEdgeEnable => exact (w.renAt_set _ _ _).trans (if_pos rfl)
  | fallingEdgeEnable => exact (w.fenAt_set _ _ _).trans (if_pos rfl)

/-- The fields of two pins in one register do not overlap (R27). -/
theorem fields_apart : ∀ g ∈ [LockFamily.functionSelect, .risingEdgeEnable, .fallingEdgeEnable],
    ∀ p k : Fin 54, p ≠ k → pinReg p g.family = pinReg k g.family →
      (location k g.family).bitOffset + (location k g.family).width ≤ (location p g.family).bitOffset ∨
      (location p g.family).bitOffset + (location p g.family).width ≤ (location k g.family).bitOffset := by
  decide +kernel

/-- The field of a pin lies among the pin bits of its register (R28, R29). -/
theorem field_in_mask : ∀ g ∈ [LockFamily.functionSelect, .risingEdgeEnable, .fallingEdgeEnable], ∀ k : Fin 54,
    (location k g.family).bitOffset + (location k g.family).width ≤ 32 ∧
    ∀ i : Fin 32, (location k g.family).bitOffset ≤ i.val →
      i.val < (location k g.family).bitOffset + (location k g.family).width →
      (pinReg k g.family).pinMask.getLsbD i = true := by
  decide +kernel

theorem getField_mask {g : LockFamily} {k : Nat} (hk : k < 54) (v : Word) :
    getField (v &&& (pinReg k g.family).pinMask) (location k g.family).bitOffset (location k g.family).width =
      getField v (location k g.family).bitOffset (location k g.family).width := by
  obtain ⟨h1, h2⟩ := field_in_mask g (by cases g <;> simp) ⟨k, hk⟩
  apply getField_eq_of_bits
  intro i hi hi'
  have := h2 ⟨i, by simp only at h1; omega⟩ hi hi'
  simp only at this
  rw [BitVec.getLsbD_and, this, Bool.and_true]

/-! ### States that meet the invariant -/

/-- A machine in which no operation is in flight, no lock is held and the scanner is free meets the invariant, over any
window in canonical form. -/
theorem inv_of_idle {s : State} (ports : 2 ≤ s.ports.length) (issuer : s.issuer < s.ports.length)
    (window : WindowOk s.window) (idle : ∀ q, s.flightOf q = none) (locks : ∀ g, s.locks.holder g = none)
    (busy : s.ias.busy = false) : Inv s where
  ports := ports
  issuer := issuer
  window := window
  fresh q p hp hs := by
    have h := idle q
    rw [State.flightOf, hp, Option.bind_some] at h
    rw [h] at hs; cases hs
  sequence q f hf := by rw [idle] at hf; cases hf
  holders l q hl := by rw [locks] at hl; cases hl
  scanner q := by rw [idle, busy]; simp
  active q f hf := by rw [idle] at hf; cases hf
  temps q f _ _ _ _ hf := by rw [idle] at hf; cases hf
  ended _ := idle

/-- Moves keep the invariant. -/
theorem inv_runMoves {s : State} (hI : Inv s) (ms : List Move) : Inv (runMoves ms s) := by
  induction ms generalizing s with
  | nil => exact hI
  | cons m ms ih => exact ih (inv_makeMove hI m)

end Sys2Proof.Machine
end

