-- ==== Sys2Proof/Laws/Effects.lean ====
section
/-! SUPPORT. One step of an operation as an equation, for each kind of step (its transaction succeeds), and what a step
of any operation and a move of the window hardware leave of the function code and the output latch of a pin. -/

namespace Sys2Proof.Machine

open Sys2Proof.Safety

variable {s : State} {q p : Nat} {temp : Word} {rest : List Action}

/-! ### The steps -/

theorem advance_eq {a : Action} (hf : s.flightOf q = some ⟨a :: rest, temp⟩) :
    advance q s = act q temp a rest s := by
  simp [advance, hf]

theorem advance_idle (h : s.flightOf q = none) : advance q s = s := by simp [advance, h]

theorem advance_check (hf : s.flightOf q = some ⟨.check p none :: rest, temp⟩) (hp : p < 54)
    (hi : s.inoperative = false) : advance q s = s.setTodo q rest := by
  have hv : validPin p = true := by simp [hp]
  simp [advance_eq hf, act, checkStep, hi, hv]

theorem advance_acquire {g : LockFamily} (hf : s.flightOf q = some ⟨.acquire g :: rest, temp⟩)
    (h : s.locks.holder g = none) : advance q s = (s.setLock g (some q)).setTodo q rest := by
  simp [advance_eq hf, act, acquireStep, h]

theorem advance_acquire_held {g : LockFamily} (hf : s.flightOf q = some ⟨.acquire g :: rest, temp⟩) {r : Nat}
    (h : s.locks.holder g = some r) (hr : r ≠ q) : advance q s = s := by
  simp [advance_eq hf, act, acquireStep, h, hr]

theorem advance_readField {g : LockFamily} (hf : s.flightOf q = some ⟨.readField g p :: rest, temp⟩) (hp : p < 54)
    (he : (s.drawAt 0).err = false) :
    advance q s = ((s.afterRead q (location p g.family).byteOffset
      (some (s.window.read (pinReg p g.family) (s.drawAt 0).bits))).setTemp q
        (s.window.read (pinReg p g.family) (s.drawAt 0).bits)).setTodo q rest := by
  rw [advance_eq hf]
  simp only [act, readFieldStep, addr_valid hp]
  rw [memRead_location hp, he, if_neg (by simp)]

theorem advance_writeField {g : LockFamily} {v : Word} (hf : s.flightOf q = some ⟨.writeField g p v :: rest, temp⟩)
    (hp : p < 54) (he : (s.drawAt 0).err = false) :
    advance q s = (s.afterWrite q (location p g.family).byteOffset (pinReg p g.family) (rmwWord g p temp v)).setTodo q
      rest := by
  rw [advance_eq hf]
  simp only [act, writeFieldStep, addr_valid hp]
  rw [memWrite_location hp g.family_ne_readLevel, he]
  rfl

theorem advance_release {g : LockFamily} (hf : s.flightOf q = some ⟨.release g :: rest, temp⟩) :
    advance q s = (s.setLock g none).setTodo q rest := by
  rw [advance_eq hf]; rfl

theorem advance_writeOne {f : Family} (hf : s.flightOf q = some ⟨.writeOne f p :: rest, temp⟩) (hp : p < 54)
    (hn : f ≠ .readLevel) (he : (s.drawAt 0).err = false) :
    advance q s = (s.afterWrite q (location p f).byteOffset (pinReg p f) (oneBit (location p f).bitOffset)).setTodo q
      rest := by
  rw [advance_eq hf]
  simp only [act, writeOneStep, addr_valid hp]
  rw [memWrite_location hp hn, he]
  rfl

theorem advance_respond {r0 r1 : Word} (hf : s.flightOf q = some ⟨.respond r0 r1 :: rest, temp⟩) :
    advance q s = s.finish q r0 r1 := by
  rw [advance_eq hf]; rfl

/-- The response words that a completed operation has left can be read. -/
theorem readResponse_finish (hf : s.inFlight q = true) (r0 r1 : Word) :
    readResponse q (s.finish q r0 r1) = some (r0, r1) := by
  have hq := State.inFlight_lt s hf
  simp [readResponse, State.finish, State.modifyPort, List.getElem?_eq_getElem hq, Port.complete]

/-- A response stays while other ports move and no new operation begins on the port. -/
theorem readResponse_congr {t : State} (h : t.ports[q]? = s.ports[q]?) : readResponse q t = readResponse q s := by
  simp only [readResponse, h]

/-! ### Function codes and output latches -/

theorem func_eq_lockField (w : Window) (k : Nat) : w.func k = lockField w .functionSelect k := rfl

theorem Window.func_congr {w w' : Window} (h : w'.fsel = w.fsel) (k : Nat) : w'.func k = w.func k := by
  simp only [Window.func, Window.fselAt, h]

/-- A write to a register that is no FunctionSelect register changes no function code. -/
theorem Window.func_write_other (w : Window) {r : Reg} (hr : ∀ i, r ≠ .fsel i) (v bits : Word) (k : Nat) :
    (w.write r v bits).func k = w.func k := by
  cases r with
  | fsel i => exact absurd rfl (hr i)
  | _ => rfl

/-- The write of an RMW changes the field of its own pin and of no other, failed or not (R131, R146). -/
theorem lockField_windowAfter (hI : Inv s) {g : LockFamily} {v : Word}
    (hf : s.flightOf q = some ⟨.writeField g p v :: rest, temp⟩) (hp : p < 54) {k : Nat} (hk : k < 54) (hne : k ≠ p) :
    lockField (s.windowAfter (pinReg p g.family) (rmwWord g p temp v)) g k = lockField s.window g k := by
  rw [State.windowAfter]
  split
  · rfl
  · rw [lockField_word hk, lockField_word hk]
    by_cases hr : pinReg k g.family = pinReg p g.family
    · have hta := hI.temps q _ g p v rest hf rfl _ _ (addr_valid hp g.family) (ofOffset_location hp g.family)
      simp only at hta
      rw [hr, stored_write_self, ← hr, getField_mask hk, rmwWord]
      rw [← hr] at hta
      rw [← hta, getField_mask hk]
      refine getField_setField_other _ _ _ _ _ _ (field_in_mask g (by cases g <;> simp) ⟨k, hk⟩).1 ?_
      exact fields_apart g (by cases g <;> simp) ⟨p, hp⟩ ⟨k, hk⟩ (by simpa using Ne.symm hne) hr.symm
    · rw [Window.stored_write_ne _ hr]

/-- The write of an RMW leaves its value in the pin's own field. -/
theorem lockField_afterWrite (s : State) (he : (s.drawAt 0).err = false) (g : LockFamily) (hp : p < 54)
    (temp v : Word) :
    lockField (s.windowAfter (pinReg p g.family) (rmwWord g p temp v)) g p = v &&& lowMask (location p g.family).width := by
  rw [State.windowAfter, he, if_neg (by simp), lockField_word hp, stored_write_self, getField_mask hp, rmwWord,
    getField_setField_same _ _ _ _ (field_in_mask g (by cases g <;> simp) ⟨p, hp⟩).1]

/-- No step but the FunctionSelect write of pin `k` changes its function code. -/
theorem func_advance (hI : Inv s) {k : Nat} (hk : k < 54)
    (hn : ∀ f, s.flightOf q = some f → ∀ v rest, f.todo ≠ .writeField .functionSelect k v :: rest) :
    (advance q s).window.func k = s.window.func k := by
  by_cases hh : s.locks.holder .functionSelect = some q
  · cases hf : s.flightOf q with
    | none => rw [advance_idle hf]
    | some f =>
      obtain ⟨h, hpos, hl⟩ := hI.sequence q f hf
      have hh' : h = some .functionSelect := (hl _).1 hh
      subst hh'
      obtain ⟨todo, temp⟩ := f
      simp only at hpos
      cases hpos with
      | reading _ pin v hr =>
        rw [advance_eq hf]
        simp only [act, readFieldStep]
        split
        · rfl
        · next l hl =>
          obtain ⟨p, hp, rfl, rfl⟩ := addr_eq_ok hl
          rw [memRead_location hp]
          split
          · next heq => split at heq <;> cases heq; rfl
          · next heq => split at heq <;> cases heq; rfl
      | writing _ pin v hr =>
        rw [advance_eq hf]
        simp only [act, writeFieldStep]
        split
        · rfl
        · next l hl =>
          obtain ⟨p, hp, rfl, rfl⟩ := addr_eq_ok hl
          have hne : k ≠ p := by
            rintro rfl
            exact hn _ hf v _ rfl
          have key := lockField_windowAfter hI hf hp hk hne
          rw [memWrite_location hp (by decide)]
          split <;> (next heq => obtain ⟨-, rfl⟩ := Prod.mk.inj heq; exact key)
      | releasing _ hr => rw [advance_release hf]; rfl
  · exact lockField_congr (g := .functionSelect)
      (fun r hr => (advance_stepBy hI q).stored .functionSelect r hr hh) hk

theorem outLatch_read_step (s : State) (q off : Nat) (x : Option Word) : (s.afterRead q off x).window = s.window := rfl

/-- A level write to another pin leaves the latch of pin `k` (R53, R54, R67). -/
theorem Window.latch_writeLevel_other (w : Window) (level : Bool) {k : Nat} (hp : p < 54) (hk : k < 54) (hne : k ≠ p) :
    (w.writeLevel (Fin.ofNat 2 (p / 32)) (oneBit (p % 32)) level).latch k = w.latch k := by
  have hval : (Fin.ofNat 2 (p / 32)).val = p / 32 := by simp [Fin.ofNat]; omega
  rw [Window.latch_writeLevel _ _ _ _ hk, if_neg]
  rintro ⟨h1, h2, -⟩
  rw [getLsbD_oneBit (Nat.mod_lt _ (by omega)), decide_eq_true_eq] at h2
  omega

/-- The level write of an Output pin drives it (R53, R54). -/
theorem Window.latch_writeLevel_own (w : Window) (level : Bool) (hp : p < 54) (hf : w.func p = outputCode) :
    (w.writeLevel (Fin.ofNat 2 (p / 32)) (oneBit (p % 32)) level).latch p = level := by
  have hval : (Fin.ofNat 2 (p / 32)).val = p / 32 := by simp [Fin.ofNat]; omega
  have hb : (oneBit (p % 32)).getLsbD (p % 32) = true := by
    rw [getLsbD_oneBit (Nat.mod_lt _ (by omega))]; exact decide_eq_true rfl
  rw [Window.latch_writeLevel _ _ _ _ hp, if_pos ⟨hval.symm, hb, hf⟩]

/-! ### The window hardware -/

/-- A move of the window hardware leaves every function code and every output latch (R59). -/
theorem hardware_keeps {m : Move} (h : hardwareMove m = true) (s : State) :
    (makeMove m s).window.fsel = s.window.fsel ∧ (makeMove m s).window.outLatch = s.window.outLatch ∧
    (makeMove m s).ports = s.ports ∧ (makeMove m s).locks = s.locks ∧
    (makeMove m s).inoperative = s.inoperative ∧ (makeMove m s).destroyed = s.destroyed ∧
    (makeMove m s).issuer = s.issuer := by
  cases m with
  | advance r => cases h
  | request r w => cases h
  | level p v =>
    obtain ⟨a, -, -, b⟩ : (s.window.changeLevel p v).fsel = s.window.fsel ∧ True ∧ True ∧
        (s.window.changeLevel p v).outLatch = s.window.outLatch := by
      unfold Window.changeLevel
      split
      · split
        · exact ⟨rfl, trivial, trivial, rfl⟩
        · simp only
          split <;> exact ⟨rfl, trivial, trivial, rfl⟩
      · exact ⟨rfl, trivial, trivial, rfl⟩
    exact ⟨a, b, rfl, rfl, rfl, rfl, rfl⟩
  | event p =>
    have : (s.window.otherEvent p).fsel = s.window.fsel ∧ (s.window.otherEvent p).outLatch = s.window.outLatch := by
      unfold Window.otherEvent
      split <;> exact ⟨rfl, rfl⟩
    exact ⟨this.1, this.2, rfl, rfl, rfl, rfl, rfl⟩
  | redraw => exact ⟨rfl, rfl, rfl, rfl, rfl, rfl, rfl⟩

/-- Every move takes at most one draw. -/
theorem drawAt_makeMove (hm : ∀ r w, m ≠ Move.request r w) (s : State) :
    ∃ d, d ≤ 1 ∧ ∀ k, (makeMove m s).drawAt k = s.drawAt (k + d) := by
  have keep : ∀ {t : State}, t.draws = s.draws → t.drawCount = s.drawCount →
      ∃ d, d ≤ 1 ∧ ∀ k, t.drawAt k = s.drawAt (k + d) :=
    fun h1 h2 => ⟨0, by omega, fun k => State.drawAt_congr h1 h2 k⟩
  have one : ∀ {t : State}, t.draws = s.dropDraw.draws → t.drawCount = s.dropDraw.drawCount →
      ∃ d, d ≤ 1 ∧ ∀ k, t.drawAt k = s.drawAt (k + d) :=
    fun h1 h2 => ⟨1, by omega, fun k => (State.drawAt_congr h1 h2 k).trans (State.drawAt_dropDraw s k)⟩
  have rd : ∀ (q off : Nat), ((memRead q off s).2.draws = s.draws ∧ (memRead q off s).2.drawCount = s.drawCount) ∨
      ((memRead q off s).2.draws = s.dropDraw.draws ∧ (memRead q off s).2.drawCount = s.dropDraw.drawCount) := by
    intro q off
    unfold memRead
    split
    · exact .inr ⟨rfl, rfl⟩
    · exact .inl ⟨rfl, rfl⟩
  have wr : ∀ (q off : Nat) (v : Word),
      ((memWrite q off v s).2.draws = s.draws ∧ (memWrite q off v s).2.drawCount = s.drawCount) ∨
      ((memWrite q off v s).2.draws = s.dropDraw.draws ∧ (memWrite q off v s).2.drawCount = s.dropDraw.drawCount) := by
    intro q off v
    unfold memWrite
    split
    · exact .inr ⟨rfl, rfl⟩
    · exact .inl ⟨rfl, rfl⟩
  have fin : ∀ {x t : State}, (x.draws = s.draws ∧ x.drawCount = s.drawCount) ∨
      (x.draws = s.dropDraw.draws ∧ x.drawCount = s.dropDraw.drawCount) → t.draws = x.draws →
      t.drawCount = x.drawCount → ∃ d, d ≤ 1 ∧ ∀ k, t.drawAt k = s.drawAt (k + d) := by
    rintro x t (⟨h1, h2⟩ | ⟨h1, h2⟩) e1 e2
    · exact keep (e1.trans h1) (e2.trans h2)
    · exact one (e1.trans h1) (e2.trans h2)
  cases m with
  | request r w => exact absurd rfl (hm r w)
  | level p v => exact keep rfl rfl
  | event p => exact keep rfl rfl
  | redraw => exact one rfl rfl
  | advance q =>
    simp only [makeMove, advance]
    split
    · exact keep rfl rfl
    · split
      · exact keep rfl rfl
      · next f _ _ a rest _ =>
        cases a with
        | check pin bad =>
          simp only [act, checkStep]
          split
          · exact keep rfl rfl
          · split
            · exact keep rfl rfl
            · split <;> exact keep rfl rfl
        | acquire g =>
          simp only [act, acquireStep]
          split
          · exact keep rfl rfl
          · split <;> exact keep rfl rfl
        | release g => exact keep rfl rfl
        | respond r0 r1 => exact keep rfl rfl
        | respondScan i => exact keep rfl rfl
        | claimScanner =>
          simp only [act, claimStep]
          split
          · exact keep rfl rfl
          · split <;> exact keep rfl rfl
        | readField g pin =>
          simp only [act, readFieldStep]
          split
          · exact keep rfl rfl
          · next l _ =>
            have h := rd q l.byteOffset
            split <;> (next hx => rw [hx] at h; exact fin h rfl rfl)
        | queryLevel pin fn =>
          simp only [act, queryLevelStep]
          split
          · exact keep rfl rfl
          · next l _ =>
            have h := rd q l.byteOffset
            split <;> (next hx => rw [hx] at h; exact fin h rfl rfl)
        | queryFunction pin =>
          simp only [act, queryFunctionStep]
          split
          · exact keep rfl rfl
          · next l _ =>
            have h := rd q l.byteOffset
            split
            · next hx => rw [hx] at h; split <;> exact fin h rfl rfl
            · next hx => rw [hx] at h; exact fin h rfl rfl
        | writeField g pin v =>
          simp only [act, writeFieldStep]
          split
          · exact keep rfl rfl
          · next l _ =>
            have h := wr q l.byteOffset (setField f.temp l.bitOffset l.width v)
            split <;> (next hx => rw [hx] at h; exact fin h rfl rfl)
        | writeOne g pin =>
          simp only [act, writeOneStep]
          split
          · exact keep rfl rfl
          · next l _ =>
            have h := wr q l.byteOffset (oneBit l.bitOffset)
            split <;> (next hx => rw [hx] at h; exact fin h rfl rfl)
        | scanLow =>
          have h := rd q (scanOffset 0)
          simp only [act, scanLowStep]
          split
          · next hx => rw [hx] at h; split <;> exact fin h rfl rfl
          · next hx => rw [hx] at h; exact fin h rfl rfl
        | scanHigh =>
          have h := rd q (scanOffset 32)
          simp only [act, scanHighStep]
          split
          · next hx => rw [hx] at h; split <;> exact fin h rfl rfl
          · next hx => rw [hx] at h; exact fin h rfl rfl
        | scanClear =>
          have h := wr q s.ias.reg (oneBit (ctz32 s.ias.val))
          simp only [act, scanClearStep]
          split <;> (next hx => rw [hx] at h; exact fin h rfl rfl)

end Sys2Proof.Machine
end

