-- ==== Sys2Proof/Laws/Calm.lean ====
section
/-! SUPPORT. An operation that runs with the window hardware only (`Calm`): it is never held, and what its steps and the
hardware keep holds at its end. -/

namespace Sys2Proof.Machine

open Sys2Proof.Safety

/-- The operation of port `q` (no ACK) runs with the window hardware only: no other operation moves or holds a lock, and
no transaction fails while it runs, nor `extra` more. -/
structure Calm (q extra : Nat) (x : State) : Prop where
  inv : Safety.Inv x
  op : x.inoperative = false
  locks : ∀ g r, x.locks.holder g = some r → r = q
  agenda : ∀ m ∈ x.agenda, m = .advance q ∨ hardwareMove m = true
  draws : BusOk x (x.agenda.length + x.weightOf q + extra)
  scan : ∀ f, x.flightOf q = some f → ∀ rest, f.todo ≠ .claimScanner :: rest

/-- Such an operation is never held. -/
theorem calm_blocker {q extra : Nat} {x : State} (h : Calm q extra x) : blocker q x = none := by
  unfold blocker
  split
  · rfl
  · next f hf =>
    split
    · rfl
    · next a rest ht =>
      unfold waitsFor
      split
      · split
        · next r hr => rw [if_pos (h.locks _ _ hr)]
        · rfl
      · exact absurd ht (h.scan f hf rest)
      · rfl

/-- Its own step. -/
theorem calm_advance {q extra : Nat} {x : State} (h : Calm q extra x) (hq : x.inFlight q = true) :
    (∀ g r, (advance q x).locks.holder g = some r → r = q) ∧ (advance q x).weightOf q < x.weightOf q := by
  constructor
  · intro g r hr
    by_contra hne
    exact hne (h.locks g r (((advance_stepBy h.inv q).locks g r hne).1 hr))
  · obtain ⟨⟨todo, temp⟩, hf⟩ := (x.inFlight_iff q).1 hq
    obtain ⟨l, hpos, -⟩ := h.inv.sequence q _ hf
    cases todo with
    | nil => cases hpos with | plain hp => simp [plainOk] at hp
    | cons a rest =>
      have hb := calm_blocker h
      have hw : waitsFor q x a = none := by simpa [blocker, hf] using hb
      have := weightOf_act hf hw
      rw [advance_eq hf]
      simpa [State.weightOf, hf] using this

/-- What its own steps and the window hardware keep, one turn keeps. -/
theorem calm_turn {q extra : Nat} {P : State → Prop}
    (hadv : ∀ x, Calm q extra x → x.inFlight q = true → (x.drawAt 0).err = false → P x →
      P (advance q x) ∧ (advance q x).inoperative = false ∧
      ∀ f, (advance q x).flightOf q = some f → ∀ rest, f.todo ≠ .claimScanner :: rest)
    (hhw : ∀ x m, hardwareMove m = true → P x → P (makeMove m x))
    (hag : ∀ x rest, P x → P { x with agenda := rest })
    {x : State} (h : Calm q extra x) (hq : x.inFlight q = true) (hP : P x) :
    Calm q extra (turn q x) ∧ P (turn q x) := by
  have hwpos : ∀ {x : State}, Calm q extra x → x.inFlight q = true → (x.drawAt 0).err = false := by
    intro x h hq
    refine h.draws 0 ?_
    have := (calm_advance h hq).2
    omega
  unfold turn
  cases ha : x.agenda with
  | nil =>
    rw [calm_blocker h]
    simp only
    obtain ⟨a, b, c⟩ := hadv x h hq (hwpos h hq) hP
    obtain ⟨d, e⟩ := calm_advance h hq
    obtain ⟨n, hn, hdr⟩ := drawAt_makeMove (m := .advance q) (by simp) x
    refine ⟨⟨inv_advance h.inv q, b, d, by rw [(advance_stepBy h.inv q).agenda]; exact h.agenda, ?_, c⟩, a⟩
    intro k hk
    rw [(advance_stepBy h.inv q).agenda] at hk
    have : (advance q x).drawAt k = x.drawAt (k + n) := hdr k
    rw [this]
    exact h.draws _ (by omega)
  | cons m rest =>
    simp only
    set y : State := { x with agenda := rest } with hy
    have hyq : y.inFlight q = true := hq
    have hlen : x.agenda.length = rest.length + 1 := by rw [ha]; rfl
    have hY : Calm q extra y := {
      inv := inv_congr h.inv rfl h.inv.issuer rfl rfl rfl rfl
      op := h.op
      locks := h.locks
      agenda := fun m' hm' => h.agenda m' (by rw [ha]; exact List.mem_cons_of_mem _ hm')
      draws := fun k hk => h.draws k (by
        have e1 : y.agenda.length = rest.length := rfl
        have e2 : y.weightOf q = x.weightOf q := rfl
        omega)
      scan := h.scan }
    rcases h.agenda m (by rw [ha]; simp) with rfl | hm
    · obtain ⟨a, b, c⟩ := hadv y hY hyq (hwpos hY hyq) (hag x rest hP)
      obtain ⟨d, e⟩ := calm_advance hY hyq
      obtain ⟨n, hn, hdr⟩ := drawAt_makeMove (m := .advance q) (by simp) y
      have hag' : (advance q y).agenda = y.agenda := (advance_stepBy hY.inv q).agenda
      refine ⟨⟨inv_advance hY.inv q, b, d, fun m' hm' => hY.agenda m' (hag' ▸ hm'), ?_, c⟩, a⟩
      intro k hk
      have hk' : k < (advance q y).agenda.length + (advance q y).weightOf q + extra := hk
      rw [(advance_stepBy hY.inv q).agenda] at hk'
      rw [hdr k]
      exact hY.draws _ (by omega)
    · obtain ⟨k1, k2, k3, k4, k5, k6, k7⟩ := hardware_keeps hm y
      obtain ⟨n, hn, hdr⟩ := drawAt_makeMove (m := m) (by rintro r w rfl; cases hm) y
      have hfl : ∀ r, (makeMove m y).flightOf r = y.flightOf r := State.flightOf_congr k3
      have hag' : (makeMove m y).agenda = rest := by cases m <;> first | rfl | cases hm
      refine ⟨⟨inv_makeMove hY.inv m, by rw [k5]; exact hY.op, by rw [k4]; exact hY.locks,
        by rw [hag']; exact hY.agenda, ?_, by rw [hfl]; exact hY.scan⟩, hhw y m hm (hag x rest hP)⟩
      intro k hk
      rw [hag', State.weightOf_congr (hfl q)] at hk
      rw [hdr k]
      refine h.draws _ ?_
      have e2 : y.weightOf q = x.weightOf q := rfl
      omega

theorem calm_drive {q extra : Nat} {P : State → Prop}
    (hadv : ∀ x, Calm q extra x → x.inFlight q = true → (x.drawAt 0).err = false → P x →
      P (advance q x) ∧ (advance q x).inoperative = false ∧
      ∀ f, (advance q x).flightOf q = some f → ∀ rest, f.todo ≠ .claimScanner :: rest)
    (hhw : ∀ x m, hardwareMove m = true → P x → P (makeMove m x))
    (hag : ∀ x rest, P x → P { x with agenda := rest }) (n : Nat) :
    ∀ {x : State}, Calm q extra x → P x → Calm q extra (drive n q x) ∧ P (drive n q x) := by
  induction n with
  | zero => intro x h hP; exact ⟨h, hP⟩
  | succ n ih =>
    intro x h hP
    rw [drive]
    split
    · next hq =>
      obtain ⟨a, b⟩ := calm_turn hadv hhw hag h hq hP
      exact ih a b
    · exact ⟨h, hP⟩

/-- What its own steps and the window hardware keep holds when it is complete. -/
theorem calm_settle {q extra : Nat} {P : State → Prop}
    (hadv : ∀ x, Calm q extra x → x.inFlight q = true → (x.drawAt 0).err = false → P x →
      P (advance q x) ∧ (advance q x).inoperative = false ∧
      ∀ f, (advance q x).flightOf q = some f → ∀ rest, f.todo ≠ .claimScanner :: rest)
    (hhw : ∀ x m, hardwareMove m = true → P x → P (makeMove m x))
    (hag : ∀ x rest, P x → P { x with agenda := rest })
    {x : State} (h : Calm q extra x) (hP : P x) :
    Calm q extra (settle q x) ∧ P (settle q x) ∧ (settle q x).flightOf q = none := by
  have := (State.inFlight_false _ _).1 (settle_complete h.inv q)
  unfold settle at this ⊢
  split
  · next hq =>
    rw [if_pos hq] at this
    obtain ⟨a, b⟩ := calm_drive hadv hhw hag _ h hP
    exact ⟨a, b, this⟩
  · next hq => rw [if_neg hq] at this; exact ⟨h, hP, this⟩

/-- The FunctionSelect read of QUERY, on an Output pin (R143). -/
theorem advance_queryFunction_output {s : State} {q p : Nat} {temp : Word} {rest : List Action}
    (hf : s.flightOf q = some ⟨.queryFunction p :: rest, temp⟩) (hp : p < 54) (he : (s.drawAt 0).err = false)
    (hfn : s.window.func p = 1) :
    advance q s = (s.afterRead q (location p .functionSelect).byteOffset
      (some (s.window.read (pinReg p .functionSelect) (s.drawAt 0).bits))).setTodo q [.queryLevel p 1] := by
  rw [advance_eq hf]
  simp only [act, queryFunctionStep, addr_valid hp]
  rw [memRead_location hp, he, if_neg (by simp)]
  simp only
  have hval : (Fin.ofNat 6 (p / 10)).val = p / 10 := by simp [Fin.ofNat]; omega
  have : getField (s.window.read (pinReg p .functionSelect) (s.drawAt 0).bits)
      (location p .functionSelect).bitOffset 3 = 1 := by
    rw [(location_functionSelect p).2.1]
    exact (s.window.getField_read_fsel (Fin.ofNat 6 (p/10)) _ hp hval.symm).trans hfn
  rw [this, if_pos (.inr rfl)]

/-- The ReadLevel read of QUERY, on an Output pin (R55, R143). -/
theorem advance_queryLevel_output {s : State} {q p : Nat} {temp : Word} {rest : List Action}
    (hf : s.flightOf q = some ⟨.queryLevel p 1 :: rest, temp⟩) (hp : p < 54) (he : (s.drawAt 0).err = false)
    (hfn : s.window.func p = 1) :
    advance q s = (s.afterRead q (location p .readLevel).byteOffset
      (some (s.window.read (pinReg p .readLevel) (s.drawAt 0).bits))).setTodo q
        [.respond (queryIoResponse 1 (if s.window.latch p then 1 else 0)) 0] := by
  rw [advance_eq hf]
  simp only [act, queryLevelStep, addr_valid hp]
  rw [memRead_location hp, he, if_neg (by simp)]
  simp only
  have hval : (Fin.ofNat 2 (p / 32)).val = p / 32 := by simp [Fin.ofNat]; omega
  have : (s.window.read (pinReg p .readLevel) (s.drawAt 0).bits).getLsbD (location p .readLevel).bitOffset =
      s.window.latch p := by
    rw [(location_bit p (f := .readLevel) (by simp)).2.1]
    rw [show pinReg p .readLevel = .lev (Fin.ofNat 2 (p / 32)) from rfl,
      Window.getLsbD_read_lev _ _ _ hp hval.symm]
    simp [Window.pinLevel, hfn, outputCode]
  rw [getField_one, this]

end Sys2Proof.Machine
end

