-- ==== Sys2Proof/Laws/Encoding.lean ====
section
/-! SUPPORT. The fields of a request word that the encoder writes (R80, R99). -/

namespace Sys2Proof

/-- The fields of `makeRequest`, where the operands fit them. -/
theorem makeRequest_fields {op arg : Nat} (pin : Int) (ho : op < 256) (ha : arg < 256) :
    reqOp (makeRequest op arg pin) = op ∧ reqArg (makeRequest op arg pin) = arg ∧
    reqPin (makeRequest op arg pin) = (BitVec.ofInt 16 pin).toInt := by
  refine ⟨?_, ?_, ?_⟩
  · have : (makeRequest op arg pin).extractLsb' 0 8 = BitVec.ofNat 8 op := by
      apply BitVec.eq_of_getLsbD_eq
      intro i hi
      simp only [makeRequest, BitVec.getLsbD_extractLsb', BitVec.getLsbD_append]
      simp [hi, show i < 16 by omega]
    rw [reqOp, this, BitVec.toNat_ofNat, Nat.mod_eq_of_lt ho]
  · have : (makeRequest op arg pin).extractLsb' 8 8 = BitVec.ofNat 8 arg := by
      apply BitVec.eq_of_getLsbD_eq
      intro i hi
      simp only [makeRequest, BitVec.getLsbD_extractLsb', BitVec.getLsbD_append]
      simp [hi, show 8 + i < 16 by omega]
    rw [reqArg, this, BitVec.toNat_ofNat, Nat.mod_eq_of_lt ha]
  · have : (makeRequest op arg pin).extractLsb' 16 16 = BitVec.ofInt 16 pin := by
      apply BitVec.eq_of_getLsbD_eq
      intro i hi
      simp only [makeRequest, BitVec.getLsbD_extractLsb', BitVec.getLsbD_append]
      simp [hi]
    rw [reqPin, this]

/-- A pin that fits the field is read back from it (R80). -/
theorem toInt_ofInt_pin {pin : Int} (h : pinFits pin = true) : (BitVec.ofInt 16 pin).toInt = pin := by
  simp only [pinFits, Bool.and_eq_true, decide_eq_true_eq] at h
  rw [BitVec.toInt_ofInt]
  simp only [Int.bmod_def]
  split <;> omega

end Sys2Proof
end

