-- ==== Sys2Proof/Laws/PerInstr.lean ====
section
/-! SUPPORT. Facts stated per instruction, one lemma per constructor. -/

namespace Sys2Proof.Laws.OpcodeByte

/-- The `OP` of each instruction (the table of R81). -/
def opByte : Instr → Nat
  | .addr _ _ => 0x00
  | .ack => 0x01
  | .cfgOut _ _ => 0x02
  | .cfgIn _ => 0x03
  | .edgeEn _ _ => 0x04
  | .edgeDis _ => 0x05
  | .query _ => 0x06

/-- The word of a well-formed instruction has its `OP` in bits [7:0] (R80, R81). -/
def Statement (i : Instr) : Prop := i.wellFormed = true → reqOp (encode i) = opByte i

/-- An argument that fits the field. -/
theorem arg_lt {arg : Nat} (h : argFits arg = true) : arg < 256 := by simpa [argFits] using h

theorem addr (pin : Int) (family : Nat) : Statement (.addr pin family) := fun h => by
  rw [Instr.wellFormed, Bool.and_eq_true] at h
  exact (makeRequest_fields pin (by omega) (arg_lt h.2)).1

theorem ack : Statement .ack := fun _ => (makeRequest_fields 0 (by omega) (by omega)).1

theorem cfgOut (pin : Int) (level : Nat) : Statement (.cfgOut pin level) := fun h => by
  rw [Instr.wellFormed, Bool.and_eq_true] at h
  exact (makeRequest_fields pin (by omega) (arg_lt h.2)).1

theorem cfgIn (pin : Int) : Statement (.cfgIn pin) := fun _ => (makeRequest_fields pin (by omega) (by omega)).1

theorem edgeEn (pin : Int) (edge : Nat) : Statement (.edgeEn pin edge) := fun h => by
  rw [Instr.wellFormed, Bool.and_eq_true] at h
  exact (makeRequest_fields pin (by omega) (arg_lt h.2)).1

theorem edgeDis (pin : Int) : Statement (.edgeDis pin) := fun _ => (makeRequest_fields pin (by omega) (by omega)).1

theorem query (pin : Int) : Statement (.query pin) := fun _ => (makeRequest_fields pin (by omega) (by omega)).1

end Sys2Proof.Laws.OpcodeByte
end

