-- ==== Sys2Proof/Laws/Stages.lean ====
section
/-! SUPPORT. An operation that writes a function code, among other agents and with no failure: where it is in its
sequence, and what is known of the pin's function code there (`Stage`) and, for CFG_OUT, of its output latch (`Driven`). -/

namespace Sys2Proof.Machine

open Sys2Proof.Safety

variable {s t : State} {q p : Nat} {v : Word} {pre post : List Action}

/-- The steps on pin `p` that go on to the next step when nothing fails. -/
inductive Good (p : Nat) : Action → Prop
  | check : Good p (.check p none)
  | acquire (g : LockFamily) : Good p (.acquire g)
  | read (g : LockFamily) : Good p (.readField g p)
  | write (g : LockFamily) (v : Word) : Good p (.writeField g p v)
  | release (g : LockFamily) : Good p (.release g)
  | one (f : Family) (h : f ≠ .readLevel) : Good p (.writeOne f p)

/-- Such a step is held at its acquire, or goes on. -/
theorem advance_good {a : Action} {rest : List Action} {temp : Word} (hg : Good p a) (hp : p < 54)
    (hf : s.flightOf q = some ⟨a :: rest, temp⟩) (hi : s.inoperative = false) (he : (s.drawAt 0).err = false)
    (hself : ∀ g, a = .acquire g → s.locks.holder g ≠ some q) :
    (advance q s = s ∧ ∃ g, a = .acquire g) ∨
    ((∃ temp', (advance q s).flightOf q = some ⟨rest, temp'⟩) ∧ (advance q s).inoperative = false) := by
  cases hg with
  | check => right; rw [advance_check hf hp hi]; simp [hf, hi]
  | acquire g =>
    cases h : s.locks.holder g with
    | none => right; rw [advance_acquire hf h]; simp [hf, hi]
    | some r =>
      by_cases hr : r = q
      · subst hr; exact absurd h (hself g rfl)
      · left; exact ⟨advance_acquire_held hf h hr, g, rfl⟩
  | read g => right; rw [advance_readField hf hp he]; simp [hf, hi]
  | write g v => right; rw [advance_writeField hf hp he]; simp [hf, hi]
  | release g => right; rw [advance_release hf]; simp [hf, hi]
  | one f h => right; rw [advance_writeOne hf hp h he]; simp [hf, hi]

/-- An operation at an acquire does not hold the lock it asks for. -/
theorem not_held_self (hI : Inv s) {g : LockFamily} {rest : List Action} {temp : Word}
    (hf : s.flightOf q = some ⟨.acquire g :: rest, temp⟩) : s.locks.holder g ≠ some q := by
  intro h
  obtain ⟨l, hpos, hl⟩ := hI.sequence q _ hf
  have := (hl g).1 h
  subst this
  have := position_acquire hpos
  simp at this

/-- The operation of port `q`, with steps `pre`, the write of the code `v` to the function code of pin `p`, the steps
`post` and the OK response, is before the write, or past it, or complete; once past it, the code is `v`. -/
def Stage (q p : Nat) (v : Word) (pre post : List Action) (s : State) : Prop :=
  (∃ l temp, l <:+ pre ∧ s.flightOf q = some ⟨l ++ .writeField .functionSelect p v :: (post ++ [respondOk]), temp⟩) ∨
  (∃ l temp, l <:+ post ∧ s.flightOf q = some ⟨l ++ [respondOk], temp⟩ ∧ s.window.func p = v) ∨
  (s.flightOf q = none ∧ readResponse q s = some (0, 0) ∧ s.window.func p = v)

/-- The operation's own step. -/
theorem stage_own (hI : Inv s) (hp : p < 54) (hv : v &&& lowMask 3 = v)
    (hpre : ∀ a ∈ pre, Good p a ∧ ∀ w, a ≠ .writeField .functionSelect p w)
    (hpost : ∀ a ∈ post, Good p a ∧ ∀ w, a ≠ .writeField .functionSelect p w)
    (hi : s.inoperative = false) (he : (s.drawAt 0).err = false) (h : Stage q p v pre post s) :
    Stage q p v pre post (advance q s) ∧ (advance q s).inoperative = false := by
  rcases h with ⟨l, temp, hl, hf⟩ | ⟨l, temp, hl, hf, hfn⟩ | ⟨hf, hr, hfn⟩
  · cases l with
    | nil =>
      rw [List.nil_append] at hf
      have e := advance_writeField hf hp he
      refine ⟨.inr (.inl ⟨post, temp, List.suffix_refl _, ?_, ?_⟩), ?_⟩
      · rw [e]; simp [hf]
      · rw [e]
        have := lockField_afterWrite s he .functionSelect hp temp v
        rw [show (location p LockFamily.functionSelect.family).width = 3 from rfl, hv] at this
        exact this
      · rw [e]; simpa using hi
    | cons a l =>
      have ha := hpre a (hl.subset (by simp))
      rw [List.cons_append] at hf
      rcases advance_good ha.1 hp hf hi he (fun g hg => by subst hg; exact not_held_self hI hf) with
        ⟨e, -⟩ | ⟨⟨t', h1⟩, h2⟩
      · rw [e]; exact ⟨.inl ⟨_, _, hl, hf⟩, hi⟩
      · exact ⟨.inl ⟨l, t', (List.suffix_cons a l).trans hl, h1⟩, h2⟩
  · cases l with
    | nil =>
      rw [List.nil_append] at hf
      have e := advance_respond (r0 := plainResponse) (r1 := 0) hf
      refine ⟨.inr (.inr ⟨?_, ?_, ?_⟩), ?_⟩
      · rw [e]; simp
      · rw [e, readResponse_finish ((s.inFlight_iff q).2 ⟨_, hf⟩)]; rfl
      · rw [e]; exact hfn
      · rw [e]; simpa using hi
    | cons a l =>
      have ha := hpost a (hl.subset (by simp))
      rw [List.cons_append] at hf
      have hfun : (advance q s).window.func p = s.window.func p := func_advance hI hp (fun f hf' w rest e => by
        rw [hf] at hf'; cases hf'; simp only [List.cons.injEq] at e; exact ha.2 w e.1)
      rcases advance_good ha.1 hp hf hi he (fun g hg => by subst hg; exact not_held_self hI hf) with
        ⟨e, -⟩ | ⟨⟨t', h1⟩, h2⟩
      · rw [e]; exact ⟨.inr (.inl ⟨_, _, hl, hf, hfn⟩), hi⟩
      · exact ⟨.inr (.inl ⟨l, t', (List.suffix_cons a l).trans hl, h1, hfun.trans hfn⟩), h2⟩
  · rw [advance_idle hf]; exact ⟨.inr (.inr ⟨hf, hr, hfn⟩), hi⟩

/-- A move that leaves the port and the pin's function code. -/
theorem stage_other (hports : t.ports[q]? = s.ports[q]?) (hfun : t.window.func p = s.window.func p)
    (h : Stage q p v pre post s) : Stage q p v pre post t := by
  have e : t.flightOf q = s.flightOf q := by simp only [State.flightOf, hports]
  rcases h with ⟨l, temp, hl, hf⟩ | ⟨l, temp, hl, hf, hfn⟩ | ⟨hf, hr, hfn⟩
  · exact .inl ⟨l, temp, hl, e.trans hf⟩
  · exact .inr (.inl ⟨l, temp, hl, e.trans hf, hfun.trans hfn⟩)
  · exact .inr (.inr ⟨e.trans hf, (readResponse_congr hports).trans hr, hfun.trans hfn⟩)

/-- The operation's next step is no write of another pin's function code. -/
theorem stage_head {k : Nat} (hne : k ≠ p) (hpre : ∀ a ∈ pre, ∀ w, a ≠ .writeField .functionSelect k w)
    (hpost : ∀ a ∈ post, ∀ w, a ≠ .writeField .functionSelect k w) (h : Stage q p v pre post s) :
    ∀ f, s.flightOf q = some f → ∀ w rest, f.todo ≠ .writeField .functionSelect k w :: rest := by
  intro f hf w rest e
  rcases h with ⟨l, temp, hl, hf'⟩ | ⟨l, temp, hl, hf', -⟩ | ⟨hf', -⟩
  · rw [hf'] at hf; cases hf
    cases l with
    | nil => simp only [List.nil_append, List.cons.injEq, Action.writeField.injEq] at e; omega
    | cons a l => simp only [List.cons_append, List.cons.injEq] at e; exact hpre a (hl.subset (by simp)) w e.1
  · rw [hf'] at hf; cases hf
    cases l with
    | nil => simp [respondOk] at e
    | cons a l => simp only [List.cons_append, List.cons.injEq] at e; exact hpost a (hl.subset (by simp)) w e.1
  · rw [hf'] at hf; cases hf

/-- The steps of CFG_OUT and CFG_IN before the write. -/
def beforeWrite (p : Nat) : List Action :=
  [.check p none, .acquire .functionSelect, .readField .functionSelect p]

/-- The steps of CFG_OUT between the write and the response. -/
def afterWriteOut (p level : Nat) : List Action :=
  [.release .functionSelect, .writeOne (if level = 1 then .setLevel else .clearLevel) p]

theorem beforeWrite_good (p : Nat) :
    ∀ a ∈ beforeWrite p, Good p a ∧ ∀ k w, a ≠ .writeField .functionSelect k w := by
  intro a ha
  simp only [beforeWrite, List.mem_cons, List.not_mem_nil, or_false] at ha
  rcases ha with rfl | rfl | rfl
  · exact ⟨.check, by simp⟩
  · exact ⟨.acquire _, by simp⟩
  · exact ⟨.read _, by simp⟩

theorem afterWriteOut_good (p level : Nat) :
    ∀ a ∈ afterWriteOut p level, Good p a ∧ ∀ k w, a ≠ .writeField .functionSelect k w := by
  intro a ha
  simp only [afterWriteOut, List.mem_cons, List.not_mem_nil, or_false] at ha
  rcases ha with rfl | rfl
  · exact ⟨.release _, by simp⟩
  · exact ⟨.one _ (by split <;> simp), by simp⟩

theorem cfgOutSteps_eq {level : Nat} (h : level ≤ 1) (p : Nat) :
    cfgOutSteps p level =
      beforeWrite p ++ .writeField .functionSelect p outputCode :: (afterWriteOut p level ++ [respondOk]) := by
  have : levelError level = none := by simp [levelError]; omega
  simp [cfgOutSteps, rmw, beforeWrite, afterWriteOut, this]

theorem cfgInSteps_eq (p : Nat) :
    cfgInSteps p =
      beforeWrite p ++ .writeField .functionSelect p inputCode :: ([.release .functionSelect] ++ [respondOk]) := rfl

/-! ### The level CFG_OUT drives -/

/-- A step on another pin leaves the output latch of an Output pin (R52, R53, R54, R67). -/
theorem latch_advance_good {a : Action} {rest : List Action} {temp : Word} {k : Nat} (hg : Good p a) (hp : p < 54)
    (hf : s.flightOf q = some ⟨a :: rest, temp⟩) (hi : s.inoperative = false) (he : (s.drawAt 0).err = false)
    (hself : ∀ g, a = .acquire g → s.locks.holder g ≠ some q) (hk : k < 54) (hne : k ≠ p)
    (hfk : s.window.func k = outputCode) : (advance q s).window.latch k = s.window.latch k := by
  have fsel : ∀ (i : Fin 6) (w bits : Word), (s.window.writeFsel i w bits).latch k = s.window.latch k := fun i w bits => by
    rw [Window.latch_writeFsel _ _ _ _ hk, if_neg (fun h => h.2 hfk)]
  cases hg with
  | check => rw [advance_check hf hp hi]; rfl
  | acquire g =>
    cases h : s.locks.holder g with
    | none => rw [advance_acquire hf h]; rfl
    | some r => rw [advance_acquire_held hf h (by rintro rfl; exact hself g rfl h)]
  | read g => rw [advance_readField hf hp he]; rfl
  | write g w =>
    rw [advance_writeField hf hp he]
    show (s.windowAfter _ _).latch k = _
    rw [State.windowAfter, he, if_neg (by simp)]
    cases g with
    | functionSelect => exact fsel _ _ _
    | _ => rfl
  | release g => rw [advance_release hf]; rfl
  | one f h =>
    rw [advance_writeOne hf hp h he]
    show (s.windowAfter _ _).latch k = _
    rw [State.windowAfter, he, if_neg (by simp)]
    cases f with
    | functionSelect => exact fsel _ _ _
    | setLevel =>
      rw [(location_bit p (f := .setLevel) (by simp)).2.1]
      exact Window.latch_writeLevel_other _ true hp hk hne
    | clearLevel =>
      rw [(location_bit p (f := .clearLevel) (by simp)).2.1]
      exact Window.latch_writeLevel_other _ false hp hk hne
    | _ => rfl

/-- So does every step of an operation that writes another pin's function code. -/
theorem stage_latch (hI : Inv s) {k : Nat} (hp : p < 54) (hpre : ∀ a ∈ pre, Good p a) (hpost : ∀ a ∈ post, Good p a)
    (hi : s.inoperative = false) (he : (s.drawAt 0).err = false) (h : Stage q p v pre post s) (hk : k < 54)
    (hne : k ≠ p) (hfk : s.window.func k = outputCode) : (advance q s).window.latch k = s.window.latch k := by
  have go : ∀ {a rest temp}, Good p a → s.flightOf q = some ⟨a :: rest, temp⟩ →
      (advance q s).window.latch k = s.window.latch k := fun ha hf =>
    latch_advance_good ha hp hf hi he (fun g hg => by subst hg; exact not_held_self hI hf) hk hne hfk
  rcases h with ⟨l, temp, hl, hf⟩ | ⟨l, temp, hl, hf, -⟩ | ⟨hf, -⟩
  · cases l with
    | nil => exact go (.write _ _) hf
    | cons a l => exact go (hpre a (hl.subset (by simp))) hf
  · cases l with
    | nil => rw [advance_respond (r0 := plainResponse) (r1 := 0) hf]; rfl
    | cons a l => exact go (hpost a (hl.subset (by simp))) hf
  · rw [advance_idle hf]

/-- Once only the response of port `q`'s operation is left, and after it, the output latch of pin `p` is `b`. -/
def Driven (q p : Nat) (b : Bool) (s : State) : Prop :=
  (∀ f, s.flightOf q = some f → f.todo = [respondOk] → s.window.latch p = b) ∧
  (s.flightOf q = none → s.window.latch p = b)

/-- An operation before its response has not driven the level yet. -/
theorem driven_early {b : Bool} {f : Flight} (hf : s.flightOf q = some f) (h : f.todo ≠ [respondOk]) :
    Driven q p b s :=
  ⟨fun f' hf' e => absurd e (by rw [hf] at hf'; cases hf'; exact h), fun e => by rw [hf] at e; cases e⟩

/-- Where the latch has the value, the operation may be anywhere. -/
theorem driven_of_latch {b : Bool} (h : s.window.latch p = b) : Driven q p b s := ⟨fun _ _ _ => h, fun _ => h⟩

/-- CFG_OUT's own step. -/
theorem driven_own {level : Nat} (hI : Inv s) (hp : p < 54) (hi : s.inoperative = false)
    (he : (s.drawAt 0).err = false) (hS : Stage q p outputCode (beforeWrite p) (afterWriteOut p level) s)
    (h : Driven q p (decide (level = 1)) s) : Driven q p (decide (level = 1)) (advance q s) := by
  rcases hS with ⟨l, temp, hl, hf⟩ | ⟨l, temp, hl, hf, hfn⟩ | ⟨hf, -, -⟩
  · cases l with
    | nil =>
      have hf' : (advance q s).flightOf q = some ⟨afterWriteOut p level ++ [respondOk], temp⟩ := by
        rw [advance_writeField hf hp he]; simp [hf]
      exact driven_early hf' (by simp [afterWriteOut])
    | cons a l =>
      have ha := (beforeWrite_good p a (hl.subset (by simp))).1
      rw [List.cons_append] at hf
      rcases advance_good ha hp hf hi he (fun g hg => by subst hg; exact not_held_self hI hf) with
        ⟨e, -⟩ | ⟨⟨t', h1⟩, -⟩
      · rw [e]; exact h
      · exact driven_early h1 (by cases l <;> simp [respondOk])
  · rw [afterWriteOut, List.suffix_cons_iff, List.suffix_cons_iff, List.suffix_nil] at hl
    rcases hl with rfl | rfl | rfl
    · have hf' : (advance q s).flightOf q =
          some ⟨[.writeOne (if level = 1 then .setLevel else .clearLevel) p, respondOk], temp⟩ := by
        rw [advance_release hf]; simp [hf]
      exact driven_early hf' (by simp [respondOk])
    · rw [advance_writeOne hf hp (by split <;> simp) he]
      refine driven_of_latch ?_
      show (s.windowAfter _ _).latch p = _
      rw [State.windowAfter, he, if_neg (by simp)]
      by_cases h1 : level = 1
      · rw [if_pos h1, (location_bit p (f := .setLevel) (by simp)).2.1, decide_eq_true h1]
        exact Window.latch_writeLevel_own s.window true hp hfn
      · rw [if_neg h1, (location_bit p (f := .clearLevel) (by simp)).2.1, decide_eq_false h1]
        exact Window.latch_writeLevel_own s.window false hp hfn
    · rw [advance_respond (r0 := plainResponse) (r1 := 0) hf]
      exact driven_of_latch (h.1 _ hf rfl)
  · rw [advance_idle hf]; exact h

/-- A move that leaves the port and, once the pin is an Output, its latch. -/
theorem driven_other {level : Nat} (hports : t.ports[q]? = s.ports[q]?)
    (hlat : s.window.func p = outputCode → t.window.latch p = s.window.latch p)
    (hS : Stage q p outputCode (beforeWrite p) (afterWriteOut p level) s) (h : Driven q p (decide (level = 1)) s) :
    Driven q p (decide (level = 1)) t := by
  have e : t.flightOf q = s.flightOf q := by simp only [State.flightOf, hports]
  rcases hS with ⟨l, temp, hl, hf⟩ | ⟨l, temp, hl, hf, hfn⟩ | ⟨hf, -, hfn⟩
  · exact driven_early (e.trans hf) (by cases l <;> simp [respondOk])
  · exact ⟨fun f hf' ht => (hlat hfn).trans (h.1 f (e ▸ hf') ht), fun hf' => (hlat hfn).trans (h.2 (e ▸ hf'))⟩
  · exact driven_of_latch ((hlat hfn).trans (h.2 hf))

end Sys2Proof.Machine
end

