-- ==== Sys2Proof/Tests/Slice0.lean ====
section
/-! SUPPORT. Tests: ill-formed instructions refused, request words decoded, operations run on the vectors of
`95_test_vectors.md`, and for each statement with hypotheses a witness that meets them. Expected values are those of the
spec's vectors (named E, V, P) or written out from its rules. -/

namespace Sys2Proof.Tests

open Sys2Proof.Machine Sys2Proof.Safety
open Sys2Proof.Config (BusDraw)

/-! ### Well-formedness: one ill-formed term for each check -/

theorem test_wf_addr_pin_high : (Instr.addr 32768 0).wellFormed = false := by decide
theorem test_wf_addr_pin_low : (Instr.addr (-32769) 0).wellFormed = false := by decide
theorem test_wf_addr_family : (Instr.addr 0 256).wellFormed = false := by decide
theorem test_wf_cfgOut_pin : (Instr.cfgOut 32768 0).wellFormed = false := by decide
theorem test_wf_cfgOut_level : (Instr.cfgOut 0 256).wellFormed = false := by decide
theorem test_wf_cfgIn_pin : (Instr.cfgIn (-32769)).wellFormed = false := by decide
theorem test_wf_edgeEn_pin : (Instr.edgeEn 32768 0).wellFormed = false := by decide
theorem test_wf_edgeEn_edge : (Instr.edgeEn 0 256).wellFormed = false := by decide
theorem test_wf_edgeDis_pin : (Instr.edgeDis (-32769)).wellFormed = false := by decide
theorem test_wf_query_pin : (Instr.query 32768).wellFormed = false := by decide

/-! ### Decoding: words written out as `PIN` (16 bits), `ARG` (8 bits), `OP` (8 bits) (R80, R81) -/

theorem test_decode_addr :
    decodeWord (0b0000000000100011#16 ++ (0b00000001#8 ++ 0b00000000#8)) = .ok (.addr 35 1) := by decide
theorem test_decode_ack :
    decodeWord (0b1111111111111111#16 ++ (0b11111111#8 ++ 0b00000001#8)) = .ok .ack := by decide
theorem test_decode_cfgOut :
    decodeWord (0b0000000000010001#16 ++ (0b00000001#8 ++ 0b00000010#8)) = .ok (.cfgOut 17 1) := by decide
theorem test_decode_cfgIn :
    decodeWord (0b1000000000000000#16 ++ (0b00000000#8 ++ 0b00000011#8)) = .ok (.cfgIn (-32768)) := by decide
theorem test_decode_edgeEn :
    decodeWord (0b0000000000000101#16 ++ (0b00000010#8 ++ 0b00000100#8)) = .ok (.edgeEn 5 2) := by decide
theorem test_decode_edgeDis :
    decodeWord (0b0000000000000101#16 ++ (0b01111111#8 ++ 0b00000101#8)) = .ok (.edgeDis 5) := by decide
theorem test_decode_query :
    decodeWord (0b0000000000110101#16 ++ (0b00000000#8 ++ 0b00000110#8)) = .ok (.query 53) := by decide
theorem test_decode_reserved :
    decodeWord (0b0000000000000000#16 ++ (0b00000000#8 ++ 0b11111111#8)) = .error (.reservedOp 255) := by decide

/-- The first row of the opcode table whose operands are not all 0, in the table's own numbering. -/
theorem test_decode_table : decodeTableWord 32 0x00110102 = some (.cfgOut 17 1) := by decide

/-- V10: `ADDR -1, FSEL`. -/
theorem test_assemble : assemble "ADDR" [.number (-1), .symbol "FSEL"] = some 0xFFFF0000 := by decide +kernel

/-! ### A small machine -/

/-- A transaction that succeeds, with open bits 0. -/
def quiet : BusDraw := { err := false, took := false, bits := 0 }

/-- A transaction that succeeds, with open bits 1. -/
def noisy : BusDraw := { err := false, took := false, bits := 0xFFFFFFFF }

/-- A transaction that fails; a write took effect. -/
def broken : BusDraw := { err := true, took := true, bits := 0 }

def calm : List BusDraw := List.replicate 40 quiet

/-- All pins Input, nothing enabled, nothing pending, all levels 0. -/
def blank : Window :=
  { fsel := .replicate 6 0, eds := .replicate 2 0, ren := .replicate 2 0, fen := .replicate 2 0, outLatch := 0,
    extLevel := 0 }

/-- Every bit that belongs to a pin is 1. -/
def full : Window :=
  { fsel := #v[0x3FFFFFFF, 0x3FFFFFFF, 0x3FFFFFFF, 0x3FFFFFFF, 0x3FFFFFFF, 0xFFF], eds := #v[0xFFFFFFFF, 0x3FFFFF],
    ren := #v[0xFFFFFFFF, 0x3FFFFF], fen := #v[0xFFFFFFFF, 0x3FFFFF], outLatch := 0x3FFFFFFFFFFFFF,
    extLevel := 0x3FFFFFFFFFFFFF }

/-- Two idle ports over the window `w`, with the draws `ds` first. -/
def lab (w : Window) (ds : List BusDraw) : State := { State.create true 2 w with draws := ds }

/-- Two idle ports over `blank`. -/
def still : State := lab blank calm

/-- The response of an instruction and the transactions it made, first one first. -/
def outcome (i : Instr) (s : State) : Option ((Word × Word) × List Transaction) :=
  match exec i s with
  | .next t => (readResponse s.issuer t).map fun r => (r, t.bus.reverse)
  | .fault _ => none
  | .refused _ => none

/-! ### Operations on the spec's vectors -/

/-- E1. -/
theorem test_addr_function : outcome (.addr 17 0) still = some ((0x13150400, 0x00E00000), []) := by decide +kernel

/-- E3. -/
theorem test_addr_set : outcome (.addr 35 1) still = some ((0x11032000, 0x00000008), []) := by decide +kernel

/-- E8, first call. -/
theorem test_ack_low : outcome .ack (lab { blank with eds := #v[0xA, 0] } calm) =
    some ((0x100, 0), [.read 0 0x40 (some 0xA), .write 0 0x40 2 true]) := by decide +kernel

/-- E9. -/
theorem test_ack_high : outcome .ack (lab { blank with eds := #v[0, 0x20] } calm) =
    some ((0x2500, 0), [.read 0 0x40 (some 0), .read 0 0x44 (some 0x20), .write 0 0x44 0x20 true]) := by
  decide +kernel

/-- E4, first operation. -/
theorem test_cfgOut : outcome (.cfgOut 17 1) still =
    some ((0, 0), [.read 0 0x04 (some 0), .write 0 0x04 0x200000 true, .write 0 0x1C 0x20000 true]) := by
  decide +kernel

/-- P5, first operation. -/
theorem test_cfgOut_fails : outcome (.cfgOut 3 1) (lab blank (quiet :: broken :: calm)) =
    some ((5, 0), [.read 0 0x00 (some 0), .write 0 0x00 0x200 false]) := by decide +kernel

/-- E5. -/
theorem test_cfgIn : outcome (.cfgIn 17) (lab { blank with fsel := #v[0, 0x200000, 0, 0, 0, 0] } calm) =
    some ((0, 0), [.read 0 0x04 (some 0x200000), .write 0 0x04 0 true]) := by decide +kernel

/-- E10. -/
theorem test_cfgIn_pin : outcome (.cfgIn 54) still = some ((1, 0), []) := by decide +kernel

/-- E7. -/
theorem test_edgeEn : outcome (.edgeEn 4 0)
    (lab { blank with fsel := #v[0x1000, 0, 0, 0, 0, 0], fen := #v[0x10, 0] } calm) =
    some ((0, 0), [.read 0 0x4C (some 0), .write 0 0x4C 0 true, .read 0 0x58 (some 0x10), .write 0 0x58 0 true,
      .read 0 0x00 (some 0x1000), .write 0 0x00 0 true, .read 0 0x4C (some 0), .write 0 0x4C 0x10 true]) := by
  decide +kernel

/-- V6, third row: non-pin bits read 1 and are written back as read. -/
theorem test_edgeEn_top : outcome (.edgeEn 53 0) (lab { full with outLatch := 0 } (List.replicate 8 noisy)) =
    some ((0, 0), [.read 0 0x50 (some 0xFFFFFFFF), .write 0 0x50 0xFFDFFFFF true,
      .read 0 0x5C (some 0xFFFFFFFF), .write 0 0x5C 0xFFDFFFFF true, .read 0 0x14 (some 0xFFFFFFFF),
      .write 0 0x14 0xFFFFF1FF true, .read 0 0x50 (some 0xFFDFFFFF), .write 0 0x50 0xFFFFFFFF true]) := by
  decide +kernel

/-- E6, first operation. -/
theorem test_edgeDis : outcome (.edgeDis 35) (lab { blank with ren := #v[0, 0xF], fen := #v[0, 8] } calm) =
    some ((0, 0), [.read 0 0x50 (some 0xF), .write 0 0x50 7 true, .read 0 0x5C (some 8), .write 0 0x5C 0 true]) := by
  decide +kernel

/-- V7, last row. -/
theorem test_edgeDis_pin : outcome (.edgeDis 54) still = some ((1, 0), []) := by decide +kernel

/-- V8: `QUERY 53`. -/
theorem test_query_input : outcome (.query 53) (lab { blank with extLevel := 0x20000000000000 } calm) =
    some ((0x01010000, 0), [.read 0 0x14 (some 0), .read 0 0x38 (some 0x200000)]) := by decide +kernel

/-- V8: `QUERY 9`, pin 9 in Alternate3. -/
theorem test_query_alternate : outcome (.query 9) (lab { blank with fsel := #v[0x38000000, 0, 0, 0, 0, 0] } calm) =
    some ((0x700, 0), [.read 0 0x00 (some 0x38000000)]) := by decide +kernel

/-- V9: a reserved `OP` with a bad pin and level. -/
theorem test_reserved :
    (match step (still.withFetchWord 32 0x00360707) with
      | .next t => readResponse 0 t
      | .fault _ => none
      | .refused _ => none) = some (4, 0) := by decide +kernel

/-- The first step after reset runs the request placed for it. -/
theorem test_fetch_reset :
    (match step (State.reset.withFetchWord 32 0x00110003) with
      | .next _ => true
      | .fault _ => false
      | .refused _ => false) = true := by decide +kernel

/-! ### The premises of the statements, on small machines -/

theorem lab_undisturbed (w : Window) (ds : List BusDraw) : Undisturbed (lab w ds) :=
  { alive := rfl, issuer := Nat.zero_lt_succ 1, idle := rfl, agenda := rfl
    unlocked := fun g => by cases g <;> simp [lab, State.create, Locks.free, Locks.holder]
    locks := rfl, scanner := rfl }

theorem lab_alone (w : Window) (ds : List BusDraw) : Alone (lab w ds) := (lab_undisturbed w ds).toAlone

theorem lab_ready (w : Window) (ds : List BusDraw) : Ready (lab w ds) := (lab_alone w ds).toReady

theorem lab_inv {w : Window} (h : WindowOk w) (ds : List BusDraw) : Inv (lab w ds) := by
  refine inv_of_idle (Nat.le_refl 2) (Nat.zero_lt_succ 1) h (fun q => ?_) (fun g => by cases g <;> rfl) rfl
  simp only [lab, State.create, State.flightOf, List.getElem?_replicate]
  split <;> rfl

theorem blank_ok : WindowOk blank := by unfold WindowOk; decide +kernel

theorem full_ok : WindowOk full := by unfold WindowOk; decide +kernel

theorem still_inv : Inv still := lab_inv blank_ok calm

theorem lab_calm (w : Window) {n : Nat} (h : n ≤ 40) : BusOk (lab w calm) n := by
  intro k hk
  have : k < 40 := by omega
  simp only [lab, calm, State.drawAt, List.getElem?_replicate, if_pos this, Option.getD_some, quiet]

/-- The draws of a machine whose transaction number `k` fails. -/
def failing (k : Nat) : List BusDraw := List.replicate k quiet ++ [broken]

theorem lab_failing (w : Window) (k : Nat) : BusFailsAt (lab w (failing k)) k := by
  refine ⟨fun j hj => ?_, ?_⟩
  · simp [lab, failing, State.drawAt, List.getElem?_append, hj, quiet]
  · simp [lab, failing, State.drawAt, broken]

/-! ### Witnesses: for each statement with hypotheses, machines and operands that meet them -/

theorem witness_ResetBlockState :
    accepts 0 (State.create true 2 blank) = true ∧ accepts 1 (State.create false 2 full) = true ∧
    accepts 2 (State.create true 2 blank) = false := by decide +kernel

theorem witness_ResetMeetsInvariant : 2 ≤ 2 ∧ WindowOk blank ∧ WindowOk full := ⟨Nat.le_refl 2, blank_ok, full_ok⟩

/-- Port 1 issues CFG_IN 53, and port 0 then asks for QUERY 2. -/
def asked : State := { still with demands := [.request 1 0x00350003, .request 0 0x00020006] }

theorem witness_StepRunsDecodedInstruction :
    asked.demands = .request 1 0x00350003 :: [.request 0 0x00020006] ∧ asked.destroyed = false ∧
    1 < asked.ports.length ∧ decodeWord 0x00350003 = .ok (.cfgIn 53) ∧ asked.inFlight 1 = false := by decide +kernel

theorem witness_ReservedOpCompletesUnknown :
    ({ still with demands := [.request 1 0xFF] } : State).demands = .request 1 0xFF :: [] ∧
    still.destroyed = false ∧ 1 < still.ports.length ∧ still.inFlight 1 = false ∧ still.agenda = [] ∧
    7 ≤ reqOp 0xFF ∧ 7 ≤ reqOp 0x00360707 := by decide +kernel

theorem witness_IgnoredFields :
    reqOp 0x00000001 = reqOp 0xFFFFFF01 ∧ reqOp 0x00000001 = 1 ∧
    reqOp 0x00057F05 = reqOp 0x00050005 ∧ reqOp 0x00057F05 = 5 ∧ reqPin 0x00057F05 = reqPin 0x00050005 := by
  decide +kernel

theorem witness_DecodeEncode :
    (Instr.addr (-32768) 255).wellFormed = true ∧ (Instr.cfgOut 32767 255).wellFormed = true ∧
    (Instr.edgeEn 0 0).wellFormed = true := by decide

theorem witness_DecodedIsWellFormed :
    decodeWord 0xFFFFFF06 = .ok (.query (-1)) ∧ decodeWord 0x80000000 = .ok (.addr (-32768) 0) ∧
    7 ≤ reqOp 0x07 ∧ ¬ 7 ≤ reqOp 0x06 := by decide +kernel

theorem witness_AddrAnswersLocation :
    Alone still ∧ 6 < 7 ∧ ¬(0 ≤ (54 : Int) ∧ (54 : Int) < 54) ∧ ¬(0 ≤ (-1 : Int) ∧ (-1 : Int) < 54) ∧
    familyOfCode 0 = some .functionSelect ∧ familyOfCode 6 = some .fallingEdgeEnable ∧
    (0 ≤ (53 : Int) ∧ (53 : Int) < 54) := by
  refine ⟨lab_alone _ _, ?_⟩; decide

/-- The ends of the registers: pins 9 and 10, 31 and 32, and the last pin. -/
theorem witness_AddrRanges :
    addr 9 .functionSelect = .ok ⟨0, 0x00, 27, 3⟩ ∧ addr 10 .functionSelect = .ok ⟨1, 0x04, 0, 3⟩ ∧
    addr 53 .functionSelect = .ok ⟨5, 0x14, 9, 3⟩ ∧ addr 31 .setLevel = .ok ⟨0, 0x1C, 31, 1⟩ ∧
    addr 32 .setLevel = .ok ⟨1, 0x20, 0, 1⟩ ∧ addr 53 .fallingEdgeEnable = .ok ⟨1, 0x5C, 21, 1⟩ := by decide +kernel

theorem witness_FieldPrimitives : 29 + 3 ≤ 32 ∧ 0 + 32 ≤ 32 ∧ 32 + 0 ≤ 32 := by decide

theorem witness_InvalidPinRejected :
    (Alone still ∧ ¬(0 ≤ (54 : Int) ∧ (54 : Int) < 54) ∧ csqPin (.cfgOut 54 7) = some 54 ∧
      still.inoperative = false) ∧
    (∃ f, f ≤ 6 ∧ Instr.addr (-1) 6 = .addr (-1) f) ∧
    Inv still ∧ Ready still ∧ ∃ t, exec .ack still = .next t ∧ readResponse still.issuer t = some (0x4000, 0) :=
  ⟨⟨lab_alone _ _, by decide, rfl, rfl⟩, ⟨6, Nat.le_refl 6, rfl⟩, still_inv, lab_ready _ _, _, rfl, by decide +kernel⟩

theorem witness_InvalidLevelRejected :
    Alone still ∧ still.inoperative = false ∧ 53 < 54 ∧ 1 < 2 ∧ Inv still ∧ Ready still ∧
    ∃ t, exec (.cfgOut 17 7) still = .next t ∧ readResponse still.issuer t = some (2, 0) ∧ respStatus 2 = 2 :=
  ⟨lab_alone _ _, rfl, by decide, by decide, still_inv, lab_ready _ _, _, rfl, by decide +kernel⟩

theorem witness_InvalidEdgeRejected :
    Alone still ∧ still.inoperative = false ∧ 53 < 54 ∧ 1 < 2 ∧ Inv still ∧ Ready still ∧
    ∃ t, exec (.edgeEn 5 2) still = .next t ∧ readResponse still.issuer t = some (3, 0) ∧ respStatus 3 = 3 :=
  ⟨lab_alone _ _, rfl, by decide, by decide, still_inv, lab_ready _ _, _, rfl, by decide +kernel⟩

/-- A machine whose block is inoperative. -/
def dead : State := { still with inoperative := true }

theorem witness_InoperativeBlocks :
    Alone dead ∧ dead.inoperative = true ∧ csqPin (.query 54) = some 54 ∧ dead.ias.busy = false ∧ 53 < 54 :=
  ⟨⟨⟨rfl, Nat.zero_lt_succ 1, rfl⟩, rfl, (lab_alone blank calm).unlocked⟩, rfl, rfl, rfl, by decide⟩

theorem witness_InoperativeExactlyOnFailure :
    Inv (lab blank (failing 1)) ∧ ∃ t, step { lab blank (failing 1) with agenda := [.event 3] } = .next t :=
  ⟨lab_inv blank_ok _, _, rfl⟩

/-- A step with a failure: the request of P5. -/
theorem witness_InoperativeExactlyOnFailure_fails :
    ∃ t, step { lab blank (failing 1) with demands := [.request 0 0x00030102] } = .next t ∧
      t.inoperative = true ∧ ∃ x ∈ t.bus, failedTransaction x = true :=
  ⟨_, rfl, by decide +kernel, .write 0 0 0x200 false, by decide +kernel, rfl⟩

theorem witness_ResponseStatuses :
    Inv still ∧ Ready still ∧ ∃ t, exec (.query 54) still = .next t ∧ readResponse still.issuer t = some (1, 0) :=
  ⟨still_inv, lab_ready _ _, _, rfl, by decide +kernel⟩

theorem witness_BusFailureEndsCsqOperation :
    Undisturbed (lab blank (failing 7)) ∧ (lab blank (failing 7)).inoperative = false ∧
    csqPin (.edgeEn 53 1) = some 53 ∧ csqArgError (.edgeEn 53 1) = none ∧
    7 < csqTransactions blank 53 (.edgeEn 53 1) ∧ BusFailsAt (lab blank (failing 7)) 7 ∧
    1 < csqTransactions blank 4 (.query 4) ∧ 0 < csqTransactions full 9 (.query 9) :=
  ⟨lab_undisturbed _ _, rfl, rfl, rfl, by decide, lab_failing _ _, by decide, by decide +kernel⟩

theorem witness_CfgOutFailureKeepsFunction :
    Undisturbed (lab blank (failing 2)) ∧ (lab blank (failing 2)).inoperative = false ∧ 53 < 54 ∧ 1 ≤ 1 ∧
    BusFailsAt (lab blank (failing 2)) 2 :=
  ⟨lab_undisturbed _ _, rfl, by decide, by decide, lab_failing _ _⟩

theorem witness_FailedTransaction :
    addr 53 .readLevel = .ok ⟨1, 0x38, 21, 1⟩ ∧ Reg.ofOffset 0x38 = some (.lev 1) ∧
    addr 0 .functionSelect = .ok ⟨0, 0x00, 0, 3⟩ ∧ Reg.ofOffset 0x00 = some (.fsel 0) ∧
    ((lab blank (failing 0)).drawAt 0).err = true := by decide +kernel

theorem witness_CfgOutResult :
    Undisturbed still ∧ still.inoperative = false ∧ BusOk still 3 ∧ 53 < 54 ∧ 0 ≤ 1 ∧ 1 ≤ 1 :=
  ⟨lab_undisturbed _ _, rfl, lab_calm _ (by decide), by decide, by decide, by decide⟩

theorem witness_CfgInResult : Undisturbed still ∧ still.inoperative = false ∧ BusOk still 2 ∧ 53 < 54 :=
  ⟨lab_undisturbed _ _, rfl, lab_calm _ (by decide), by decide⟩

theorem witness_EdgeEnResult :
    Undisturbed still ∧ still.inoperative = false ∧ BusOk still 8 ∧ 53 < 54 ∧ 0 ≤ 1 ∧ 1 ≤ 1 :=
  ⟨lab_undisturbed _ _, rfl, lab_calm _ (by decide), by decide, by decide, by decide⟩

theorem witness_EdgeDisResult : Undisturbed still ∧ still.inoperative = false ∧ BusOk still 4 ∧ 53 < 54 :=
  ⟨lab_undisturbed _ _, rfl, lab_calm _ (by decide), by decide⟩

/-- Pin 2 is an Output, pin 4 an Input. -/
theorem witness_QueryIoResult :
    Alone (lab { blank with fsel := #v[0x40, 0, 0, 0, 0, 0] } calm) ∧
    BusOk (lab { blank with fsel := #v[0x40, 0, 0, 0, 0, 0] } calm) 2 ∧
    ({ blank with fsel := #v[0x40, 0, 0, 0, 0, 0] } : Window).func 2 = 1 ∧
    ({ blank with fsel := #v[0x40, 0, 0, 0, 0, 0] } : Window).func 4 = 0 :=
  ⟨lab_alone _ _, lab_calm _ (by decide), by decide +kernel, by decide +kernel⟩

theorem witness_QueryAlternateResult :
    Alone (lab full calm) ∧ (lab full calm).inoperative = false ∧ BusOk (lab full calm) 1 ∧ 53 < 54 ∧
    full.func 53 ≠ 0 ∧ full.func 53 ≠ 1 :=
  ⟨lab_alone _ _, rfl, lab_calm _ (by decide), by decide, by decide +kernel, by decide +kernel⟩

theorem witness_EdgeDisTwice : Undisturbed (lab full calm) ∧ (lab full calm).inoperative = false ∧
    BusOk (lab full calm) 8 ∧ 35 < 54 :=
  ⟨lab_undisturbed _ _, rfl, lab_calm _ (by decide), by decide⟩

/-- The window hardware moves before, between and after the steps of CFG_OUT. -/
theorem witness_CfgOutThenQueryLevel :
    let s : State := { still with agenda := [.level 17 true, .advance 0, .redraw, .advance 0, .event 17] }
    Inv s ∧ Ready s ∧ s.locks = Locks.free ∧ s.inoperative = false ∧ BusOk s (s.agenda.length + 1 + 16) ∧
    (∀ m ∈ s.agenda ++ [.level 17 false], m = .advance s.issuer ∨ hardwareMove m = true) :=
  ⟨inv_congr still_inv rfl still_inv.issuer rfl rfl rfl rfl, ⟨rfl, Nat.zero_lt_succ 1, rfl⟩, rfl, rfl,
    lab_calm blank (by decide), by decide⟩

theorem witness_CfgInReportsExternalLevel :
    Undisturbed still ∧ still.inoperative = false ∧ BusOk still 2 ∧ 53 < 54 ∧
    [Move.level 53 true, .event 53, .redraw].all hardwareMove = true :=
  ⟨lab_undisturbed _ _, rfl, lab_calm _ (by decide), by decide, rfl⟩

theorem witness_AckLowResult :
    Alone (lab full calm) ∧ (lab full calm).ias.busy = false ∧ (lab full calm).inoperative = false ∧
    BusOk (lab full calm) 2 ∧ full.pending 0 = true ∧
    (let w : Window := { blank with eds := #v[0x80000000, 0] }
     w.pending 31 = true ∧ ∀ k, k < 31 → w.pending k = false) :=
  ⟨lab_alone _ _, rfl, rfl, lab_calm _ (by decide), by decide +kernel, by decide +kernel⟩

/-- EDS1 has pin 53 pending; and, with nothing pending, a non-pin bit that reads 1. -/
theorem witness_AckHighResult :
    (let w : Window := { blank with eds := #v[0, 0x200000] }
     Alone (lab w calm) ∧ BusOk (lab w calm) 3 ∧ (∀ k, k < 32 → w.pending k = false) ∧
     (0x200000 : Word) = w.read (.eds 1) ((lab w calm).drawAt 1).bits ∧ (0x200000 : Word).getLsbD 21 = true ∧
     ∀ k, k < 21 → (0x200000 : Word).getLsbD k = false) ∧
    (let s := lab blank [quiet, { quiet with bits := 0x80000000 }, quiet]
     (∀ k, k < 32 → blank.pending k = false) ∧ (0x80000000 : Word) = blank.read (.eds 1) (s.drawAt 1).bits ∧
     (0x80000000 : Word).getLsbD 31 = true ∧ ∀ k, k < 31 → (0x80000000 : Word).getLsbD k = false) :=
  ⟨⟨lab_alone _ _, lab_calm _ (by decide), by decide +kernel, by decide +kernel, by decide +kernel,
    by decide +kernel⟩, by decide +kernel⟩

theorem witness_AckNothingPending :
    Alone still ∧ still.ias.busy = false ∧ still.inoperative = false ∧ BusOk still 2 ∧
    (∀ k, k < 54 → still.window.pending k = false) ∧ (still.drawAt 1).bits &&& 0xFFC00000 = 0 :=
  ⟨lab_alone _ _, rfl, rfl, lab_calm _ (by decide), by decide +kernel, by decide +kernel⟩

/-- The lowest pending pin is the last of EDS0, or the last of all. -/
theorem witness_AckReportsLowestPending :
    Alone (lab { blank with eds := #v[0, 0x200000] } calm) ∧
    BusOk (lab { blank with eds := #v[0, 0x200000] } calm) 3 ∧
    (let w : Window := { blank with eds := #v[0, 0x200000] }
     w.pending 53 = true ∧ ∀ k, k < 53 → w.pending k = false) ∧
    (let w : Window := { blank with eds := #v[0x80000000, 0x200000] }
     w.pending 31 = true ∧ ∀ k, k < 31 → w.pending k = false) :=
  ⟨lab_alone _ _, lab_calm _ (by decide), by decide +kernel, by decide +kernel⟩

theorem witness_AckNeverFails :
    (Inv still ∧ Ready still) ∧ (Alone dead ∧ dead.ias.busy = false ∧ dead.inoperative = true) ∧
    (Alone (lab blank (failing 0)) ∧ BusFailsAt (lab blank (failing 0)) 0) ∧
    (Alone (lab full (failing 1)) ∧ BusFailsAt (lab full (failing 1)) 1) ∧
    (let w : Window := { blank with eds := #v[0, 0x200000] }
     Alone (lab w (failing 2)) ∧ BusFailsAt (lab w (failing 2)) 2 ∧ (∀ j, j < 32 → w.pending j = false) ∧
     w.read (.eds 1) ((lab w (failing 2)).drawAt 1).bits ≠ 0) :=
  ⟨⟨still_inv, lab_ready _ _⟩, ⟨witness_InoperativeBlocks.1, rfl, rfl⟩, ⟨lab_alone _ _, lab_failing _ _⟩,
    ⟨lab_alone _ _, lab_failing _ _⟩, lab_alone _ _, lab_failing _ _, by decide +kernel, by decide +kernel⟩

theorem witness_AckIgnoresLocks :
    Alone still ∧ still.ias.busy = false ∧ ∃ t, exec .ack still = .next t := ⟨lab_alone _ _, rfl, _, rfl⟩

/-- Port 0's ACK has read EDS0 with bits 1 and 3 set and is about to clear; port 1 waits for the scanner. -/
def clearing : State :=
  runMoves [.request 0 1, .request 1 1, .advance 0, .advance 0] (lab { blank with eds := #v[0xA, 0] } calm)

theorem clearing_inv : Inv clearing := inv_runMoves (lab_inv (by unfold WindowOk; decide +kernel) calm) _

theorem witness_AckClearsOnlyItsBit :
    Inv clearing ∧ clearing.flightOf 0 = some ⟨[.scanClear], 0⟩ ∧
    (∀ m ∈ [Move.event 0, .event 1, .advance 1], m ≠ .advance 0) ∧
    ((runMoves [.event 0, .event 1, .advance 1] clearing).drawAt 0).err = false :=
  ⟨clearing_inv, by decide +kernel, by decide, by decide +kernel⟩

theorem witness_AckRunDrainsPending :
    let w : Window := { blank with eds := #v[0xA, 0x20] }
    Alone (lab w calm) ∧ (lab w calm).ias.busy = false ∧ (lab w calm).inoperative = false ∧
    pendingPins w = [1, 3, 37] ∧ ∀ n, n < 3 * ((pendingPins w).length + 1) →
      ((lab w calm).drawAt n).err = false ∧ ((lab w calm).drawAt n).bits &&& 0xFFC00000 = 0 :=
  ⟨lab_alone _ _, rfl, rfl, by decide +kernel, by decide +kernel⟩

theorem witness_ScannerHoldsSecondAck :
    Inv clearing ∧ clearing.ias.busy = true ∧ clearing.flightOf 1 = some ⟨[.claimScanner], 0⟩ ∧
    clearing.flightOf 0 = some ⟨[.scanClear], 0⟩ ∧ inScan [.scanClear] = true :=
  ⟨clearing_inv, by decide +kernel, by decide +kernel, by decide +kernel, rfl⟩

/-- Pin 29 is the last field of FSEL2, pin 53 the last of FSEL5; a write can turn either into Output. -/
theorem witness_FunctionSelectAccess :
    29 / 10 = (2 : Fin 6).val ∧ 53 / 10 = (5 : Fin 6).val ∧
    ((blank.write (.fsel 2) 0x08000000 0).func 29 = 1 ∧ blank.func 29 ≠ 1) ∧
    ((full.write (.fsel 5) 0x200 0).func 53 = 1 ∧ full.func 53 ≠ 1) ∧
    ¬((blank.write (.fsel 2) 0x08000000 0).func 28 = 1 ∧ blank.func 28 ≠ 1) := by decide +kernel

theorem witness_LevelActionWrites : 31 < 54 ∧ 53 < 54 ∧ 53 / 32 = (1 : Fin 2).val := by decide

/-- The last pin bit of register 1 and the first bit that belongs to no pin. -/
theorem witness_ReadLevelAccess :
    21 < 32 ∧ ¬ 54 ≤ 32 * (1 : Fin 2).val + 21 ∧ 54 ≤ 32 * (1 : Fin 2).val + 22 ∧ blank.func 53 = 0 ∧
    full.func 53 = 7 := by decide +kernel

theorem witness_EventStatusAccess : 32 * (1 : Fin 2).val + 21 < 54 ∧ ¬ 32 * (1 : Fin 2).val + 22 < 54 := by decide

theorem witness_EdgeEnableAccess : 32 * (0 : Fin 2).val + 31 < 54 ∧ 53 / 32 = (1 : Fin 2).val := by decide

theorem witness_HardwareSteps :
    53 < 54 ∧ hardwareMove (.level 53 true) = true ∧ hardwareMove (.event 54) = true ∧
    hardwareMove .redraw = true := by decide

theorem witness_OneBitWritesCommute :
    addr 31 .setLevel = .ok ⟨0, 0x1C, 31, 1⟩ ∧ Reg.ofOffset 0x1C = some (.set 0) ∧
    addr 32 .clearLevel = .ok ⟨1, 0x2C, 0, 1⟩ ∧ Reg.ofOffset 0x2C = some (.clr 1) ∧
    addr 1 .eventStatus = .ok ⟨0, 0x40, 1, 1⟩ ∧ Reg.ofOffset 0x40 = some (.eds 0) := by decide +kernel

/-- Offsets at the ends of the clauses: 0x5C is the last register, 0x60 the first past it. -/
theorem witness_AccessRefusals :
    (2 ≠ 4 ∨ (0x5C : Nat) % 4 ≠ 0) ∧ (4 ≠ 4 ∨ (0x5D : Nat) % 4 ≠ 0) ∧
    ((0x60 : Nat) % 4 = 0 ∧ 0x60 ≤ 0x60) ∧ ((4 * Config.windowBytes) % 4 = 0 ∧ 0x60 ≤ 4 * Config.windowBytes) ∧
    addr 53 .fallingEdgeEnable = .ok ⟨1, 0x5C, 21, 1⟩ ∧ checkAccess 0x5C 4 true = .ok (.fen 1) :=
  ⟨by decide, by decide, by decide, by unfold Config.windowBytes; omega, by decide +kernel, by decide +kernel⟩

theorem witness_InvKeptByStep : Inv clearing ∧ ∃ t, step clearing = .next t := ⟨clearing_inv, _, rfl⟩

/-- Port 0 is ready while port 1's RMW holds a lock and the agenda interleaves both. -/
def busyOther : State :=
  { runMoves [.request 1 0x00350003, .advance 1, .advance 1] still with
    agenda := [.advance 0, .advance 1, .event 2, .advance 0] }

theorem witness_EveryOperationCompletes : Inv busyOther ∧ Ready busyOther :=
  ⟨inv_congr (inv_runMoves still_inv [.request 1 0x00350003, .advance 1, .advance 1]) rfl (by decide +kernel) rfl rfl rfl
    rfl, by decide +kernel, by decide +kernel, by decide +kernel⟩

theorem witness_AtMostEightTransactions :
    Inv busyOther ∧ Ready busyOther ∧ ∃ t, exec (.edgeEn 53 0) busyOther = .next t :=
  ⟨witness_EveryOperationCompletes.1, witness_EveryOperationCompletes.2, _, rfl⟩

/-- Port 1 holds the FunctionSelect lock; port 0's CFG_OUT is at its acquire. -/
def waiting : State := runMoves [.request 0 0x00110102, .advance 0] busyOther

theorem waiting_inv : Inv waiting := inv_runMoves witness_EveryOperationCompletes.1 _

theorem witness_LockAcquire :
    ((waiting.flightOf 0).map Flight.todo).bind List.head? = some (.acquire .functionSelect) ∧
    waiting.locks.holder .functionSelect = some 1 ∧
    (let s := runMoves [.request 0 0x00110102, .advance 0] still
     ((s.flightOf 0).map Flight.todo).bind List.head? = some (.acquire .functionSelect) ∧
     s.locks.holder .functionSelect = none) := by decide +kernel

theorem witness_NoDeadlock :
    Inv waiting ∧ waiting.locks.holder .functionSelect = some 1 ∧ blocker 0 waiting = some 1 :=
  ⟨waiting_inv, by decide +kernel, by decide +kernel⟩

/-- Port 1's CFG_IN 53 has read FSEL5 and is about to write; port 0 moves meanwhile. -/
theorem witness_RmwNeverLosesUpdate :
    Inv (advance 1 waiting) ∧
    (advance 1 waiting).flightOf 1 =
      some ⟨.writeField .functionSelect 53 inputCode :: [.release .functionSelect, respondOk], 0⟩ ∧
    (∀ m ∈ [Move.advance 0, .event 53, .level 53 true], m ≠ .advance 1) ∧
    ((runMoves [.advance 0, .event 53, .level 53 true] (advance 1 waiting)).drawAt 0).err = false :=
  ⟨inv_advance waiting_inv 1, by decide +kernel, by decide, by decide +kernel⟩

/-- P6: pins 3 and 4, an interleaving that ends with both operations complete. -/
def p6Moves : List Move :=
  [.advance 0, .advance 1, .advance 0, .advance 1, .advance 0, .event 7, .advance 0, .advance 0, .advance 1,
   .advance 1, .advance 1, .level 4 true, .advance 1, .advance 1, .advance 0, .advance 0]

theorem witness_ConcurrentConfigKeepsBoth :
    let s := lab { blank with fsel := #v[0x1000, 0, 0, 0, 0, 0] } calm
    Inv s ∧ s.anyInFlight = false ∧ s.destroyed = false ∧ s.inoperative = false ∧ BusOk s p6Moves.length ∧
    (∀ m ∈ p6Moves, m = .advance 0 ∨ m = .advance 1 ∨ hardwareMove m = true) ∧
    (runMoves p6Moves (begin 1 (cfgInSteps 4) (begin 0 (cfgOutSteps 3 1) s))).inFlight 0 = false ∧
    (runMoves p6Moves (begin 1 (cfgInSteps 4) (begin 0 (cfgOutSteps 3 1) s))).inFlight 1 = false ∧
    (runMoves p6Moves (begin 1 (cfgInSteps 4) (begin 0 (cfgOutSteps 3 1) s))).window.fselAt 0 = 0x200 ∧
    (runMoves p6Moves (begin 1 (cfgInSteps 4) (begin 0 (cfgOutSteps 3 1) s))).window.latch 3 = true :=
  ⟨lab_inv (by unfold WindowOk; decide +kernel) _, by decide +kernel, rfl, rfl, lab_calm _ (by decide), by decide,
    by decide +kernel, by decide +kernel, by decide +kernel, by decide +kernel⟩

theorem witness_EdgeEnBothEdgesRace :
    still.inoperative = false ∧ still.locks = Locks.free ∧ BusOk still 16 ∧ 0 ≠ 1 ∧ 1 < still.ports.length ∧
    still.inFlight 0 = false ∧ still.inFlight 1 = false ∧ 53 < 54 :=
  ⟨rfl, rfl, lab_calm _ (by decide), by decide, by decide, rfl, rfl, by decide⟩

theorem witness_ResponseReads :
    let s : State := { clearing with demands := [.readResponse 0] }
    s.demands = .readResponse 0 :: [] ∧ s.inFlight 0 = true ∧ readResponse 0 still = none ∧
    0 < still.ports.length ∧ still.ports.length ≤ 2 ∧ still.ports.length > 1 ∧
    (readResponse 0 (runMoves [.advance 0, .advance 0] s)).isSome = true := by decide +kernel

theorem witness_DestructionRefuses :
    ({ still with destroyed := true, demands := [.request 0 1] } : State).demands = .request 0 1 :: [] ∧
    ({ still with demands := [.release] } : State).demands = .release :: [] ∧ still.destroyed = false ∧
    still.anyInFlight = false ∧ clearing.anyInFlight = true := by decide +kernel

theorem witness_PseudoInstructions :
    -32768 ≤ (-32768 : Int) ∧ (32767 : Int) ≤ 32767 ∧
    "toggle" ∉ ["high", "low", "in", "rising", "falling", "none"] := by decide

theorem witness_QueryTexts : (7 : Word).toNat < 8 := by decide

end Sys2Proof.Tests
end

section
/-! PROOFS, family 00_scope: the invariant at reset (O2), and what one step of the whole machine can do, from which
every step keeps the invariant (O49). -/

namespace Sys2Proof.Machine

open Sys2Proof.Safety

/-! ### The invariant at creation and at reset -/

/-- The window at reset holds its draws in canonical form (R28, R29, R39). -/
theorem windowOk_initial : WindowOk Window.initial := by
  have hfsel : ∀ i : Fin 6, Window.initial.fselAt i = Config.initialFsel i &&& fselPinMask i := by
    intro i; fin_cases i <;> rfl
  have heds : ∀ i : Fin 2, Window.initial.edsAt i = Config.initialEds i &&& bitPinMask i := by
    intro i; fin_cases i <;> rfl
  have hren : ∀ i : Fin 2, Window.initial.renAt i = Config.initialRen i &&& bitPinMask i := by
    intro i; fin_cases i <;> rfl
  have hfen : ∀ i : Fin 2, Window.initial.fenAt i = Config.initialFen i &&& bitPinMask i := by
    intro i; fin_cases i <;> rfl
  exact ⟨fun i => hfsel i ▸ canonical_and_mask _ _, fun i => heds i ▸ canonical_and_mask _ _,
    fun i => hren i ▸ canonical_and_mask _ _, fun i => hfen i ▸ canonical_and_mask _ _⟩

@[simp] theorem State.flightOf_create (available : Bool) (ports : Nat) (w : Window) (q : Nat) :
    (State.create available ports w).flightOf q = none := by
  simp only [State.create, State.flightOf, List.getElem?_replicate]
  split <;> rfl

@[simp] theorem State.ports_length_create (available : Bool) (ports : Nat) (w : Window) :
    (State.create available ports w).ports.length = ports := by
  simp [State.create]

/-- Creation leaves a quiescent machine, so over a canonical window it meets the invariant. -/
theorem inv_create (available : Bool) {ports : Nat} (hp : 2 ≤ ports) {w : Window} (hw : WindowOk w) :
    Inv (State.create available ports w) :=
  inv_of_idle (by simpa using hp) (by rw [State.ports_length_create]; exact Nat.zero_lt_of_lt hp) hw
    (State.flightOf_create available ports w) Locks.holder_free rfl

/-- Settles O2: creation leaves no operation in flight, no lock held and the scanner free, and the window at reset is
canonical. -/
theorem resetMeetsInvariant : Obligations.ResetMeetsInvariant :=
  ⟨inv_create _ (Nat.le_add_left 2 _) windowOk_initial, fun available _ _ hp hw => inv_create available hp hw⟩

/-! ### What one step can do -/

/-- What `perform` answers, when it answers a next state. -/
theorem perform_next {todo : List Action} {s t : State} (h : perform todo s = .next t) :
    Ready s ∧ t = settle s.issuer (begin s.issuer todo s) := by
  have hR : Ready s := by
    unfold perform at h
    split at h
    · cases h
    · next hd =>
      split at h
      · next hi =>
        split at h
        · cases h
        · next hf => exact ⟨by simpa using hd, hi, by simpa using hf⟩
      · cases h
  rw [perform_ready hR] at h
  cases h
  exact ⟨hR, rfl⟩

/-- A request word on a port that exists runs the sequence of that word, once the port has settled (R21, R82). -/
theorem runRequest_perform {q : Nat} {s : State} (hd : s.destroyed = false) (hq : q < s.ports.length) (w : Word)
    (rest : List Demand) :
    runRequest q w rest s = perform (requestSteps w) (accept q w rest (settle q s)) := by
  simp only [runRequest, requestSteps, hd, Bool.false_eq_true, if_false, hq, if_true]
  cases decodeWord w with
  | ok i => exact exec_eq_perform i _
  | error e => rfl

/-- What a step does, when it answers a next state: a move of another agent, a request run to its response, a response
read, or the release of the range. -/
theorem step_next {s t : State} (h : step s = .next t) :
    (s.demands = [] ∧ t = idleMove s) ∨
    (∃ q w rest, s.demands = .request q w :: rest ∧ s.destroyed = false ∧ q < s.ports.length ∧
      perform (requestSteps w) (accept q w rest (settle q s)) = .next t) ∨
    (∃ q rest, s.demands = .readResponse q :: rest ∧ (readResponse q s).isSome = true ∧
      t = { s with demands := rest }) ∨
    (∃ rest, s.demands = .release :: rest ∧ s.destroyed = false ∧ s.anyInFlight = false ∧
      t = { s with destroyed := true, demands := rest }) := by
  unfold step at h
  split at h
  · next hdem => cases h; exact .inl ⟨hdem, rfl⟩
  · next q w rest hdem =>
    have hd : s.destroyed = false := by
      by_contra hd
      rw [Bool.not_eq_false] at hd
      simp [runRequest, hd] at h
    have hq : q < s.ports.length := by
      by_contra hq
      simp [runRequest, hd, hq] at h
    rw [runRequest_perform hd hq] at h
    exact .inr (.inl ⟨q, w, rest, hdem, hd, hq, h⟩)
  · next q rest hdem =>
    unfold runReadResponse at h
    split at h
    · split at h
      · next hr => cases h; exact .inr (.inr (.inl ⟨q, rest, hdem, by rw [hr]; rfl, rfl⟩))
      · cases h
    · cases h
  · next rest hdem =>
    unfold runRelease at h
    split at h
    · cases h
    · next hd =>
      split at h
      · cases h
      · next hf => cases h; exact .inr (.inr (.inr ⟨rest, hdem, by simpa using hd, by simpa using hf, rfl⟩))

/-! ### Every step keeps the invariant -/

/-- An operation that starts at a position holding nothing keeps the invariant to its response. -/
theorem inv_perform {s t : State} (hI : Inv s) {todo : List Action} (ht : plainOk todo = true ∨ todo = [.claimScanner])
    (h : perform todo s = .next t) : Inv t := by
  obtain ⟨hR, rfl⟩ := perform_next h
  exact inv_settle (inv_begin hI hR.idle hR.alive ht) _

theorem inv_idleMove {s : State} (hI : Inv s) : Inv (idleMove s) := by
  unfold idleMove
  split
  · next m rest _ =>
    exact inv_makeMove (s := { s with agenda := rest }) (inv_congr hI rfl hI.issuer rfl rfl rfl rfl) m
  · split
    · exact inv_turn hI _
    · exact hI

theorem State.flightOf_of_quiescent {s : State} (h : s.anyInFlight = false) (q : Nat) : s.flightOf q = none := by
  rw [State.flightOf]
  cases hp : s.ports[q]? with
  | none => rfl
  | some p =>
    rw [State.anyInFlight, List.any_eq_false] at h
    simpa using h p (List.mem_of_getElem? hp)

/-- The release of the range keeps the invariant, since no operation is in flight (R204). -/
theorem inv_release {s : State} (hI : Inv s) (hq : s.anyInFlight = false) (rest : List Demand) :
    Inv { s with destroyed := true, demands := rest } :=
  { hI with ended := fun _ => State.flightOf_of_quiescent hq }

/-- Settles O49, by what one step can do (`step_next`). -/
theorem invKeptByStep : Obligations.InvKeptByStep := by
  intro s t hI h
  obtain ⟨-, rfl⟩ | ⟨q, w, rest, -, -, hq, hw⟩ | ⟨q, rest, -, -, rfl⟩ | ⟨rest, -, -, hf, rfl⟩ := step_next h
  · exact inv_idleMove hI
  · have hlt : q < (settle q s).ports.length := by rwa [settle_ports_length hI q]
    exact inv_perform (inv_accept (inv_settle hI q) hlt w rest) (startOk_requestSteps w) hw
  · exact inv_congr hI rfl hI.issuer rfl rfl rfl rfl
  · exact inv_release hI hf rest

end Sys2Proof.Machine
end

section
/-! PROOFS, family 10_state: the block is inoperative exactly after a failed transaction (O17), what creation leaves
(O1), the step that meets a request (O4) and the step that meets the read of a response (O57). -/

namespace Sys2Proof.Machine

open Sys2Proof.Safety

/-! ### Failures and the record -/

/-- From `s` to `t` transactions went into the record and none left it, and the block is inoperative in `t` exactly if it
was in `s` or one of them returned `ERR` (R22, R184). -/
def FailuresRecorded (s t : State) : Prop :=
  ∃ l, t.bus = l ++ s.bus ∧ (t.inoperative = true ↔ s.inoperative = true ∨ ∃ x ∈ l, failedTransaction x = true)

/-- What makes no transaction and leaves `inoperative` alone. -/
theorem FailuresRecorded.silent {s t : State} (hb : t.bus = s.bus) (hi : t.inoperative = s.inoperative) :
    FailuresRecorded s t :=
  ⟨[], by simp [hb], by simp [hi]⟩

theorem FailuresRecorded.trans {s t u : State} (h : FailuresRecorded s t) (h' : FailuresRecorded t u) :
    FailuresRecorded s u := by
  obtain ⟨l, hl, hi⟩ := h
  obtain ⟨l', hl', hi'⟩ := h'
  refine ⟨l' ++ l, by rw [hl', hl, List.append_assoc], ?_⟩
  rw [hi', hi]
  simp only [List.mem_append, or_and_right, exists_or, or_assoc, or_comm]

theorem failuresRecorded_makeMove {s : State} (hI : Inv s) (m : Move) : FailuresRecorded s (makeMove m s) :=
  let ⟨l, hl, _, hi⟩ := makeMove_record hI m
  ⟨l, hl, hi⟩

theorem failuresRecorded_settle {s : State} (hI : Inv s) (q : Nat) : FailuresRecorded s (settle q s) :=
  settle_induction (P := FailuresRecorded s) (fun _ m hx _ h => h.trans (failuresRecorded_makeMove hx m))
    (fun _ _ h => h.trans (.silent rfl rfl)) hI (.silent rfl rfl)

/-- A turn is one move: the agenda's, or a step of an operation in flight. -/
theorem turn_eq_makeMove (q : Nat) (s : State) : ∃ m rest, turn q s = makeMove m { s with agenda := rest } := by
  unfold turn
  split
  · next m rest _ => exact ⟨m, rest, rfl⟩
  · split
    · next r _ => exact ⟨.advance r, s.agenda, rfl⟩
    · exact ⟨.advance q, s.agenda, rfl⟩

/-- Without a demand the machine makes one move, or none once the agenda is used up and no operation is in flight. -/
theorem idleMove_cases (s : State) :
    (∃ m rest, idleMove s = makeMove m { s with agenda := rest }) ∨ idleMove s = s := by
  unfold idleMove
  split
  · next m rest _ => exact .inl ⟨m, rest, rfl⟩
  · split
    · next q _ => exact .inl (turn_eq_makeMove q s)
    · exact .inr rfl

theorem failuresRecorded_idleMove {s : State} (hI : Inv s) : FailuresRecorded s (idleMove s) := by
  obtain ⟨m, rest, h⟩ | h := idleMove_cases s <;> rw [h]
  · have hI' : Inv { s with agenda := rest } := inv_congr hI rfl hI.issuer rfl rfl rfl rfl
    exact .trans (.silent rfl rfl) (failuresRecorded_makeMove hI' m)
  · exact .silent rfl rfl

theorem failuresRecorded_perform {s t : State} (hI : Inv s) {todo : List Action}
    (ht : plainOk todo = true ∨ todo = [.claimScanner]) (h : perform todo s = .next t) : FailuresRecorded s t := by
  obtain ⟨hR, rfl⟩ := perform_next h
  have hstart : FailuresRecorded s (begin s.issuer todo s) := .silent rfl rfl
  exact hstart.trans (failuresRecorded_settle (inv_begin hI hR.idle hR.alive ht) _)

/-- Settles O17: each move records its failures (`makeMove_record`), this composes along the moves of a run
(`FailuresRecorded.trans`), and accepting a request, reading a response and releasing the range make no transaction. -/
theorem inoperativeExactlyOnFailure : Obligations.InoperativeExactlyOnFailure := by
  intro s t hI h
  obtain ⟨-, rfl⟩ | ⟨q, w, rest, -, -, hq, hw⟩ | ⟨_, _, -, -, rfl⟩ | ⟨_, -, -, -, rfl⟩ := step_next h
  · exact failuresRecorded_idleMove hI
  · have hlt : q < (settle q s).ports.length := by rwa [settle_ports_length hI q]
    have hacc : FailuresRecorded (settle q s) (accept q w rest (settle q s)) := .silent rfl rfl
    have hrun := failuresRecorded_perform (inv_accept (inv_settle hI q) hlt w rest) (startOk_requestSteps w) hw
    exact (failuresRecorded_settle hI q).trans (hacc.trans hrun)
  · exact FailuresRecorded.silent rfl rfl
  · exact FailuresRecorded.silent rfl rfl

/-! ### Reading a response -/

/-- While an operation is in flight the response latches hold no value (R21). -/
theorem readResponse_of_inFlight {s : State} {q : Nat} (h : s.inFlight q = true) : readResponse q s = none := by
  obtain ⟨f, hf⟩ := (s.inFlight_iff q).1 h
  obtain ⟨p, hp, hpf⟩ := Option.bind_eq_some_iff.1 hf
  simp [readResponse, hp, hpf]

/-- A response is read on a port that exists only. -/
theorem lt_of_readResponse_isSome {s : State} {q : Nat} (h : (readResponse q s).isSome = true) :
    q < s.ports.length := by
  by_contra hge
  simp [readResponse, List.getElem?_eq_none (Nat.le_of_not_lt hge)] at h

theorem step_readResponse {s : State} {q : Nat} {rest : List Demand} (h : s.demands = .readResponse q :: rest) :
    step s = runReadResponse q rest s := by
  rw [step, h]

/-- The read of latches that hold no value faults (R21, R38, U14). -/
theorem runReadResponse_fault {s : State} {q : Nat} (hq : q < s.ports.length) (h : readResponse q s = none)
    (rest : List Demand) : runReadResponse q rest s = .fault (.responseNotHeld q) := by
  rw [runReadResponse, if_pos hq, h]

theorem runReadResponse_next {s : State} {q : Nat} (h : (readResponse q s).isSome = true) (rest : List Demand) :
    runReadResponse q rest s = .next { s with demands := rest } := by
  obtain ⟨r, hr⟩ := Option.isSome_iff_exists.1 h
  rw [runReadResponse, if_pos (lt_of_readResponse_isSome h), hr]

theorem runReadResponse_noSuchPort {s : State} {q : Nat} (hq : s.ports.length ≤ q) (rest : List Demand) :
    runReadResponse q rest s = .refused .noSuchPort := by
  rw [runReadResponse, if_neg (Nat.not_lt_of_le hq)]

/-- Settles O57: an operation in flight leaves nothing to read (`readResponse_of_inFlight`), and `runReadResponse`
answers by whether the port exists and there is something to read. -/
theorem responseReads : Obligations.ResponseReads := by
  intro s q rest hdem
  rw [step_readResponse hdem]
  exact ⟨fun h => runReadResponse_fault (s.inFlight_lt h) (readResponse_of_inFlight h) rest,
    fun hq h => runReadResponse_fault hq h rest, fun hq => runReadResponse_noSuchPort hq rest,
    fun h => runReadResponse_next h rest⟩

/-! ### What creation leaves -/

theorem State.inFlight_create (available : Bool) (ports : Nat) (w : Window) (q : Nat) :
    (State.create available ports w).inFlight q = false :=
  (State.inFlight_false _ q).2 (State.flightOf_create available ports w q)

theorem accepts_create (available : Bool) {ports q : Nat} (hq : q < ports) (w : Window) :
    accepts q (State.create available ports w) = true :=
  accepts_iff.2 ⟨by simpa using hq, State.inFlight_create available ports w q, rfl⟩

/-- No port has a response before its first operation (R38). -/
theorem readResponse_create (available : Bool) (ports : Nat) (w : Window) (q : Nat) :
    readResponse q (State.create available ports w) = none := by
  by_cases hq : q < ports <;> simp [readResponse, State.create, hq, Port.idle]

/-- Settles O1: the fields are those `State.create` writes, and its ports are idle and hold no response. -/
theorem resetBlockState : Obligations.ResetBlockState := by
  intro available ports w s
  refine ⟨rfl, Locks.holder_free, rfl, rfl, rfl, rfl, State.ports_length_create available ports w, ?_, rfl⟩
  intro q hq
  refine ⟨State.inFlight_create available ports w q, accepts_create available hq w, fun rest => ?_⟩
  have hlt : q < s.ports.length := by rwa [State.ports_length_create]
  rw [step_readResponse rfl]
  exact runReadResponse_fault hlt (readResponse_create available ports w q) rest

/-! ### The step that meets a request -/

theorem step_request {s : State} {q : Nat} {w : Word} {rest : List Demand} (h : s.demands = .request q w :: rest) :
    step s = runRequest q w rest s := by
  rw [step, h]

/-- A request that decodes runs its instruction, once the port has settled (R21, R88). -/
theorem runRequest_of_decode {s : State} {q : Nat} (hd : s.destroyed = false) (hq : q < s.ports.length) {w : Word}
    {i : Instr} (hw : decodeWord w = .ok i) (rest : List Demand) :
    runRequest q w rest s = exec i (accept q w rest (settle q s)) := by
  rw [runRequest_perform hd hq, exec_eq_perform, requestSteps, hw]

section Accept

variable (q : Nat) (w : Word) (rest : List Demand) (b : State)

@[simp] theorem accept_fields :
    (accept q w rest b).issuer = q ∧ (accept q w rest b).demands = rest ∧ (accept q w rest b).window = b.window ∧
    (accept q w rest b).inoperative = b.inoperative ∧ (accept q w rest b).locks = b.locks ∧
    (accept q w rest b).ias = b.ias ∧ (accept q w rest b).ports = b.ports.modify q (·.latch w) ∧
    (accept q w rest b).destroyed = b.destroyed ∧ (accept q w rest b).agenda = b.agenda ∧
    (accept q w rest b).bus = b.bus :=
  ⟨rfl, rfl, rfl, rfl, rfl, rfl, rfl, rfl, rfl, rfl⟩

theorem req_accept (hq : q < b.ports.length) : ((accept q w rest b).ports[q]?).map Port.req = some w := by
  simp [List.getElem?_eq_getElem hq, Port.latch]

theorem ports_accept_ne {r : Nat} (hr : r ≠ q) : (accept q w rest b).ports[r]? = b.ports[r]? :=
  State.ports_modifyPort_ne b q _ hr

/-- Latching the request word starts nothing. -/
theorem flightOf_accept (r : Nat) : (accept q w rest b).flightOf r = b.flightOf r := by
  have h : (accept q w rest b).flightOf r = (b.modifyPort q (·.latch w)).flightOf r := rfl
  rw [h, State.flightOf_modifyPort]
  split
  · next e => subst e; rfl
  · rfl

end Accept

/-- Settles O4: the step is `runRequest`, which runs the decoded instruction (`runRequest_of_decode`); an idle port has
nothing to settle; and `accept` changes `REQ` of its port, the issuer and the demands. -/
theorem stepRunsDecodedInstruction : Obligations.StepRunsDecodedInstruction := by
  intro s q w rest i hdem hd hq hw
  refine ⟨(step_request hdem).trans (runRequest_of_decode hd hq hw rest), settle_of_idle, fun b => ?_⟩
  obtain ⟨hissuer, hdemands, hwindow, hinop, hlocks, hias, -, hdest, hagenda, hbus⟩ := accept_fields q w rest b
  exact ⟨hissuer, hdemands, req_accept q w rest b, fun _ => ports_accept_ne q w rest b, flightOf_accept q w rest b,
    hwindow, hinop, hlocks, hias, hdest, hagenda, hbus⟩

end Sys2Proof.Machine
end

section
/-! PROOFS, family 20_memory, the registers: what a read of each register of the window shows and what a write to it
changes (O41 to O45), the moves of the window hardware (O46), and that one-bit writes commute (O47). -/

namespace Sys2Proof.Machine

open Sys2Proof.Safety

variable (w : Window)

/-! ### FunctionSelect -/

/-- The bits of FSELi that belong to no pin read as drawn (R28, R52). -/
theorem Window.getLsbD_read_fsel_nonPin (i : Fin 6) (bits : Word) {b : Nat} (h : 30 ≤ b ∨ (i = 5 ∧ 12 ≤ b)) :
    (w.read (.fsel i) bits).getLsbD b = bits.getLsbD b := by
  have hno : ¬(fselPinMask i).getLsbD b = true := by
    rw [getLsbD_fselPinMask, Bool.and_eq_true, decide_eq_true_iff, decide_eq_true_iff]
    omega
  rw [Window.read, getLsbD_withDraw, if_neg hno]

/-- The output latch of a pin that a write changes into Output may become either level (R52, U2). -/
theorem Window.exists_latch_writeFsel {i : Fin 6} {v bits : Word} {p : Nat} (hp : p < 54)
    (h : (w.writeFsel i v bits).func p = outputCode ∧ w.func p ≠ outputCode) (level : Bool) :
    ∃ drawn, (w.writeFsel i v drawn).latch p = level := by
  rw [w.func_writeFsel i v bits hp] at h
  have hlatch (drawn : Word) : (w.writeFsel i v drawn).latch p = drawn.getLsbD (p % 10) := by
    rw [w.latch_writeFsel i v drawn hp, w.func_writeFsel i v drawn hp, if_pos h]
  cases level with
  | false => exact ⟨0, by rw [hlatch, getLsbD_zeroWord]⟩
  | true => exact ⟨BitVec.allOnes 32, by rw [hlatch, BitVec.getLsbD_allOnes, decide_eq_true (by omega)]⟩

/-- Settles O41: the function field of a pin lies among the bits that are stored (`getField_read_fsel`,
`func_writeFsel`), only a pin that changes into Output takes a drawn latch (`latch_writeFsel`), and a write of FSELi
keeps every other part of the window. -/
theorem functionSelectAccess : Obligations.FunctionSelectAccess := by
  intro w i v bits p hp
  exact ⟨w.getField_read_fsel i bits hp, fun _ _ => w.getLsbD_read_fsel_nonPin i bits, w.func_writeFsel i v bits hp,
    fun h => (w.latch_writeFsel i v bits hp).trans (if_neg h), w.exists_latch_writeFsel hp, rfl, rfl, rfl, rfl⟩

/-! ### SetLevel and ClearLevel -/

/-- Settles O42: both registers write the output latches with `writeLevel`, which keeps every other part of the window. -/
theorem levelActionWrites : Obligations.LevelActionWrites := by
  intro w i v bits p hp
  refine ⟨w.latch_writeLevel i v true hp, w.latch_writeLevel i v false hp, fun w' hw' => ?_, rfl, rfl⟩
  simp only [List.mem_cons, List.not_mem_nil, or_false] at hw'
  obtain rfl | rfl := hw' <;> exact ⟨rfl, rfl, rfl, rfl, rfl⟩

/-! ### The registers with one bit a pin -/

/-- Bit `b` of register `i` is that of pin `32 * i + b` (R29). -/
theorem pin_of_bit (i : Fin 2) {b : Nat} (hb : b < 32) : (32 * i.val + b) / 32 = i ∧ (32 * i.val + b) % 32 = b := by
  omega

/-- The bits of LEVi that belong to no pin read as drawn (R55). -/
theorem Window.getLsbD_read_lev_nonPin (i : Fin 2) (bits : Word) {b : Nat} (hb : b < 32) (h : 54 ≤ 32 * i.val + b) :
    (w.read (.lev i) bits).getLsbD b = bits.getLsbD b := by
  have hno : ¬32 * i.val + b < Config.pinCount := Nat.not_lt_of_le h
  simp only [Window.read, getLsbD_packBits, hb, decide_true, Bool.true_and, if_neg hno]

/-- A write of ReadLevel is refused (R55, U5). -/
theorem checkAccess_write_lev (i : Fin 2) : checkAccess (Reg.lev i).offset 4 true = .error .readLevelWrite := by
  have ho := Reg.ofOffset_offset (.lev i)
  rw [checkAccess, if_neg (by simp [ofOffset_aligned ho]), ho]
  rfl

/-- Settles O43: a pin's bit shows its level (`getLsbD_read_lev`), which `pinLevel` takes from its function. -/
theorem readLevelAccess : Obligations.ReadLevelAccess := by
  refine fun w i bits => ⟨fun b hb => ?_, checkAccess_write_lev i⟩
  split
  · next h => exact w.getLsbD_read_lev_nonPin i bits hb h
  · next h =>
    obtain ⟨hdiv, hmod⟩ := pin_of_bit i hb
    have hlevel := w.getLsbD_read_lev i bits (Nat.lt_of_not_le h) hdiv
    rw [hmod] at hlevel
    exact hlevel

/-- A register of one bit a pin reads as stored in its pin bits, and as drawn in the others (R56, R57). -/
theorem getLsbD_withDraw_bitPinMask (stored bits : Word) (i : Fin 2) {b : Nat} (hb : b < 32) :
    (withDraw stored (bitPinMask i) bits).getLsbD b =
      if 32 * i.val + b < 54 then stored.getLsbD b else bits.getLsbD b := by
  rw [getLsbD_withDraw, getLsbD_bitPinMask, decide_eq_true hb, Bool.true_and]
  simp only [decide_eq_true_eq]

/-- The mask of such a register keeps the bit of each of its pins (R29). -/
theorem getLsbD_and_bitPinMask (v : Word) {i : Fin 2} {p : Nat} (hp : p < 54) (hi : p / 32 = i) :
    (v &&& bitPinMask i).getLsbD (p % 32) = v.getLsbD (p % 32) := by
  have hin : 32 * i.val + p % 32 < 54 := by omega
  have h32 : p % 32 < 32 := Nat.mod_lt _ (by omega)
  simp [getLsbD_bitPinMask, hin, h32]

theorem Window.pending_bit (i : Fin 2) {b : Nat} (hb : b < 32) :
    w.pending (32 * i + b) = (w.edsAt i).getLsbD b := by
  obtain ⟨hdiv, hmod⟩ := pin_of_bit i hb
  rw [Window.pending, hdiv, hmod]

theorem Window.rising_bit (i : Fin 2) {b : Nat} (hb : b < 32) :
    w.rising (32 * i + b) = (w.renAt i).getLsbD b := by
  obtain ⟨hdiv, hmod⟩ := pin_of_bit i hb
  rw [Window.rising, hdiv, hmod]

theorem Window.falling_bit (i : Fin 2) {b : Nat} (hb : b < 32) :
    w.falling (32 * i + b) = (w.fenAt i).getLsbD b := by
  obtain ⟨hdiv, hmod⟩ := pin_of_bit i hb
  rw [Window.falling, hdiv, hmod]

/-- A write of EDSi clears the latches of its pins whose bit is 1, and no other (R56). -/
theorem Window.pending_write_eds_word (i : Fin 2) (v bits : Word) (p : Nat) :
    (w.write (.eds i) v bits).pending p = (w.pending p && !(decide (p / 32 = i) && v.getLsbD (p % 32))) := by
  have h32 : p % 32 < 32 := Nat.mod_lt _ (by omega)
  rw [Window.write, Window.pending, Window.edsAt_set]
  split
  · next h => simp [Window.pending, h, h32]
  · next h => simp [Window.pending, h]

/-- Settles O44: the latches are the pin bits of EDSi, and a write of EDSi writes that register alone. -/
theorem eventStatusAccess : Obligations.EventStatusAccess := by
  refine fun w i v bits => ⟨fun b hb => ?_, fun p _ => w.pending_write_eds_word i v bits p, rfl⟩
  rw [w.pending_bit i hb]
  exact getLsbD_withDraw_bitPinMask _ bits i hb

/-- A write of RENi stores the bit of each of its pins (R57). -/
theorem Window.rising_write_ren (i : Fin 2) (v bits : Word) {p : Nat} (hp : p < 54) :
    (w.write (.ren i) v bits).rising p = if p / 32 = i then v.getLsbD (p % 32) else w.rising p := by
  rw [Window.write, Window.rising, Window.renAt_set]
  split
  · next h => exact getLsbD_and_bitPinMask v hp h
  · rfl

/-- A write of FENi stores the bit of each of its pins (R57). -/
theorem Window.falling_write_fen (i : Fin 2) (v bits : Word) {p : Nat} (hp : p < 54) :
    (w.write (.fen i) v bits).falling p = if p / 32 = i then v.getLsbD (p % 32) else w.falling p := by
  rw [Window.write, Window.falling, Window.fenAt_set]
  split
  · next h => exact getLsbD_and_bitPinMask v hp h
  · rfl

/-- Settles O45: the enables are the pin bits of RENi and FENi, and a write of either writes that register alone. -/
theorem edgeEnableAccess : Obligations.EdgeEnableAccess := by
  refine fun w i v bits => ⟨fun b hb => ?_, fun p hp => ⟨w.rising_write_ren i v bits hp,
    w.falling_write_fen i v bits hp⟩, rfl, rfl⟩
  rw [w.rising_bit i hb, w.falling_bit i hb]
  exact ⟨getLsbD_withDraw_bitPinMask _ bits i hb, getLsbD_withDraw_bitPinMask _ bits i hb⟩

/-! ### The window hardware -/

/-- A level change gives its pin the level and leaves every other level (R59 step 1). -/
theorem Window.external_changeLevel {p k : Nat} (v : Bool) (hp : p < 54) (hk : k < 54) :
    (w.changeLevel p v).external k = if k = p then v else w.external k := by
  obtain ⟨e, h⟩ | ⟨-, -, m, rfl, e⟩ := w.changeLevel_cases p v
  · have hv : w.external p = v := h.resolve_left (Nat.not_le_of_lt hp)
    rw [e]
    split
    · next hkp => rw [hkp, hv]
    · rfl
  · have hext : (w.changeLevel p v).extLevel = packBits 54 fun k => if k = p then v else w.external k := by
      rw [e]; split <;> rfl
    rw [Window.external, hext, getLsbD_packBits, decide_eq_true hk, Bool.true_and]

/-- A level change that is one latches an enabled edge of its pin, and no latch is cleared (R59 step 1). -/
theorem Window.pending_changeLevel {p : Nat} (v : Bool) (hp : p < 54) (k : Nat) :
    (w.changeLevel p v).pending k =
      (w.pending k || (decide (k = p) && (decide (w.external p ≠ v) && w.edgeLatches p v))) := by
  obtain ⟨e, h⟩ | ⟨-, hv, m, rfl, e⟩ := w.changeLevel_cases p v
  · have hv : w.external p = v := h.resolve_left (Nat.not_le_of_lt hp)
    simp [e, hv]
  · rw [e, decide_eq_true hv, Bool.true_and]
    split
    · next hl => rw [Window.pending_setPending _ hp, hl, Bool.and_true]; rfl
    · next hl => rw [Bool.eq_false_of_not_eq_true hl, Bool.and_false, Bool.or_false]; rfl

theorem Window.otherEvent_eq {p : Nat} (hp : p < 54) : w.otherEvent p = w.setPending p := if_pos hp

/-- The parts of the window that no move of its hardware changes (R59). -/
theorem hardware_keeps_stored {m : Move} (h : hardwareMove m = true) (s : State) :
    (makeMove m s).window.ren = s.window.ren ∧ (makeMove m s).window.fen = s.window.fen ∧
    (makeMove m s).ias = s.ias ∧ (makeMove m s).bus = s.bus := by
  cases m with
  | advance r => cases h
  | request r x => cases h
  | level p v =>
    have hw : (s.window.changeLevel p v).ren = s.window.ren ∧ (s.window.changeLevel p v).fen = s.window.fen := by
      obtain ⟨e, -⟩ | ⟨-, -, m, rfl, e⟩ := s.window.changeLevel_cases p v <;> rw [e]
      · exact ⟨rfl, rfl⟩
      · split <;> exact ⟨rfl, rfl⟩
    exact ⟨hw.1, hw.2, rfl, rfl⟩
  | event p =>
    have hw : (s.window.otherEvent p).ren = s.window.ren ∧ (s.window.otherEvent p).fen = s.window.fen := by
      unfold Window.otherEvent
      split <;> exact ⟨rfl, rfl⟩
    exact ⟨hw.1, hw.2, rfl, rfl⟩
  | redraw => exact ⟨rfl, rfl, rfl, rfl⟩

/-- Settles O46: a level move is `changeLevel`, an event `setPending`, and what they leave is said by `hardware_keeps`
and `hardware_keeps_stored`. -/
theorem hardwareSteps : Obligations.HardwareSteps := by
  intro s p v hp
  have hevent : (makeMove (.event p) s).window = s.window.setPending p := s.window.otherEvent_eq hp
  refine ⟨fun k hk => s.window.external_changeLevel v hp hk, fun k _ => s.window.pending_changeLevel v hp k,
    fun k _ => ?_, by rw [hevent]; rfl, rfl, fun m hm => ?_⟩
  · rw [hevent]; exact s.window.pending_setPending hp k
  · obtain ⟨hfsel, hlatch, hports, hlocks, hinop, -, -⟩ := hardware_keeps hm s
    obtain ⟨hren, hfen, hias, hbus⟩ := hardware_keeps_stored hm s
    exact ⟨hfsel, hren, hfen, hlatch, hports, hlocks, hias, hinop, hbus⟩

/-! ### One-bit writes commute -/

/-- Two windows that differ at most in their output latches are equal if each pin has the same one. -/
theorem Window.ext_latch {a b : Window} (h : a = { b with outLatch := a.outLatch })
    (hl : ∀ k, k < 54 → a.latch k = b.latch k) : a = b := by
  have ho : a.outLatch = b.outLatch := BitVec.eq_of_getLsbD_eq hl
  rw [h, ho]

/-- The one-bit level write of pin `p` sets the latch of that pin, if it is an Output, and no other (R53, R54). -/
theorem Window.latch_writeLevel_oneBit {p k : Nat} (level : Bool) (hp : p < 54) (hk : k < 54) :
    (w.writeLevel (Fin.ofNat 2 (p / 32)) (oneBit (p % 32)) level).latch k =
      if k = p ∧ w.func p = outputCode then level else w.latch k := by
  by_cases hkp : k = p
  · subst hkp
    by_cases hf : w.func k = outputCode
    · rw [w.latch_writeLevel_own level hk hf, if_pos ⟨rfl, hf⟩]
    · rw [w.latch_writeLevel _ _ _ hk, if_neg (fun h => hf h.2.2), if_neg (fun h => hf h.2)]
  · rw [w.latch_writeLevel_other level hp hk hkp, if_neg (fun h => hkp h.1)]

/-- Level writes of two pins commute: each sets the latch of its own pin (R67). -/
theorem Window.writeLevel_comm {p p' : Nat} (hp : p < 54) (hp' : p' < 54) (hne : p ≠ p') (level level' : Bool) :
    (w.writeLevel (Fin.ofNat 2 (p / 32)) (oneBit (p % 32)) level).writeLevel (Fin.ofNat 2 (p' / 32))
        (oneBit (p' % 32)) level' =
      (w.writeLevel (Fin.ofNat 2 (p' / 32)) (oneBit (p' % 32)) level').writeLevel (Fin.ofNat 2 (p / 32))
        (oneBit (p % 32)) level := by
  refine Window.ext_latch rfl fun k hk => ?_
  simp only [Window.latch_writeLevel_oneBit _ _ hp hk, Window.latch_writeLevel_oneBit _ _ hp' hk,
    Window.func_writeLevel]
  by_cases hkp : k = p
  · have hkp' : k ≠ p' := fun e => hne (hkp.symm.trans e)
    simp only [hkp', false_and, if_false]
  · simp only [hkp, false_and, if_false]

/-- Writes of EventStatus commute: each only clears latches (R67). -/
theorem Window.write_eds_comm (i i' : Fin 2) (v v' bits bits' : Word) :
    (w.write (.eds i) v bits).write (.eds i') v' bits' = (w.write (.eds i') v' bits').write (.eds i) v bits := by
  simp only [Window.write, Window.edsAt_set]
  by_cases h : i = i'
  · subst h
    simp only [if_true, Vector.set_set, BitVec.and_assoc, BitVec.and_comm (~~~v)]
  · have hv : i.val ≠ i'.val := fun e => h (Fin.ext e)
    rw [if_neg hv.symm, if_neg hv, Vector.set_comm _ _ hv]

/-- The registers a one-bit write reaches in these families are written as levels or are EventStatus. -/
theorem write_cases_of_action {f : Family} (hf : f ∈ [Family.setLevel, .clearLevel, .eventStatus]) (p : Nat) :
    (∃ level, ∀ (w : Window) (v bits : Word),
      w.write (pinReg p f) v bits = w.writeLevel (Fin.ofNat 2 (p / 32)) v level) ∨
    pinReg p f = .eds (Fin.ofNat 2 (p / 32)) := by
  simp only [List.mem_cons, List.not_mem_nil, or_false] at hf
  obtain rfl | rfl | rfl := hf
  · exact .inl ⟨true, fun _ _ _ => rfl⟩
  · exact .inl ⟨false, fun _ _ _ => rfl⟩
  · exact .inr rfl

theorem bitOffset_of_action {f : Family} (hf : f ∈ [Family.setLevel, .clearLevel, .eventStatus]) (p : Nat) :
    (location p f).bitOffset = p % 32 :=
  (location_bit p (by rintro rfl; simp at hf)).2.1

/-- What the address function answers for a pin: its location, which lies in its register (R112, R114). -/
theorem addr_reg {p : Nat} (hp : p < 54) {f : Family} {l : Location} {r : Reg} (hl : addr p f = .ok l)
    (hr : Reg.ofOffset l.byteOffset = some r) : l = location p f ∧ r = pinReg p f := by
  rw [addr_valid hp] at hl
  cases hl
  rw [ofOffset_location hp] at hr
  exact ⟨rfl, (Option.some.inj hr).symm⟩

/-- Settles O47: level writes touch the output latches of their own pins, EventStatus writes the pending latches, and
neither reads what the other writes. -/
theorem oneBitWritesCommute : Obligations.OneBitWritesCommute := by
  intro w f f' p p' l l' r r' bits bits' hf hf' hp hp' hne hl hl' hr hr'
  obtain ⟨rfl, rfl⟩ := addr_reg hp hl hr
  obtain ⟨rfl, rfl⟩ := addr_reg hp' hl' hr'
  rw [bitOffset_of_action hf, bitOffset_of_action hf']
  obtain ⟨level, h⟩ | h := write_cases_of_action hf p <;>
    obtain ⟨level', h'⟩ | h' := write_cases_of_action hf' p' <;> simp only [h, h']
  · exact w.writeLevel_comm hp hp' hne level level'
  · rfl
  · rfl
  · exact w.write_eds_comm _ _ _ _ bits bits'

end Sys2Proof.Machine
end

section
/-! PROOFS, family 20_memory, the bus and the locks: reads change nothing (O40), failed transactions (O21), refused
accesses (O48), taking a lock (O52) and the absence of deadlock (O53). -/

namespace Sys2Proof.Machine

open Sys2Proof.Safety

/-! ### Transactions and accesses -/

/-- A read at any offset makes its transaction, or, where none can be formed, does nothing. -/
theorem memRead_state (q off : Nat) (s : State) :
    (memRead q off s).2 = s ∨ ∃ x, (memRead q off s).2 = s.afterRead q off x := by
  unfold memRead
  split
  · exact .inr ⟨_, rfl⟩
  · exact .inl rfl

/-- Settles O40: a read leaves the state as it was, but for the draw it takes and its record (`memRead_state`). -/
theorem readsChangeNothing : Obligations.ReadsChangeNothing := by
  intro q off s
  obtain h | ⟨x, h⟩ := memRead_state q off s <;> (rw [h]; exact ⟨rfl, rfl, rfl, rfl, rfl⟩)

/-- Settles O21, by what a read and a write at a location answer (`memRead_location`, `memWrite_location`). -/
theorem failedTransaction : Obligations.FailedTransaction := by
  intro s q p f v l r hp hl hr herr
  obtain ⟨rfl, rfl⟩ := addr_reg hp hl hr
  rw [memRead_location hp, if_pos herr]
  refine ⟨rfl, rfl, fun hf => ?_⟩
  rw [memWrite_location hp hf]
  refine ⟨by rw [herr]; rfl, by simp [herr], ?_⟩
  simp only [State.afterWrite_fields, State.windowAfter, herr, true_and]
  cases (s.drawAt 0).took <;> rfl

/-- An aligned access to an offset the table does not list is refused (R76, R7, U17, U11). -/
theorem checkAccess_unlisted {off : Nat} (ha : off % 4 = 0) (h : Reg.ofOffset off = none) (isWrite : Bool) :
    checkAccess off 4 isWrite = .error (if off < Config.windowBytes then .unlistedOffset else .outsideWindow) := by
  rw [checkAccess, if_neg (by simp [ha]), h]
  exact (apply_ite Except.error _ _ _).symm

/-- The table lists no offset from 0x60 on (R26). -/
theorem ofOffset_of_ge {off : Nat} (h : 0x60 ≤ off) : Reg.ofOffset off = none := by
  unfold Reg.ofOffset
  split <;> simp_all

/-- Settles O48: `checkAccess` refuses what is no aligned word, what the table does not list and a write of ReadLevel, and
every offset of `addr` is in the table (`checkAccess_location`). -/
theorem accessRefusals : Obligations.AccessRefusals := by
  refine ⟨fun off width isWrite h => if_pos h, fun off isWrite h => ?_,
    fun off isWrite ha h => checkAccess_unlisted ha (ofOffset_of_ge h) isWrite, fun off h => ?_,
    fun p f l isWrite hp hl hw => ?_⟩
  · obtain ⟨hfree, ha, hlt⟩ : Reg.ofOffset off = none ∧ off % 4 = 0 ∧ off < 0x60 := by
      revert off; decide
    have hin : off < Config.windowBytes := Nat.lt_of_lt_of_le hlt (Nat.le_add_left _ _)
    rw [checkAccess_unlisted ha hfree, if_pos hin]
  · simp only [List.mem_cons, List.not_mem_nil, or_false] at h
    obtain rfl | rfl := h
    · exact checkAccess_write_lev 0
    · exact checkAccess_write_lev 1
  · rw [addr_valid hp] at hl
    cases hl
    exact ⟨_, ofOffset_location hp f, checkAccess_location hp f isWrite fun hwr hf => by
      rw [hw hf] at hwr; cases hwr⟩

/-! ### Locks -/

/-- Settles O52, by the step that acquires a lock, held (`advance_acquire_held`) and free (`advance_acquire`). -/
theorem lockAcquire : Obligations.LockAcquire := by
  refine fun s q g rest temp hf => ⟨fun r => advance_acquire_held hf, fun hfree h => ?_⟩
  rw [advance_acquire hf hfree]
  refine ⟨?_, by simp [hf], rfl, rfl⟩
  simp only [State.setTodo_fields, State.setLock_fields, Locks.holder_assign, eq_comm]

/-- No operation holds two locks (R65). -/
theorem holder_unique {s : State} (hI : Inv s) {q : Nat} {g g' : LockFamily} (hg : s.locks.holder g = some q)
    (hg' : s.locks.holder g' = some q) : g = g' := by
  obtain ⟨f, hf⟩ := (s.inFlight_iff q).1 (hI.holders g q hg)
  obtain ⟨h, -, hl⟩ := hI.sequence q f hf
  exact Option.some.inj (((hl g).1 hg).symm.trans ((hl g').1 hg'))

/-- No operation waits for itself. -/
theorem blocker_ne {s : State} (hI : Inv s) {q r : Nat} (hb : blocker q s = some r) : r ≠ q := by
  unfold blocker at hb
  split at hb
  · cases hb
  · next f hf =>
    obtain ⟨todo, temp⟩ := f
    cases todo with
    | nil => cases hb
    | cons a rest => exact (act_held hI hf hb).2

/-- An operation in flight that waits for nothing changes the state with its step, since it uses up fuel. -/
theorem advance_ne {s : State} (hI : Inv s) {r : Nat} (hr : s.inFlight r = true) (hb : blocker r s = none) :
    advance r s ≠ s := by
  intro h
  have hlt := potential_advance_lt hI hr hb
  rw [h] at hlt
  exact Nat.lt_irrefl _ hlt

/-- Settles O53: an operation holds the one lock of its position, and one that another waits for is past its waits
(`blocker_runs`). -/
theorem noDeadlock : Obligations.NoDeadlock := by
  refine fun s hI => ⟨fun q g g' => holder_unique hI, fun q g => hI.holders g q, fun q r hb => ?_⟩
  obtain ⟨hr, hbr⟩ := blocker_runs hI hb
  exact ⟨blocker_ne hI hb, hr, hbr, advance_ne hI hr hbr⟩

end Sys2Proof.Machine
end

section
/-! PROOFS, family 30_encoding, the decoder and the encoder: what each `OP` decodes to, that the decoder reads what
the encoder writes (O7), that what decodes is well-formed (O8), sample words (O3) and the ignored fields (O6). -/

namespace Sys2Proof

variable {w : Word}

/-! ### What a word decodes to, by its `OP` -/

theorem decodeWord_addr (h : reqOp w = 0) : decodeWord w = .ok (.addr (reqPin w) (reqArg w)) := by
  simp only [decodeWord, h]

theorem decodeWord_ack (h : reqOp w = 1) : decodeWord w = .ok .ack := by
  simp only [decodeWord, h]

theorem decodeWord_cfgOut (h : reqOp w = 2) : decodeWord w = .ok (.cfgOut (reqPin w) (reqArg w)) := by
  simp only [decodeWord, h]

theorem decodeWord_cfgIn (h : reqOp w = 3) : decodeWord w = .ok (.cfgIn (reqPin w)) := by
  simp only [decodeWord, h]

theorem decodeWord_edgeEn (h : reqOp w = 4) : decodeWord w = .ok (.edgeEn (reqPin w) (reqArg w)) := by
  simp only [decodeWord, h]

theorem decodeWord_edgeDis (h : reqOp w = 5) : decodeWord w = .ok (.edgeDis (reqPin w)) := by
  simp only [decodeWord, h]

theorem decodeWord_query (h : reqOp w = 6) : decodeWord w = .ok (.query (reqPin w)) := by
  simp only [decodeWord, h]

/-- A reserved `OP` decodes to no operation (R82). -/
theorem decodeWord_reserved (h : 7 ≤ reqOp w) : decodeWord w = .error (.reservedOp (reqOp w)) := by
  unfold decodeWord
  split <;> first | rfl | omega

/-- Every `OP` below 7 decodes to an operation (R81). -/
theorem decodeWord_ok_of_lt (h : reqOp w < 7) : ∃ i, decodeWord w = .ok i := by
  have hop : reqOp w = 0 ∨ reqOp w = 1 ∨ reqOp w = 2 ∨ reqOp w = 3 ∨ reqOp w = 4 ∨ reqOp w = 5 ∨ reqOp w = 6 := by
    omega
  obtain h | h | h | h | h | h | h := hop
  exacts [⟨_, decodeWord_addr h⟩, ⟨_, decodeWord_ack h⟩, ⟨_, decodeWord_cfgOut h⟩, ⟨_, decodeWord_cfgIn h⟩,
    ⟨_, decodeWord_edgeEn h⟩, ⟨_, decodeWord_edgeDis h⟩, ⟨_, decodeWord_query h⟩]

/-- A word that decodes has an `OP` of 0 to 6, and decodes to what that `OP` says. -/
theorem decodeWord_ok_cases {i : Instr} (h : decodeWord w = .ok i) :
    (reqOp w = 0 ∧ i = .addr (reqPin w) (reqArg w)) ∨ (reqOp w = 1 ∧ i = .ack) ∨
    (reqOp w = 2 ∧ i = .cfgOut (reqPin w) (reqArg w)) ∨ (reqOp w = 3 ∧ i = .cfgIn (reqPin w)) ∨
    (reqOp w = 4 ∧ i = .edgeEn (reqPin w) (reqArg w)) ∨ (reqOp w = 5 ∧ i = .edgeDis (reqPin w)) ∨
    (reqOp w = 6 ∧ i = .query (reqPin w)) := by
  unfold decodeWord at h
  split at h <;> cases h <;> simp [*]

/-- The words that do not decode are those with a reserved `OP` (R82, R88). -/
theorem decodeWord_error_iff : (∃ e, decodeWord w = .error e) ↔ 7 ≤ reqOp w := by
  refine ⟨fun ⟨e, he⟩ => ?_, fun h => ⟨_, decodeWord_reserved h⟩⟩
  by_contra hlt
  obtain ⟨i, hi⟩ := decodeWord_ok_of_lt (Nat.lt_of_not_le hlt)
  rw [hi] at he
  cases he

/-! ### Decoding what was encoded -/

/-- The fields of `makeRequest`, the pin too, where the operands fit them (R80, R99). -/
theorem makeRequest_fields_of_fits {op arg : Nat} {pin : Int} (ho : op < 256) (ha : argFits arg = true)
    (hp : pinFits pin = true) :
    reqOp (makeRequest op arg pin) = op ∧ reqArg (makeRequest op arg pin) = arg ∧
    reqPin (makeRequest op arg pin) = pin := by
  have h := makeRequest_fields pin ho (Laws.OpcodeByte.arg_lt ha)
  rwa [toInt_ofInt_pin hp] at h

/-- Settles O7, one case per operation: its word has the fields it was made from (`makeRequest_fields_of_fits`), and
the `OP` selects the same operation again. -/
theorem decodeEncode : Obligations.DecodeEncode := by
  intro i h
  cases i with
  | addr pin family =>
    obtain ⟨hp, ha⟩ := Bool.and_eq_true_iff.1 h
    obtain ⟨hop, harg, hpin⟩ := makeRequest_fields_of_fits (op := 0) (by omega) ha hp
    rw [encode, decodeWord_addr hop, harg, hpin]
  | ack => exact decodeWord_ack (makeRequest_fields 0 (by omega) (by omega)).1
  | cfgOut pin level =>
    obtain ⟨hp, ha⟩ := Bool.and_eq_true_iff.1 h
    obtain ⟨hop, harg, hpin⟩ := makeRequest_fields_of_fits (op := 2) (by omega) ha hp
    rw [encode, decodeWord_cfgOut hop, harg, hpin]
  | cfgIn pin =>
    obtain ⟨hop, -, hpin⟩ := makeRequest_fields_of_fits (op := 3) (arg := 0) (by omega) rfl h
    rw [encode, decodeWord_cfgIn hop, hpin]
  | edgeEn pin edge =>
    obtain ⟨hp, ha⟩ := Bool.and_eq_true_iff.1 h
    obtain ⟨hop, harg, hpin⟩ := makeRequest_fields_of_fits (op := 4) (by omega) ha hp
    rw [encode, decodeWord_edgeEn hop, harg, hpin]
  | edgeDis pin =>
    obtain ⟨hop, -, hpin⟩ := makeRequest_fields_of_fits (op := 5) (arg := 0) (by omega) rfl h
    rw [encode, decodeWord_edgeDis hop, hpin]
  | query pin =>
    obtain ⟨hop, -, hpin⟩ := makeRequest_fields_of_fits (op := 6) (arg := 0) (by omega) rfl h
    rw [encode, decodeWord_query hop, hpin]

/-! ### Encoding what was decoded -/

theorem reqOp_lt (w : Word) : reqOp w < 256 := (w.extractLsb' 0 8).isLt

theorem argFits_reqArg (w : Word) : argFits (reqArg w) = true := decide_eq_true (w.extractLsb' 8 8).isLt

theorem pinFits_reqPin (w : Word) : pinFits (reqPin w) = true := by
  have hle := BitVec.le_toInt (w.extractLsb' 16 16)
  have hlt := BitVec.toInt_lt (x := w.extractLsb' 16 16)
  exact Bool.and_eq_true_iff.2 ⟨decide_eq_true hle, decide_eq_true (Int.le_of_lt_add_one hlt)⟩

/-- A word is made of its three fields (R80). -/
theorem makeRequest_req (w : Word) : makeRequest (reqOp w) (reqArg w) (reqPin w) = w := by
  rw [makeRequest, reqOp, reqArg, reqPin, BitVec.ofInt_toInt, BitVec.ofNat_toNat, BitVec.ofNat_toNat,
    BitVec.setWidth_eq, BitVec.setWidth_eq]
  apply BitVec.eq_of_getLsbD_eq
  intro i hi
  simp only [BitVec.getLsbD_append, BitVec.getLsbD_extractLsb']
  by_cases h8 : i < 8
  · simp [h8, show i < 16 by omega]
  · by_cases h16 : i < 16
    · simp [h8, h16, show i - 8 < 8 by omega, show 8 + (i - 8) = i by omega]
    · simp [h16, show i - 16 < 16 by omega, show 16 + (i - 16) = i by omega]

/-- What decodes is well-formed: every field is read from bits that hold it. -/
theorem wellFormed_of_decodeWord {i : Instr} (h : decodeWord w = .ok i) : i.wellFormed = true := by
  obtain ⟨-, rfl⟩ | ⟨-, rfl⟩ | ⟨-, rfl⟩ | ⟨-, rfl⟩ | ⟨-, rfl⟩ | ⟨-, rfl⟩ | ⟨-, rfl⟩ := decodeWord_ok_cases h <;>
    simp [Instr.wellFormed, pinFits_reqPin, argFits_reqArg]

/-- The word that a decoded instruction encodes to: the `OP` it was decoded from, and the `PIN` and `ARG` where the
operation uses them (R83, R99). -/
theorem encode_of_decodeWord {i : Instr} (h : decodeWord w = .ok i) :
    ∃ arg pin, encode i = makeRequest (reqOp w) arg pin ∧ argFits arg = true ∧ (reqOp w ≠ 1 → pin = reqPin w) ∧
      ((reqOp w = 0 ∨ reqOp w = 2 ∨ reqOp w = 4) → arg = reqArg w) := by
  obtain ⟨ho, rfl⟩ | ⟨ho, rfl⟩ | ⟨ho, rfl⟩ | ⟨ho, rfl⟩ | ⟨ho, rfl⟩ | ⟨ho, rfl⟩ | ⟨ho, rfl⟩ := decodeWord_ok_cases h <;>
    rw [ho]
  · exact ⟨_, _, rfl, argFits_reqArg w, fun _ => rfl, fun _ => rfl⟩
  · exact ⟨0, 0, rfl, rfl, fun hne => absurd rfl hne, by omega⟩
  · exact ⟨_, _, rfl, argFits_reqArg w, fun _ => rfl, fun _ => rfl⟩
  · exact ⟨0, _, rfl, rfl, fun _ => rfl, by omega⟩
  · exact ⟨_, _, rfl, argFits_reqArg w, fun _ => rfl, fun _ => rfl⟩
  · exact ⟨0, _, rfl, rfl, fun _ => rfl, by omega⟩
  · exact ⟨0, _, rfl, rfl, fun _ => rfl, by omega⟩

/-- Settles O8: `decodeWord_error_iff` says which words decode, and what they decode to encodes to the fields that the
operation uses (`encode_of_decodeWord`), which with an `ARG` are the whole word (`makeRequest_req`). -/
theorem decodedIsWellFormed : Obligations.DecodedIsWellFormed := by
  refine fun w => ⟨decodeWord_error_iff.symm, fun i h => ⟨wellFormed_of_decodeWord h, ?_⟩⟩
  obtain ⟨arg, pin, henc, harg, hpin, hused⟩ := encode_of_decodeWord h
  rw [henc]
  refine ⟨(makeRequest_fields pin (reqOp_lt w) (Laws.OpcodeByte.arg_lt harg)).1, fun hne => ?_, fun ho => ?_⟩
  · rw [hpin hne]
    exact (makeRequest_fields_of_fits (reqOp_lt w) harg (pinFits_reqPin w)).2.2
  · rw [hused ho, hpin (by omega), makeRequest_req]

/-! ### Sample words, and ignored fields -/

/-- Settles O3: nine words, each decoded by evaluation. -/
theorem sampleRequestWordsDecode : Obligations.SampleRequestWordsDecode := by
  unfold Obligations.SampleRequestWordsDecode
  decide

/-- Settles O6: the decoded instruction of these operations holds the `OP` and the `PIN` only. -/
theorem ignoredFields : Obligations.IgnoredFields := by
  refine fun w w' hop => ⟨fun h => ⟨decodeWord_ack h, decodeWord_ack (hop ▸ h)⟩, fun h hpin => ?_⟩
  obtain h | h | h := h
  · rw [decodeWord_cfgIn h, decodeWord_cfgIn (hop ▸ h), hpin]
  · rw [decodeWord_edgeDis h, decodeWord_edgeDis (hop ▸ h), hpin]
  · rw [decodeWord_query h, decodeWord_query (hop ▸ h), hpin]

end Sys2Proof
end

section
/-! PROOFS, family 30_encoding, the responses: a reserved `OP` completes with UnknownCommand (O5), the statuses an
operation ends with (O18), the function codes (O12), the command vocabulary (O59) and the texts of a QUERY (O60). -/

namespace Sys2Proof.Machine

open Sys2Proof.Safety

/-! ### A reserved `OP` -/

/-- An operation that runs alone and has nothing but a response to give completes with it and does nothing else. -/
theorem perform_respond {s : State} (h : Ready s) (ha : s.agenda = []) (r0 r1 : Word) :
    ∃ t, perform [.respond r0 r1] s = .next t ∧ Completed s t r0 r1 ∧ NothingDone s t :=
  ⟨_, perform_alone h 1 (by simp [stepsWeight, actionWeight]) (drive_respond ha h.issuer 0 r0 r1),
    completed_ended h.issuer rfl r0 r1, rfl, rfl, rfl, rfl⟩

theorem requestSteps_reserved {w : Word} (h : 7 ≤ reqOp w) : requestSteps w = unknownSteps := by
  rw [requestSteps, decodeWord_reserved h]

theorem ready_accept {s : State} {q : Nat} (hd : s.destroyed = false) (hq : q < s.ports.length)
    (hidle : s.inFlight q = false) (w : Word) (rest : List Demand) : Ready (accept q w rest s) := by
  refine ⟨hd, by simpa using hq, ?_⟩
  rw [State.inFlight_false] at hidle ⊢
  exact (flightOf_accept q w rest s q).trans hidle

/-- Settles O5: the sequence of such a word is the response UnknownCommand alone (`requestSteps_reserved`,
`perform_respond`). -/
theorem reservedOpCompletesUnknown : Obligations.ReservedOpCompletesUnknown := by
  intro s q w rest hdem hd hq hidle ha hop
  obtain ⟨t, ht, hcomp, hnothing⟩ :=
    perform_respond (ready_accept hd hq hidle w rest) ha (errorResponse .unknownCommand) 0
  refine ⟨t, ?_, hcomp, hnothing.window, hnothing.inoperative, hnothing.scanner, hnothing.bus⟩
  rw [step_request hdem, runRequest_perform hd hq, requestSteps_reserved hop, settle_of_idle hidle]
  exact ht

/-! ### The status of a response word -/

@[simp] theorem respStatus_or (a b : Word) : respStatus (a ||| b) = respStatus a ||| respStatus b := by
  simp [respStatus, BitVec.extractLsb'_or]

/-- A result field stands above the status (R91 to R93). -/
theorem respStatus_shiftLeft (x : Word) {n : Nat} (h : 8 ≤ n) : respStatus (x <<< n) = 0 := by
  have h0 : (x <<< n).extractLsb' 0 8 = 0#8 := by
    apply BitVec.eq_of_getLsbD_eq
    intro i hi
    simp [show i < n by omega]
  rw [respStatus, h0]; rfl

@[simp] theorem respStatus_code (st : Status) : respStatus st.code = st.code.toNat := by cases st <;> rfl

theorem respStatus_addrResponse (regIndex byteOffset bitOffset width : Nat) :
    respStatus (addrResponse regIndex byteOffset bitOffset width) = 0 := by
  simp [addrResponse, respStatus_shiftLeft, Status.code]

theorem respStatus_ackResponse (index : Nat) : respStatus (ackResponse index) = 0 := by
  simp [ackResponse, respStatus_shiftLeft, Status.code]

theorem respStatus_queryIoResponse (func level : Word) : respStatus (queryIoResponse func level) = 0 := by
  simp only [queryIoResponse, respStatus_or, respStatus_code]
  rw [respStatus_shiftLeft _ (by omega), respStatus_shiftLeft _ (by omega), respStatus_shiftLeft _ (by omega)]
  rfl

theorem respStatus_queryAltResponse (func : Word) : respStatus (queryAltResponse func) = 0 := by
  simp [queryAltResponse, respStatus_shiftLeft, Status.code]

/-- The one error of the address function (R112). -/
theorem addr_eq_error {pin : Int} {f : Family} {st : Status} (h : addr pin f = .error st) : st = .invalidPin := by
  rw [addr] at h
  split at h <;> cases h
  rfl

/-! ### The statuses an operation ends with -/

/-- The response words carry one of the statuses `l`, and with an error nothing else (R95). -/
def Answers (l : List Status) (r0 r1 : Word) : Prop :=
  ∃ st ∈ l, respStatus r0 = st.code.toNat ∧ (st ≠ .ok → r0 = st.code ∧ r1 = 0)

/-- Every response that the step `a`, or a step put in its place, can lead to carries one of the statuses `l`. -/
def AnswersAfter (l : List Status) : Action → Prop
  | .check _ bad => .registerAccessFailure ∈ l ∧ .invalidPin ∈ l ∧ ∀ st, bad = some st → st ∈ l
  | .acquire _ | .release _ => True
  | .readField _ _ | .writeField _ _ _ | .writeOne _ _ => .registerAccessFailure ∈ l ∧ .invalidPin ∈ l
  | .queryFunction _ | .queryLevel _ _ => .ok ∈ l ∧ .registerAccessFailure ∈ l ∧ .invalidPin ∈ l
  | .claimScanner | .scanLow | .scanHigh | .scanClear | .respondScan _ => .ok ∈ l
  | .respond r0 r1 => Answers l r0 r1

variable {l : List Status}

theorem Answers.of_ok {r0 r1 : Word} (hl : .ok ∈ l) (h : respStatus r0 = 0) : Answers l r0 r1 :=
  ⟨.ok, hl, h, fun hne => absurd rfl hne⟩

/-- Every step of the sequence, and whatever is put in its place, answers with one of the statuses `l`. -/
def SequenceAnswers (l : List Status) (todo : List Action) : Prop := ∀ a ∈ todo, AnswersAfter l a

theorem SequenceAnswers.single {a : Action} (h : AnswersAfter l a) : SequenceAnswers l [a] :=
  List.forall_mem_singleton.2 h

theorem SequenceAnswers.cons {a : Action} {rest : List Action} (h : AnswersAfter l a)
    (hrest : SequenceAnswers l rest) : SequenceAnswers l (a :: rest) :=
  List.forall_mem_cons.2 ⟨h, hrest⟩

theorem SequenceAnswers.append {todo rest : List Action} (h : SequenceAnswers l todo)
    (hrest : SequenceAnswers l rest) : SequenceAnswers l (todo ++ rest) :=
  List.forall_mem_append.2 ⟨h, hrest⟩

theorem SequenceAnswers.raise {st : Status} (hl : st ∈ l) : SequenceAnswers l [raise st] :=
  .single ⟨st, hl, respStatus_code st, fun _ => ⟨rfl, rfl⟩⟩

theorem SequenceAnswers.respond {r0 r1 : Word} (hl : .ok ∈ l) (h : respStatus r0 = 0) :
    SequenceAnswers l [.respond r0 r1] :=
  .single (Answers.of_ok hl h)

theorem SequenceAnswers.rmw (hf : .registerAccessFailure ∈ l) (hp : .invalidPin ∈ l) (f : LockFamily) (pin : Int)
    (v : Word) : SequenceAnswers l (rmw f pin v) :=
  .cons trivial (.cons ⟨hf, hp⟩ (.cons ⟨hf, hp⟩ (.single trivial)))

/-- A step of a sequence that answers within `l` leads to such a sequence or to a response within `l`. -/
theorem SequenceAnswers.after {a : Action} {rest : List Action} (h : SequenceAnswers l (a :: rest)) :
    After (SequenceAnswers l) (Answers l) a rest := by
  obtain ⟨ha, hrest⟩ := List.forall_mem_cons.1 h
  refine ⟨hrest, ?_, ?_, ?_, ?_, ?_, ?_, ?_⟩
  · rintro pin bad rfl
    obtain ⟨hf, hp, hbad⟩ := ha
    exact ⟨.raise hf, .raise hp, fun st hst => .raise (hbad st hst)⟩
  · have hacc : .registerAccessFailure ∈ l ∧ .invalidPin ∈ l →
        SequenceAnswers l [Machine.raise .registerAccessFailure] ∧ SequenceAnswers l [Machine.raise .invalidPin] :=
      fun ⟨hf, hp⟩ => ⟨.raise hf, .raise hp⟩
    rintro (⟨g, p, rfl⟩ | ⟨g, p, v, rfl⟩ | ⟨f, p, rfl⟩ | ⟨p, rfl⟩ | ⟨p, fn, rfl⟩)
    exacts [hacc ha, hacc ha, hacc ha, hacc ha.2, hacc ha.2]
  · rintro p rfl fn
    exact ⟨.single ha, .respond ha.1 (respStatus_queryAltResponse fn)⟩
  · rintro p fn rfl v
    exact .respond ha.1 (respStatus_queryIoResponse fn v)
  · have hscan : .ok ∈ l → SequenceAnswers l [.scanLow] ∧ SequenceAnswers l [.scanHigh] ∧
        SequenceAnswers l [.scanClear] ∧ ∀ i, SequenceAnswers l [.respondScan i] :=
      fun hl => ⟨.single hl, .single hl, .single hl, fun _ => .single hl⟩
    rintro (rfl | rfl | rfl | rfl) <;> exact hscan ha
  · rintro i rfl
    exact .of_ok ha (respStatus_ackResponse i)
  · rintro r0 r1 rfl
    exact ha

/-- Every configuration operation and QUERY lists these statuses (R135, R137, R139, R141, R143). -/
theorem csq_statuses {i : Instr} {pin : Int} (h : csqPin i = some pin) :
    .ok ∈ statusesOf i ∧ .registerAccessFailure ∈ statusesOf i ∧ .invalidPin ∈ statusesOf i := by
  cases i <;> simp_all [csqPin, statusesOf]

/-- The error of a bad argument is among the statuses of the operation that takes it (R86, R87). -/
theorem csqArgError_mem_statusesOf {i : Instr} {st : Status} (h : csqArgError i = some st) : st ∈ statusesOf i := by
  cases i with
  | cfgOut pin level =>
    rw [csqArgError, levelError] at h
    split at h <;> cases h
    simp [statusesOf]
  | edgeEn pin edge =>
    rw [csqArgError, edgeError] at h
    split at h <;> cases h
    simp [statusesOf]
  | _ => cases h

/-- ADDR answers a location, or one of its two errors (R119). -/
theorem sequenceAnswers_addrSteps (pin : Int) (family : Nat) :
    SequenceAnswers [.ok, .unknownCommand, .invalidPin] (addrSteps pin family) := by
  unfold addrSteps
  split
  · exact .raise (by simp)
  · split
    · next st hst =>
      rw [addr_eq_error hst]
      exact .raise (by simp)
    · exact .respond (by simp) (respStatus_addrResponse _ _ _ _)

/-- The sequence of each operation answers with the statuses of its own rule. -/
theorem sequenceAnswers_instrSteps (i : Instr) : SequenceAnswers (statusesOf i) (instrSteps i) := by
  cases i with
  | addr pin family => exact sequenceAnswers_addrSteps pin family
  | ack => exact .single (List.mem_singleton.2 rfl)
  | cfgOut pin level =>
    obtain ⟨hok, hf, hp⟩ := csq_statuses (i := .cfgOut pin level) rfl
    have hcheck : AnswersAfter (statusesOf (.cfgOut pin level)) (.check pin (levelError level)) :=
      ⟨hf, hp, fun _ => csqArgError_mem_statusesOf (i := .cfgOut pin level)⟩
    exact .append (.cons hcheck (.rmw hf hp _ _ _)) (.cons ⟨hf, hp⟩ (.respond hok rfl))
  | cfgIn pin =>
    obtain ⟨hok, hf, hp⟩ := csq_statuses (i := .cfgIn pin) rfl
    exact .append (.cons ⟨hf, hp, nofun⟩ (.rmw hf hp _ _ _)) (.respond hok rfl)
  | edgeEn pin edge =>
    obtain ⟨hok, hf, hp⟩ := csq_statuses (i := .edgeEn pin edge) rfl
    have hcheck : AnswersAfter (statusesOf (.edgeEn pin edge)) (.check pin (edgeError edge)) :=
      ⟨hf, hp, fun _ => csqArgError_mem_statusesOf (i := .edgeEn pin edge)⟩
    exact .append (.append (.append (.append (.cons hcheck (.rmw hf hp _ _ _)) (.rmw hf hp _ _ _)) (.rmw hf hp _ _ _))
      (.rmw hf hp _ _ _)) (.respond hok rfl)
  | edgeDis pin =>
    obtain ⟨hok, hf, hp⟩ := csq_statuses (i := .edgeDis pin) rfl
    exact .append (.append (.cons ⟨hf, hp, nofun⟩ (.rmw hf hp _ _ _)) (.rmw hf hp _ _ _)) (.respond hok rfl)
  | query pin =>
    obtain ⟨hok, hf, hp⟩ := csq_statuses (i := .query pin) rfl
    exact .cons ⟨hf, hp, nofun⟩ (.single ⟨hok, hf, hp⟩)

/-- The response of an operation, whatever other agents do. -/
theorem answers_of_exec {i : Instr} {s t : State} {r0 r1 : Word} (hI : Inv s) (h : exec i s = .next t)
    (hr : readResponse s.issuer t = some (r0, r1)) : Answers (statusesOf i) r0 r1 := by
  obtain ⟨hR, rfl⟩ := exec_next h
  obtain ⟨r0', r1', hr', hans⟩ := settle_response hI hR (startOk_instrSteps i) (sequenceAnswers_instrSteps i)
    fun _ _ hseq => hseq.after
  rw [hr] at hr'
  cases hr'
  exact hans

/-- AllocationFailure is reserved (R186). -/
theorem allocationFailure_notMem_statusesOf (i : Instr) : .allocationFailure ∉ statusesOf i := by
  cases i <;> simp [statusesOf]

/-- Settles O18: every step of an operation's sequence answers with the statuses of its rule
(`sequenceAnswers_instrSteps`), and what a step puts in its place does too (`SequenceAnswers.after`). -/
theorem responseStatuses : Obligations.ResponseStatuses := by
  intro i s t r0 r1 hI _ h hr
  obtain ⟨st, hst, hstatus, herror⟩ := answers_of_exec hI h hr
  exact ⟨st, hst, hstatus, fun e => allocationFailure_notMem_statusesOf i (e ▸ hst), herror⟩

/-! ### Function codes, the command vocabulary and the texts of a QUERY -/

/-- Settles O12: the table of the eight codes, and no function twice in it. -/
theorem functionCodes : Obligations.FunctionCodes :=
  ⟨rfl, rfl, rfl, rfl, rfl, rfl, rfl, rfl, by decide⟩

/-- A word outside the vocabulary names no action (R100). -/
theorem commandAction_of_notMem {word : String} (h : word ∉ ["high", "low", "in", "rising", "falling", "none"]) :
    commandAction word = none := by
  unfold commandAction
  split <;> first | rfl | exact absurd (by decide) h

theorem expandCommand_of_fits {pin : Int} (hp : pinFits pin = true) {word : String} {a : CommandAction}
    (h : commandAction word = some a) : expandCommand pin word = .ok (encode (expandAction pin a)) := by
  simp only [expandCommand, h, hp, if_true]

theorem expandCommand_unknown {word : String} (h : commandAction word = none) (pin : Int) :
    expandCommand pin word = .error .unknownCommand := by
  simp only [expandCommand, h]

/-- Settles O59: a word of the vocabulary names its action, which expands to one request, and any other names none
(`commandAction_of_notMem`). -/
theorem pseudoInstructions : Obligations.PseudoInstructions := by
  refine ⟨fun pin hlo hhi => ?_, fun pin word h => expandCommand_unknown (commandAction_of_notMem h) pin⟩
  have hp : pinFits pin = true := Bool.and_eq_true_iff.2 ⟨decide_eq_true hlo, decide_eq_true hhi⟩
  exact ⟨expandCommand_of_fits (a := .high) hp rfl, expandCommand_of_fits (a := .low) hp rfl,
    expandCommand_of_fits (a := .input) hp rfl, expandCommand_of_fits (a := .rising) hp rfl,
    expandCommand_of_fits (a := .falling) hp rfl, expandCommand_of_fits (a := .noEdges) hp rfl⟩

/-- The fields of the response for an Input pin and for an Output pin (R93). -/
theorem queryIoResponse_fields (level : Bool) :
    let l : Word := if level then 1 else 0
    (respIo (queryIoResponse 0 l) = 1 ∧ respFunc (queryIoResponse 0 l) = 0 ∧
      respLevel (queryIoResponse 0 l) = l.toNat) ∧
    respIo (queryIoResponse 1 l) = 1 ∧ respFunc (queryIoResponse 1 l) = 1 ∧
      respLevel (queryIoResponse 1 l) = l.toNat := by
  revert level; decide

/-- A 3-bit function code does not reach the `IO` bit (R93). -/
theorem respIo_queryAltResponse {fn : Word} (h : fn.toNat < 8) : respIo (queryAltResponse fn) = 0 := by
  have hbit : fn[8] = false := Nat.testBit_lt_two_pow (Nat.lt_trans h (show 8 < 2 ^ 8 by decide))
  have hio : (queryAltResponse fn).extractLsb' 16 1 = 0#1 := by
    apply BitVec.eq_of_getLsbD_eq
    intro i hi
    obtain rfl : i = 0 := by omega
    simp [queryAltResponse, Status.code, hbit]
  rw [respIo, hio]; rfl

/-- Settles O60: the texts are chosen by `IO` and `FUNC`, which the two response words carry
(`queryIoResponse_fields`, `respIo_queryAltResponse`). -/
theorem queryTexts : Obligations.QueryTexts := by
  intro fn level hfn l
  obtain ⟨⟨hio, hfunc, hlevel⟩, hio', hfunc', hlevel'⟩ := queryIoResponse_fields level
  have hne : ¬respFunc (queryIoResponse 1 l) = 0 := by rw [hfunc']; decide
  have hno : ¬respIo (queryAltResponse fn) = 1 := by rw [respIo_queryAltResponse hfn]; decide
  refine ⟨?_, ?_, if_neg hno, fun p => ⟨?_, ?_, if_neg hno⟩⟩
  · rw [queryText, if_pos hio, if_pos hfunc, hlevel]
  · rw [queryText, if_pos hio', if_neg hne, hlevel']
  · rw [enumeratorRow, if_pos hio, if_pos hfunc, hlevel]
  · rw [enumeratorRow, if_pos hio', if_neg hne, hlevel']

end Sys2Proof.Machine
end

section
/-! PROOFS, family 40_addressing: the field primitives (O11), the family codes and the ranges of the address function
(O10), and what ADDR answers (O9). -/

namespace Sys2Proof.Machine

open Sys2Proof.Safety

/-! ### The field primitives -/

/-- `getField` reads the field as an unsigned value (R118). -/
theorem toNat_getField (word : Word) (bo w : Nat) : (getField word bo w).toNat = word.toNat / 2 ^ bo % 2 ^ w := by
  apply Nat.eq_of_testBit_eq
  intro i
  rw [BitVec.testBit_toNat, getLsbD_getField, Nat.testBit_mod_two_pow, Nat.testBit_div_two_pow, BitVec.testBit_toNat,
    Nat.add_comm]

/-- Settles O11, bit by bit (`getLsbD_setField`) and as a number (`toNat_getField`). -/
theorem fieldPrimitives : Obligations.FieldPrimitives := by
  refine fun word v bo w _ => ⟨fun i => getLsbD_setField word bo w v, toNat_getField word bo w, ?_⟩
  rw [toNat_getField]
  exact Nat.mod_lt _ (Nat.two_pow_pos w)

/-- The mask of a location, as the number that ADDR answers (R113). -/
theorem fieldMask_eq_ofNat (bo w : Nat) : fieldMask bo w = BitVec.ofNat 32 ((2 ^ w - 1) * 2 ^ bo) := by
  apply BitVec.eq_of_getLsbD_eq
  intro i hi
  rw [fieldMask, BitVec.getLsbD_shiftLeft, getLsbD_lowMask, BitVec.getLsbD_ofNat, Nat.testBit_mul_two_pow,
    Nat.testBit_two_pow_sub_one]
  by_cases hbo : bo ≤ i
  · simp [hi, hbo, Nat.not_lt.2 hbo, show i - bo < 32 by omega]
  · simp [hbo, Nat.lt_of_not_le hbo]

/-! ### The family codes -/

/-- The seven codes of R84; every other is reserved (R85). -/
theorem familyOfCode_eq_some_iff (c : Nat) (f : Family) : familyOfCode c = some f ↔
    (c, f) ∈ [(0, .functionSelect), (1, .setLevel), (2, .clearLevel), (3, .readLevel), (4, .eventStatus),
      (5, .risingEdgeEnable), (6, Family.fallingEdgeEnable)] := by
  constructor
  · intro h
    unfold familyOfCode at h
    split at h <;> cases h <;> simp
  · intro h
    simp only [List.mem_cons, List.not_mem_nil, or_false, Prod.mk.injEq] at h
    obtain ⟨rfl, rfl⟩ | ⟨rfl, rfl⟩ | ⟨rfl, rfl⟩ | ⟨rfl, rfl⟩ | ⟨rfl, rfl⟩ | ⟨rfl, rfl⟩ | ⟨rfl, rfl⟩ := h
    all_goals rfl

theorem familyOfCode_reserved {c : Nat} (h : 6 < c) : familyOfCode c = none := by
  unfold familyOfCode
  split <;> first | rfl | omega

theorem exists_familyOfCode {c : Nat} (h : c ≤ 6) : ∃ f, familyOfCode c = some f := by
  have key : ∀ c ≤ 6, (familyOfCode c).isSome := by decide
  exact Option.isSome_iff_exists.1 (key c h)

/-! ### The ranges of the address function -/

/-- The offset of a pin's register is one the table of R26 lists, so an aligned one up to 0x5C that is no gap of the
table (R114). -/
theorem byteOffset_location {p : Nat} (hp : p < 54) (f : Family) :
    (location p f).byteOffset ≤ 0x5C ∧ (location p f).byteOffset % 4 = 0 ∧
    (location p f).byteOffset ∉ [0x18, 0x24, 0x30, 0x3C, 0x48, 0x54] := by
  have hreg := ofOffset_location hp f
  have ha := ofOffset_aligned hreg
  have hlt : ¬0x60 ≤ (location p f).byteOffset := fun h => by
    rw [ofOffset_of_ge h] at hreg
    cases hreg
  refine ⟨by omega, ha, fun hgap => ?_⟩
  have hnone : ∀ off ∈ [0x18, 0x24, 0x30, 0x3C, 0x48, 0x54], Reg.ofOffset off = none := by decide
  rw [hnone _ hgap] at hreg
  cases hreg

theorem location_functionSelect_ranges {p : Nat} (hp : p < 54) :
    (location p .functionSelect).regIndex ≤ 5 ∧
    (location p .functionSelect).byteOffset = 4 * (location p .functionSelect).regIndex ∧
    (location p .functionSelect).bitOffset % 3 = 0 ∧ (location p .functionSelect).bitOffset ≤ 27 ∧
    (location p .functionSelect).width = 3 ∧
    10 * (location p .functionSelect).regIndex + (location p .functionSelect).bitOffset / 3 = p := by
  have hri : (location p .functionSelect).regIndex = p / 10 := rfl
  obtain ⟨hoff, hbo, hw⟩ := location_functionSelect p
  rw [hri, hoff, hbo, hw]
  omega

theorem location_bit_ranges {p : Nat} (hp : p < 54) {f : Family} (hf : f ≠ .functionSelect) :
    (location p f).regIndex ≤ 1 ∧ (location p f).byteOffset = familyBase f + 4 * (location p f).regIndex ∧
    (location p f).bitOffset ≤ 31 ∧ ((location p f).regIndex = 1 → (location p f).bitOffset ≤ 21) ∧
    (location p f).width = 1 ∧ 32 * (location p f).regIndex + (location p f).bitOffset = p := by
  have hri : (location p f).regIndex = p / 32 := by cases f <;> first | exact absurd rfl hf | rfl
  obtain ⟨hoff, hbo, hw⟩ := location_bit p hf
  rw [hri, hoff, hbo, hw]
  omega

/-- Settles O10: the codes are the table of R84 (`familyOfCode_eq_some_iff`); the ranges are those of the two kinds of
family and of the offsets that the table of R26 lists. -/
theorem addrRanges : Obligations.AddrRanges := by
  refine ⟨familyOfCode_eq_some_iff, fun p f hp => ⟨location p f, addr_valid hp f, ?_, location_bit_ranges hp,
    byteOffset_location hp f⟩⟩
  rintro rfl
  exact location_functionSelect_ranges hp

/-! ### The response of ADDR -/

/-- A result field that fits loses no bits when it is put in its place. -/
theorem toNat_ofNat_shiftLeft {x k : Nat} (h : x * 2 ^ k < 2 ^ 32) : (BitVec.ofNat 32 x <<< k).toNat = x <<< k := by
  have hx : x < 2 ^ 32 := Nat.lt_of_le_of_lt (Nat.le_mul_of_pos_right x (Nat.two_pow_pos k)) h
  rw [BitVec.toNat_shiftLeft, BitVec.toNat_ofNat, Nat.mod_eq_of_lt hx, Nat.shiftLeft_eq, Nat.mod_eq_of_lt h]

/-- The response word of ADDR as a number: fields that fit their places do not overlap (R91). -/
theorem toNat_addrResponse {ri off bo w : Nat} (hri : ri < 16) (hoff : off < 256) (hbo : bo < 256) (hw : w < 16) :
    (addrResponse ri off bo w).toNat = ri * 2 ^ 28 + (w * 2 ^ 24 + (bo * 2 ^ 16 + off * 2 ^ 8)) := by
  have hok : Status.ok.code.toNat = 0 := rfl
  simp only [addrResponse, BitVec.toNat_or, hok, Nat.or_zero, Nat.or_assoc]
  rw [toNat_ofNat_shiftLeft (by omega), toNat_ofNat_shiftLeft (by omega), toNat_ofNat_shiftLeft (by omega),
    toNat_ofNat_shiftLeft (by omega)]
  rw [← Nat.shiftLeft_add_eq_or_of_lt (i := 16) (by rw [Nat.shiftLeft_eq]; omega),
    ← Nat.shiftLeft_add_eq_or_of_lt (i := 24) (by simp only [Nat.shiftLeft_eq]; omega),
    ← Nat.shiftLeft_add_eq_or_of_lt (i := 28) (by simp only [Nat.shiftLeft_eq]; omega)]
  simp only [Nat.shiftLeft_eq]

/-- A requester reads from the response word of ADDR the fields that were put in (R91). -/
theorem addrResponse_fields {ri off bo w : Nat} (hri : ri < 16) (hoff : off < 256) (hbo : bo < 256) (hw : w < 16) :
    respByteOffset (addrResponse ri off bo w) = off ∧ respBitOffset (addrResponse ri off bo w) = bo ∧
    respWidth (addrResponse ri off bo w) = w ∧ respRegIndex (addrResponse ri off bo w) = ri := by
  simp only [respByteOffset, respBitOffset, respWidth, respRegIndex, BitVec.extractLsb'_toNat,
    toNat_addrResponse hri hoff hbo hw, Nat.shiftRight_eq_div_pow]
  omega

/-- The location of a valid pin fits the fields of the response (R91, R114). -/
theorem location_fits {p : Nat} (hp : p < 54) (f : Family) : (location p f).regIndex < 16 ∧
    (location p f).byteOffset < 256 ∧ (location p f).bitOffset < 256 ∧ (location p f).width < 16 := by
  obtain ⟨hoff, -, -⟩ := byteOffset_location hp f
  by_cases hf : f = .functionSelect
  · subst hf
    obtain ⟨hri, -, -, hbo, hw, -⟩ := location_functionSelect_ranges hp
    omega
  · obtain ⟨hri, -, hbo, -, hw, -⟩ := location_bit_ranges hp hf
    omega

/-! ### ADDR -/

theorem addrSteps_reserved {family : Nat} (h : familyOfCode family = none) (pin : Int) :
    addrSteps pin family = [raise .unknownCommand] := by
  rw [addrSteps, h]

theorem addrSteps_invalidPin {pin : Int} {family : Nat} {f : Family} (hf : familyOfCode family = some f)
    (hp : validPin pin = false) : addrSteps pin family = [raise .invalidPin] := by
  simp only [addrSteps, hf, addr_invalid hp]

theorem addrSteps_valid {p family : Nat} {f : Family} (hf : familyOfCode family = some f) (hp : p < 54) :
    addrSteps p family = [.respond (addrResponse (location p f).regIndex (location p f).byteOffset
      (location p f).bitOffset (location p f).width) (fieldMask (location p f).bitOffset (location p f).width)] := by
  simp only [addrSteps, hf, addr_valid hp]

/-- An ADDR that runs alone completes with the response of its one step (R119). -/
theorem exec_addr_responds {s : State} (h : Alone s) {pin : Int} {family : Nat} {r0 r1 : Word}
    (hsteps : addrSteps pin family = [.respond r0 r1]) :
    ∃ t, exec (.addr pin family) s = .next t ∧ Completed s t r0 r1 ∧ NothingDone s t := by
  rw [exec_eq_perform, instrSteps, hsteps]
  exact perform_respond h.toReady h.agenda r0 r1

/-- Settles O9: the sequence of ADDR is one response (`exec_addr_responds`), for a valid pin that of its location, whose
fields fit (`location_fits`) and are read back as they are (`addrResponse_fields`). -/
theorem addrAnswersLocation : Obligations.AddrAnswersLocation := by
  refine fun s pin family h => ⟨fun hc => ?_, fun hc hp => ?_, fun f hf ⟨hp0, hp54⟩ => ?_⟩
  · exact exec_addr_responds h (addrSteps_reserved (familyOfCode_reserved hc) pin)
  · obtain ⟨f, hf⟩ := exists_familyOfCode hc
    exact exec_addr_responds h (addrSteps_invalidPin hf ((validPin_false_iff pin).2 hp))
  · obtain ⟨p, rfl⟩ := Int.eq_ofNat_of_zero_le hp0
    have hp : p < 54 := by omega
    obtain ⟨hri, hoff, hbo, hw⟩ := location_fits hp f
    obtain ⟨foff, fbo, fw, fri⟩ := addrResponse_fields hri hoff hbo hw
    obtain ⟨t, ht, hcomp, hnothing⟩ := exec_addr_responds h (addrSteps_valid hf hp)
    rw [fieldMask_eq_ofNat] at hcomp
    exact ⟨t, _, ht, hnothing, hcomp, respStatus_addrResponse _ _ _ _, foff, fbo, fw, fri⟩

end Sys2Proof.Machine
end

section
/-! PROOFS, family 41_configuration, the window: what an RMW and a level write of one pin leave of the pin itself and of
every other pin (R131, R132), and that an RMW which finds its value there changes nothing (R142). -/

namespace Sys2Proof.Safety

open Sys2Proof.Machine

variable {w w' w'' : Window} {p : Nat}

theorem OtherPinsKept.refl (w : Window) (p : Nat) : OtherPinsKept w w p :=
  ⟨fun _ _ _ => rfl, fun _ _ _ => rfl, fun _ _ _ => rfl, fun _ _ _ => rfl, fun _ _ _ => rfl, rfl⟩

theorem EdgesKept.trans (h : EdgesKept w w' p) (h' : EdgesKept w' w'' p) : EdgesKept w w'' p :=
  ⟨h'.pending.trans h.pending, h'.rising.trans h.rising, h'.falling.trans h.falling⟩

theorem OtherPinsKept.trans (h : OtherPinsKept w w' p) (h' : OtherPinsKept w' w'' p) : OtherPinsKept w w'' p where
  func k hk hne := (h'.func k hk hne).trans (h.func k hk hne)
  latch k hk hne := (h'.latch k hk hne).trans (h.latch k hk hne)
  pending k hk hne := (h'.pending k hk hne).trans (h.pending k hk hne)
  rising k hk hne := (h'.rising k hk hne).trans (h.rising k hk hne)
  falling k hk hne := (h'.falling k hk hne).trans (h.falling k hk hne)
  external := h'.external.trans h.external

end Sys2Proof.Safety

namespace Sys2Proof.Machine

open Sys2Proof.Safety

variable (s : State) (w : Window) {p : Nat}

/-! ### A read-modify-write -/

/-- An RMW of FunctionSelect leaves the pending latch and the edge enables of every pin. -/
theorem edgesKept_rmwWindow (p : Nat) (v : Word) (d k : Nat) :
    EdgesKept w (rmwWindow s w .functionSelect p v d) k :=
  ⟨rfl, rfl, rfl⟩

/-- An RMW of RisingEdgeEnable leaves every function code, latch and falling-edge enable. -/
@[simp] theorem rmwWindow_rising_kept (p : Nat) (v : Word) (d k : Nat) :
    (rmwWindow s w .risingEdgeEnable p v d).func k = w.func k ∧
    (rmwWindow s w .risingEdgeEnable p v d).latch k = w.latch k ∧
    (rmwWindow s w .risingEdgeEnable p v d).pending k = w.pending k ∧
    (rmwWindow s w .risingEdgeEnable p v d).falling k = w.falling k :=
  ⟨rfl, rfl, rfl, rfl⟩

/-- An RMW of FallingEdgeEnable leaves every function code, latch and rising-edge enable. -/
@[simp] theorem rmwWindow_falling_kept (p : Nat) (v : Word) (d k : Nat) :
    (rmwWindow s w .fallingEdgeEnable p v d).func k = w.func k ∧
    (rmwWindow s w .fallingEdgeEnable p v d).latch k = w.latch k ∧
    (rmwWindow s w .fallingEdgeEnable p v d).pending k = w.pending k ∧
    (rmwWindow s w .fallingEdgeEnable p v d).rising k = w.rising k :=
  ⟨rfl, rfl, rfl, rfl⟩

/-- An RMW leaves every pin but its own (R131). -/
theorem otherPinsKept_rmwWindow (hp : p < 54) (g : LockFamily) (v : Word) (d : Nat) :
    OtherPinsKept w (rmwWindow s w g p v d) p := by
  cases g with
  | functionSelect =>
    exact ⟨fun k hk hne => (func_rmwWindow_functionSelect s w hp hk v d).trans (if_neg hne),
      fun k hk hne => latch_rmwWindow_functionSelect s w hp hk v d (.inl hne),
      fun _ _ _ => rfl, fun _ _ _ => rfl, fun _ _ _ => rfl, rfl⟩
  | risingEdgeEnable =>
    exact ⟨fun _ _ _ => rfl, fun _ _ _ => rfl, fun _ _ _ => rfl,
      fun k hk hne => (rising_rmwWindow s w hp hk v d).trans (if_neg hne), fun _ _ _ => rfl, rfl⟩
  | fallingEdgeEnable =>
    exact ⟨fun _ _ _ => rfl, fun _ _ _ => rfl, fun _ _ _ => rfl, fun _ _ _ => rfl,
      fun k hk hne => (falling_rmwWindow s w hp hk v d).trans (if_neg hne), rfl⟩

/-- The pin of an RMW of FunctionSelect has the code that was written (R131). -/
theorem func_rmwWindow_own (hp : p < 54) (v : Word) (d : Nat) :
    (rmwWindow s w .functionSelect p v d).func p = v &&& lowMask 3 := by
  rw [func_rmwWindow_functionSelect s w hp hp, if_pos rfl]

theorem rising_rmwWindow_own (hp : p < 54) (v : Word) (d : Nat) :
    (rmwWindow s w .risingEdgeEnable p v d).rising p = v.getLsbD 0 := by
  rw [rising_rmwWindow s w hp hp, if_pos rfl]

theorem falling_rmwWindow_own (hp : p < 54) (v : Word) (d : Nat) :
    (rmwWindow s w .fallingEdgeEnable p v d).falling p = v.getLsbD 0 := by
  rw [falling_rmwWindow s w hp hp, if_pos rfl]

/-- An RMW that makes a pin an Input leaves its output latch (R52, R138). -/
theorem latch_rmwWindow_input (hp : p < 54) (d : Nat) :
    (rmwWindow s w .functionSelect p inputCode d).latch p = w.latch p :=
  latch_rmwWindow_functionSelect s w hp hp _ _ (.inr (by decide))

/-! ### A level write -/

/-- The level write of one pin (R53, R54, R132). -/
def Window.drive (w : Window) (p : Nat) (level : Bool) : Window :=
  w.writeLevel (Fin.ofNat 2 (p / 32)) (oneBit (p % 32)) level

theorem Window.func_drive (p : Nat) (level : Bool) (k : Nat) : (w.drive p level).func k = w.func k := rfl

/-- A level write leaves the pending latch and the edge enables of every pin. -/
theorem edgesKept_drive (p : Nat) (level : Bool) (k : Nat) : EdgesKept w (w.drive p level) k := ⟨rfl, rfl, rfl⟩

/-- The level write of an Output pin drives it (R53, R54). -/
theorem Window.latch_drive_own {w : Window} (hp : p < 54) (hf : w.func p = outputCode) (level : Bool) :
    (w.drive p level).latch p = level :=
  w.latch_writeLevel_own level hp hf

/-- A level write leaves every pin but its own (R132). -/
theorem otherPinsKept_drive (hp : p < 54) (level : Bool) : OtherPinsKept w (w.drive p level) p :=
  ⟨fun _ _ _ => rfl, fun _ hk hne => w.latch_writeLevel_other level hp hk hne, fun _ _ _ => rfl, fun _ _ _ => rfl,
    fun _ _ _ => rfl, rfl⟩

/-! ### An RMW that finds its value there -/

/-- In a register in canonical form, writing to a pin the bit it has gives back what the register holds. -/
theorem setField_withDraw_fixed {stored mask v : Word} {b : Nat} (bits : Word) (hc : stored &&& ~~~mask = 0)
    (hm : mask.getLsbD b = true) (hv : stored.getLsbD b = v.getLsbD 0) :
    setField (withDraw stored mask bits) b 1 v &&& mask = stored := by
  apply BitVec.eq_of_getLsbD_eq
  intro i hi
  rw [BitVec.getLsbD_and, getLsbD_setField _ _ _ _ hi, getLsbD_withDraw]
  conv_rhs => rw [← and_mask_of_canonical hc, BitVec.getLsbD_and]
  by_cases h : i = b
  · subst h; simp [hm, hv]
  · rw [if_neg (by omega)]
    cases mask.getLsbD i <;> simp

theorem getLsbD_bitPinMask_pin (hp : p < 54) : (bitPinMask (Fin.ofNat 2 (p / 32))).getLsbD (p % 32) = true := by
  rw [getLsbD_bitPinMask, Fin.val_ofNat]
  simp; omega

theorem val_ofNat_register (hp : p < 54) : (Fin.ofNat 2 (p / 32)).val = p / 32 := by simp; omega

/-- The word an RMW of RisingEdgeEnable reads: the register, with its non-pin bits drawn (R57). -/
theorem rmwRead_rising (hp : p < 54) (d : Nat) : rmwRead s w .risingEdgeEnable p d =
    withDraw (w.renAt (p / 32)) (bitPinMask (Fin.ofNat 2 (p / 32))) (s.drawAt d).bits := by
  rw [rmwRead, LockFamily.family, pinReg, Window.read, val_ofNat_register hp]

theorem rmwRead_falling (hp : p < 54) (d : Nat) : rmwRead s w .fallingEdgeEnable p d =
    withDraw (w.fenAt (p / 32)) (bitPinMask (Fin.ofNat 2 (p / 32))) (s.drawAt d).bits := by
  rw [rmwRead, LockFamily.family, pinReg, Window.read, val_ofNat_register hp]

/-- The word an RMW of FunctionSelect writes (R131). -/
theorem rmwWord_functionSelect (p : Nat) (r v : Word) :
    rmwWord .functionSelect p r v = setField r (3 * (p % 10)) 3 v := by
  obtain ⟨-, hoff, hwid⟩ := location_functionSelect p
  rw [rmwWord, LockFamily.family, hoff, hwid]

/-- The word an RMW of an edge-enable family writes (R131). -/
theorem rmwWord_edge (p : Nat) {g : LockFamily} (hg : g ≠ .functionSelect) (r v : Word) :
    rmwWord g p r v = setField r (p % 32) 1 v := by
  obtain ⟨-, hoff, hwid⟩ := location_bit p (f := g.family) (by cases g <;> simp_all [LockFamily.family])
  rw [rmwWord, hoff, hwid]

theorem Window.ren_set_renAt {i : Fin 2} {n : Nat} (h : i.val = n) : w.ren.set i (w.renAt n) = w.ren := by
  subst h
  rw [Window.renAt, Vector.getElem?_eq_getElem i.isLt, Option.getD_some, Vector.set_getElem_self]

theorem Window.fen_set_fenAt {i : Fin 2} {n : Nat} (h : i.val = n) : w.fen.set i (w.fenAt n) = w.fen := by
  subst h
  rw [Window.fenAt, Vector.getElem?_eq_getElem i.isLt, Option.getD_some, Vector.set_getElem_self]

/-- An RMW of RisingEdgeEnable that finds its value in a register in canonical form changes nothing. -/
theorem rmwWindow_rising_fixed (hp : p < 54) {v : Word}
    (hc : w.renAt (p / 32) &&& ~~~bitPinMask (Fin.ofNat 2 (p / 32)) = 0) (hv : w.rising p = v.getLsbD 0) (d : Nat) :
    rmwWindow s w .risingEdgeEnable p v d = w := by
  rw [rmwWindow, LockFamily.family, pinReg, Window.write, rmwWord_edge p (g := .risingEdgeEnable) (by simp),
    rmwRead_rising s w hp, setField_withDraw_fixed _ hc (getLsbD_bitPinMask_pin hp) hv,
    w.ren_set_renAt (val_ofNat_register hp)]

/-- An RMW of FallingEdgeEnable that finds its value in a register in canonical form changes nothing. -/
theorem rmwWindow_falling_fixed (hp : p < 54) {v : Word}
    (hc : w.fenAt (p / 32) &&& ~~~bitPinMask (Fin.ofNat 2 (p / 32)) = 0) (hv : w.falling p = v.getLsbD 0) (d : Nat) :
    rmwWindow s w .fallingEdgeEnable p v d = w := by
  rw [rmwWindow, LockFamily.family, pinReg, Window.write, rmwWord_edge p (g := .fallingEdgeEnable) (by simp),
    rmwRead_falling s w hp, setField_withDraw_fixed _ hc (getLsbD_bitPinMask_pin hp) hv,
    w.fen_set_fenAt (val_ofNat_register hp)]

/-- After an RMW of RisingEdgeEnable the register it wrote is in canonical form (R57). -/
theorem renAt_rmwWindow_canonical (hp : p < 54) (v : Word) (d : Nat) :
    (rmwWindow s w .risingEdgeEnable p v d).renAt (p / 32) &&& ~~~bitPinMask (Fin.ofNat 2 (p / 32)) = 0 := by
  rw [rmwWindow, LockFamily.family, pinReg, Window.write, Window.renAt_set, if_pos (val_ofNat_register hp).symm]
  exact canonical_and_mask _ _

/-- After an RMW of FallingEdgeEnable the register it wrote is in canonical form (R57). -/
theorem fenAt_rmwWindow_canonical (hp : p < 54) (v : Word) (d : Nat) :
    (rmwWindow s w .fallingEdgeEnable p v d).fenAt (p / 32) &&& ~~~bitPinMask (Fin.ofNat 2 (p / 32)) = 0 := by
  rw [rmwWindow, LockFamily.family, pinReg, Window.write, Window.fenAt_set, if_pos (val_ofNat_register hp).symm]
  exact canonical_and_mask _ _

end Sys2Proof.Machine
end

section
/-! PROOFS, family 41_configuration, the run: the sequence of a configuration operation as its updates of the pin, what
it leaves when no transaction fails, and where it ends at the first that does (R133). -/

namespace Sys2Proof.Machine

open Sys2Proof.Safety

variable {s : State} {q p : Nat} {x : Run} {temp : Word}

/-! ### Updates -/

/-- What a configuration operation does to its pin: a read-modify-write (R131), or a level write (R132). -/
inductive Update where
  | rmw (g : LockFamily) (v : Word)
  | level (b : Bool)

/-- The family of a level write (R135). -/
def levelFamily (b : Bool) : Family := if b then .setLevel else .clearLevel

def Update.steps (p : Nat) : Update → List Action
  | .rmw g v => Machine.rmw g p v
  | .level b => [.writeOne (levelFamily b) p]

def Update.cost : Update → Nat
  | .rmw _ _ => 2
  | .level _ => 1

/-- What a level write changes (R132). -/
def Run.level (q : Nat) (x : Run) (p : Nat) (b : Bool) : Run :=
  { x with
    window := x.window.drive p b
    bus := .write q (location p (levelFamily b)).byteOffset (oneBit (p % 32)) true :: x.bus
    taken := x.taken + 1 }

def Run.update (s : State) (q p : Nat) (x : Run) : Update → Run
  | .rmw g v => x.rmw s q g p v
  | .level b => x.level q p b

/-- The sequence of the updates `us`, and the OK response after it. -/
def updateSteps (p : Nat) : List Update → List Action
  | [] => [respondOk]
  | u :: us => u.steps p ++ updateSteps p us

/-- How many transactions the updates make. -/
def updateCost : List Update → Nat
  | [] => 0
  | u :: us => u.cost + updateCost us

/-- What the updates change, one after the other. -/
def Run.updates (s : State) (q p : Nat) (x : Run) : List Update → Run
  | [] => x
  | u :: us => (x.update s q p u).updates s q p us

/-- The family of the RMW with which EDGE_EN enables an edge (R139). -/
def edgeLock (edge : Nat) : LockFamily := if edge = 0 then .risingEdgeEnable else .fallingEdgeEnable

/-- The updates of each configuration operation, in order (R135, R137, R139, R141). -/
def instrUpdates : Instr → List Update
  | .cfgOut _ level => [.rmw .functionSelect outputCode, .level (decide (level = 1))]
  | .cfgIn _ => [.rmw .functionSelect inputCode]
  | .edgeEn _ edge =>
    [.rmw .risingEdgeEnable 0, .rmw .fallingEdgeEnable 0, .rmw .functionSelect inputCode,
      .rmw (edgeLock edge) 1]
  | .edgeDis _ => [.rmw .risingEdgeEnable 0, .rmw .fallingEdgeEnable 0]
  | _ => []

/-- CFG_OUT, CFG_IN, EDGE_EN and EDGE_DIS. -/
inductive Configures (p : Nat) : Instr → Prop
  | cfgOut (level : Nat) : Configures p (.cfgOut p level)
  | cfgIn : Configures p (.cfgIn p)
  | edgeEn (edge : Nat) : Configures p (.edgeEn p edge)
  | edgeDis : Configures p (.edgeDis p)

/-- The sequence of a configuration operation: its checks, its updates and the OK response. -/
theorem Configures.steps {i : Instr} (h : Configures p i) :
    instrSteps i = .check p (csqArgError i) :: updateSteps p (instrUpdates i) := by
  cases h with
  | cfgOut level =>
    simp [instrSteps, cfgOutSteps, csqArgError, instrUpdates, updateSteps, Update.steps, levelFamily]
  | cfgIn => rfl
  | edgeEn edge => simp [instrSteps, edgeEnSteps, csqArgError, instrUpdates, updateSteps, Update.steps, edgeLock]
  | edgeDis => rfl

theorem Configures.cost {i : Instr} (h : Configures p i) (w : Window) :
    csqTransactions w p i = updateCost (instrUpdates i) := by
  cases h <;> rfl

/-- A configuration operation or QUERY. -/
theorem configures_or_query {i : Instr} (h : csqPin i = some (p : Int)) : Configures p i ∨ i = .query p := by
  cases i with
  | addr pin family => cases h
  | ack => cases h
  | cfgOut pin level => cases h; exact .inl (.cfgOut level)
  | cfgIn pin => cases h; exact .inl .cfgIn
  | edgeEn pin edge => cases h; exact .inl (.edgeEn edge)
  | edgeDis pin => cases h; exact .inl .edgeDis
  | query pin => cases h; exact .inr rfl

theorem stepsWeight_rmw (g : LockFamily) (p : Nat) (v : Word) (rest : List Action) :
    stepsWeight (rmw g p v ++ rest) = stepsWeight rest + 6 := rfl

theorem levelFamily_ne_readLevel (b : Bool) : levelFamily b ≠ .readLevel := by cases b <;> simp [levelFamily]

theorem levelFamily_bitOffset (b : Bool) (p : Nat) : (location p (levelFamily b)).bitOffset = p % 32 :=
  (location_bit p (by cases b <;> simp [levelFamily])).2.1

/-- The write of the one bit of a pin to SetLevel or ClearLevel is its level write (R53, R54). -/
theorem write_levelFamily (w : Window) (p : Nat) (b : Bool) (bits : Word) :
    w.write (pinReg p (levelFamily b)) (oneBit (location p (levelFamily b)).bitOffset) bits = w.drive p b := by
  rw [levelFamily_bitOffset]
  cases b <;> rfl

/-! ### No transaction fails -/

section Running

variable (ha : s.agenda = []) (hq : q < s.ports.length) (hp : p < 54)
include ha hq hp

/-- A level write that meets no `ERR`. -/
theorem drive_level {rest : List Action} (he : (s.drawAt x.taken).err = false) (b : Bool) (n : Nat) :
    drive (n + 1) q (s.amid q x ⟨.writeOne (levelFamily b) p :: rest, temp⟩) =
      drive n q (s.amid q (x.level q p b) ⟨rest, temp⟩) := by
  rw [drive_writeOne ha hq hp (levelFamily_ne_readLevel b) he, write_levelFamily, levelFamily_bitOffset]
  rfl

/-- With no failure, the updates run one after the other to the OK response. -/
theorem drive_updates {us : List Update} {n : Nat} (hl : x.locks = Locks.free)
    (hb : BusOk s (x.taken + updateCost us)) (hn : stepsWeight (updateSteps p us) ≤ n) :
    drive n q (s.amid q x ⟨updateSteps p us, temp⟩) = s.ended q (x.updates s q p us) 0 0 := by
  induction us generalizing x temp n with
  | nil =>
    obtain ⟨m, rfl⟩ := Nat.exists_eq_add_of_le' (show 1 ≤ n from hn)
    exact drive_respond ha hq m _ _
  | cons u us ih =>
    cases u with
    | rmw g v =>
      rw [updateSteps, Update.steps, stepsWeight_rmw] at hn
      rw [updateCost, Update.cost] at hb
      obtain ⟨m, rfl⟩ := Nat.exists_eq_add_of_le' (show 4 ≤ n by omega)
      rw [updateSteps, Update.steps, drive_rmw ha hq hp g (by rw [hl]; exact Locks.holder_free g)
        (hb _ (by omega)) (hb _ (by omega))]
      refine ih hl (fun k hk => hb k ?_) (by omega)
      simp only [Run.rmw] at hk
      omega
    | level b =>
      have hw : stepsWeight (updateSteps p us) + 2 ≤ n := hn
      rw [updateCost, Update.cost] at hb
      obtain ⟨m, rfl⟩ := Nat.exists_eq_add_of_le' (show 1 ≤ n by omega)
      refine (drive_level ha hq hp (hb _ (by omega)) b m).trans (ih hl (fun k hk => hb k ?_) (by omega))
      simp only [Run.level] at hk
      omega

end Running

/-- A configuration operation of a valid pin with a good argument, undisturbed and with no failure: it completes with OK
after its updates. -/
theorem exec_configures {i : Instr} (h : Undisturbed s) (hi : s.inoperative = false) (hc : Configures p i)
    (hp : p < 54) (harg : csqArgError i = none) (hb : BusOk s (updateCost (instrUpdates i))) :
    exec i s = .next (s.ended s.issuer ((Run.start s).updates s s.issuer p (instrUpdates i)) 0 0) := by
  rw [exec_eq_perform]
  refine perform_alone h.toReady _ le_rfl ?_
  rw [hc.steps, harg]
  refine (drive_check h.agenda h.issuer (x := .start s) hi (validPin_natCast hp) _).trans ?_
  exact drive_updates h.agenda h.issuer hp h.locks (by rw [Run.start, Nat.zero_add]; exact hb) (Nat.le_succ _)

/-! ### What the updates leave -/

theorem Run.updates_kept (us : List Update) :
    (x.updates s q p us).locks = x.locks ∧ (x.updates s q p us).ias = x.ias ∧
    (x.updates s q p us).inoperative = x.inoperative ∧ (x.updates s q p us).taken = x.taken + updateCost us := by
  induction us generalizing x with
  | nil => exact ⟨rfl, rfl, rfl, rfl⟩
  | cons u us ih =>
    obtain ⟨hlocks, hias, hinop, htaken⟩ := ih (x := x.update s q p u)
    rw [Run.updates, hlocks, hias, hinop, htaken, updateCost]
    cases u with
    | rmw g v => exact ⟨rfl, rfl, rfl, Nat.add_assoc _ _ _⟩
    | level b => exact ⟨rfl, rfl, rfl, Nat.add_assoc _ _ _⟩

/-- An update leaves every pin but its own. -/
theorem otherPinsKept_update (hp : p < 54) (u : Update) : OtherPinsKept x.window (x.update s q p u).window p := by
  cases u with
  | rmw g v => exact otherPinsKept_rmwWindow s x.window hp g v x.taken
  | level b => exact otherPinsKept_drive x.window hp b

theorem otherPinsKept_updates (hp : p < 54) (us : List Update) :
    OtherPinsKept x.window (x.updates s q p us).window p := by
  induction us generalizing x with
  | nil => exact .refl _ _
  | cons u us ih => exact (otherPinsKept_update hp u).trans ih

/-- A configuration operation of a valid pin with a good argument, undisturbed and with no failure: it completes with
OK, its updates have made the window and the record, and every other pin is as it was. -/
theorem exec_configures_next {i : Instr} (h : Undisturbed s) (hi : s.inoperative = false) (hc : Configures p i)
    (hp : p < 54) (harg : csqArgError i = none) (hb : BusOk s (updateCost (instrUpdates i))) :
    ∃ t, exec i s = .next t ∧ Completed s t 0 0 ∧ t.inoperative = false ∧ t.ias = s.ias ∧
      t.window = ((Run.start s).updates s s.issuer p (instrUpdates i)).window ∧
      t.bus = ((Run.start s).updates s s.issuer p (instrUpdates i)).bus ++ s.bus ∧
      OtherPinsKept s.window t.window p ∧ ∀ k, t.drawAt k = s.drawAt (updateCost (instrUpdates i) + k) := by
  obtain ⟨hlocks, hias, hinop, htaken⟩ := Run.updates_kept (s := s) (q := s.issuer) (p := p) (x := .start s)
    (instrUpdates i)
  refine ⟨_, exec_configures h hi hc hp harg hb, completed_ended h.issuer hlocks 0 0, hinop.trans hi, hias, rfl, rfl,
    otherPinsKept_updates (x := .start s) hp _, fun k => ?_⟩
  simp [State.drawAt, State.ended, htaken.trans (Nat.zero_add _), Nat.add_assoc]

end Sys2Proof.Machine
end

section
/-! PROOFS, family 41_configuration, the results of the configuration operations when nothing disturbs them and no
transaction fails: CFG_OUT (O22), CFG_IN (O23, O30), EDGE_EN (O24) and EDGE_DIS (O25, O28). -/

namespace Sys2Proof.Machine

open Sys2Proof.Safety

variable {s : State} {p : Nat}

/-! ### The transactions of an update, in numbers -/

/-- The transactions of an RMW of FunctionSelect (R26, R131). -/
theorem Run.bus_rmw_functionSelect (s : State) (q : Nat) (x : Run) (p : Nat) (v : Word) :
    (x.rmw s q .functionSelect p v).bus =
      .write q (4 * (p / 10)) (setField (rmwRead s x.window .functionSelect p x.taken) (3 * (p % 10)) 3 v) true ::
        .read q (4 * (p / 10)) (some (rmwRead s x.window .functionSelect p x.taken)) :: x.bus := by
  rw [Run.rmw, rmwWord_functionSelect, LockFamily.family, (location_functionSelect p).1]

/-- The transactions of an RMW of an edge-enable family (R26, R131). -/
theorem Run.bus_rmw_edge (s : State) (q : Nat) (x : Run) (p : Nat) {g : LockFamily} (hg : g ≠ .functionSelect)
    (v : Word) :
    (x.rmw s q g p v).bus =
      .write q (familyBase g.family + 4 * (p / 32)) (setField (rmwRead s x.window g p x.taken) (p % 32) 1 v) true ::
        .read q (familyBase g.family + 4 * (p / 32)) (some (rmwRead s x.window g p x.taken)) :: x.bus := by
  rw [Run.rmw, rmwWord_edge p hg,
    (location_bit p (f := g.family) (by cases g <;> simp_all [LockFamily.family])).1]

theorem Run.bus_rmw_rising (s : State) (q : Nat) (x : Run) (p : Nat) (v : Word) :
    (x.rmw s q .risingEdgeEnable p v).bus =
      .write q (0x4C + 4 * (p / 32)) (setField (rmwRead s x.window .risingEdgeEnable p x.taken) (p % 32) 1 v) true ::
        .read q (0x4C + 4 * (p / 32)) (some (rmwRead s x.window .risingEdgeEnable p x.taken)) :: x.bus :=
  x.bus_rmw_edge s q p (by simp) v

theorem Run.bus_rmw_falling (s : State) (q : Nat) (x : Run) (p : Nat) (v : Word) :
    (x.rmw s q .fallingEdgeEnable p v).bus =
      .write q (0x58 + 4 * (p / 32)) (setField (rmwRead s x.window .fallingEdgeEnable p x.taken) (p % 32) 1 v) true ::
        .read q (0x58 + 4 * (p / 32)) (some (rmwRead s x.window .fallingEdgeEnable p x.taken)) :: x.bus :=
  x.bus_rmw_edge s q p (by simp) v

/-- The transaction of a level write (R26, R132). -/
theorem Run.bus_level (q : Nat) (x : Run) (p level : Nat) :
    (x.level q p (decide (level = 1))).bus =
      .write q ((if level = 1 then 0x1C else 0x28) + 4 * (p / 32)) (1 <<< (p % 32)) true :: x.bus := by
  rw [Run.level, (location_bit p (f := levelFamily _) (by rw [levelFamily]; split <;> simp)).1]
  by_cases h : level = 1
  · rw [decide_eq_true h, if_pos h]; rfl
  · rw [decide_eq_false h, if_neg h]; rfl

/-- The word an RMW of FunctionSelect reads shows the function codes the register holds (R52). -/
theorem rmwRead_functionSelect_agrees (s : State) (w : Window) (hp : p < 54) (d : Nat) :
    rmwRead s w .functionSelect p d &&& fselPinMask (Fin.ofNat 6 (p / 10)) =
      w.fselAt (p / 10) &&& fselPinMask (Fin.ofNat 6 (p / 10)) := by
  have hval : (Fin.ofNat 6 (p / 10)).val = p / 10 := by simp; omega
  rw [rmwRead, LockFamily.family, pinReg, Window.read, withDraw_and_mask, hval]

/-! ### CFG_OUT and CFG_IN -/

/-- Settles O22: CFG_OUT is an RMW that leaves the Output code and a level write that drives the pin
(`exec_configures`). -/
theorem cfgOutResult : Obligations.CfgOutResult := by
  intro s p level h hi hb hp hlevel
  have harg : csqArgError (.cfgOut p level) = none := by simp [csqArgError, levelError, hlevel]
  obtain ⟨t, ht, hcomp, hinop, hias, hwin, hbus, hother, -⟩ := exec_configures_next h hi (.cfgOut level) hp harg hb
  have hwindow : t.window = (rmwWindow s s.window .functionSelect p outputCode 0).drive p (decide (level = 1)) := hwin
  have hfunc : (rmwWindow s s.window .functionSelect p outputCode 0).func p = outputCode :=
    func_rmwWindow_own s s.window hp _ _
  refine ⟨t, rmwRead s s.window .functionSelect p 0, ht, hcomp, hinop, hias, ?_, ?_, ?_, hother,
    rmwRead_functionSelect_agrees s s.window hp 0, ?_⟩
  · rw [hwindow, Window.func_drive]; exact hfunc
  · rw [hwindow]; exact Window.latch_drive_own hp hfunc _
  · rw [hwindow]; exact (edgesKept_rmwWindow _ _ _ _ _ _).trans (edgesKept_drive _ _ _ _)
  · rw [hbus]
    simp only [instrUpdates, Run.updates, Run.update, Run.bus_level, Run.bus_rmw_functionSelect]
    rfl

/-- CFG_IN of a valid pin, undisturbed and with no failure. -/
theorem exec_cfgIn_next (h : Undisturbed s) (hi : s.inoperative = false) (hb : BusOk s 2) (hp : p < 54) :
    ∃ t, exec (.cfgIn p) s = .next t ∧ Completed s t 0 0 ∧ t.inoperative = false ∧ t.ias = s.ias ∧
      t.window = rmwWindow s s.window .functionSelect p inputCode 0 ∧
      t.bus = ((Run.start s).rmw s s.issuer .functionSelect p inputCode).bus ++ s.bus := by
  obtain ⟨t, ht, hcomp, hinop, hias, hwin, hbus, -, -⟩ := exec_configures_next h hi .cfgIn hp rfl hb
  exact ⟨t, ht, hcomp, hinop, hias, hwin, hbus⟩

/-- Settles O23: CFG_IN is one RMW that leaves the Input code. -/
theorem cfgInResult : Obligations.CfgInResult := by
  intro s p h hi hb hp
  obtain ⟨t, ht, hcomp, hinop, hias, hwindow, hbus⟩ := exec_cfgIn_next h hi hb hp
  refine ⟨t, rmwRead s s.window .functionSelect p 0, ht, hcomp, hinop, hias, ?_, ?_, ?_, ?_,
    rmwRead_functionSelect_agrees s s.window hp 0, ?_⟩
  · rw [hwindow]; exact func_rmwWindow_own s s.window hp _ _
  · rw [hwindow]; exact latch_rmwWindow_input s s.window hp _
  · rw [hwindow]; exact edgesKept_rmwWindow _ _ _ _ _ _
  · rw [hwindow]; exact otherPinsKept_rmwWindow s s.window hp _ _ _
  · rw [hbus, Run.bus_rmw_functionSelect]; rfl

/-- A move of the window hardware leaves every output latch and every function code (R59). -/
theorem latch_hardware {m : Move} (hm : hardwareMove m = true) (s : State) (k : Nat) :
    (makeMove m s).window.latch k = s.window.latch k := by
  obtain ⟨-, hlatch, -⟩ := hardware_keeps hm s
  rw [Window.latch, Window.latch, hlatch]

theorem func_hardware {m : Move} (hm : hardwareMove m = true) (s : State) (k : Nat) :
    (makeMove m s).window.func k = s.window.func k :=
  Window.func_congr (hardware_keeps hm s).1 k

/-- So do any number of them. -/
theorem func_runMoves {ms : List Move} (hms : ∀ m ∈ ms, hardwareMove m = true) (k : Nat) (s : State) :
    (runMoves ms s).window.func k = s.window.func k := by
  induction ms generalizing s with
  | nil => rfl
  | cons m ms ih =>
    exact (ih (fun m' h => hms m' (List.mem_cons_of_mem _ h)) _).trans
      (func_hardware (hms m (List.mem_cons_self ..)) s k)

/-- Settles O30: CFG_IN leaves the latch and makes the pin an Input, which no hardware move changes (`func_runMoves`),
and an Input reads as its external level. -/
theorem cfgInReportsExternalLevel : Obligations.CfgInReportsExternalLevel := by
  intro s p ms h hi hb hp hms
  obtain ⟨t, ht, hcomp, -, -, hwindow, -⟩ := exec_cfgIn_next h hi hb hp
  refine ⟨t, ht, hcomp, ?_, fun bits => ?_⟩
  · rw [hwindow]; exact latch_rmwWindow_input s s.window hp _
  · have hfunc : (runMoves ms t).window.func p = inputCode := by
      rw [func_runMoves (List.all_eq_true.1 hms), hwindow]
      exact func_rmwWindow_own s s.window hp _ _
    rw [Window.getLsbD_read_lev _ _ _ hp (val_ofNat_register hp).symm, Window.pinLevel, hfunc, if_neg (by decide),
      if_pos rfl]

/-! ### EDGE_EN -/

theorem edgeLock_ne (edge : Nat) : edgeLock edge ≠ .functionSelect := by rw [edgeLock]; split <;> simp

theorem familyBase_edgeLock (edge : Nat) : familyBase (edgeLock edge).family = if edge = 0 then 0x4C else 0x58 := by
  rw [edgeLock]; split <;> rfl

/-- The RMW that enables an edge leaves the function code and the latches, and enables that edge alone. -/
theorem rmwWindow_edgeLock (s : State) (w : Window) (hp : p < 54) (edge d : Nat) :
    (rmwWindow s w (edgeLock edge) p 1 d).func p = w.func p ∧
    (rmwWindow s w (edgeLock edge) p 1 d).latch p = w.latch p ∧
    (rmwWindow s w (edgeLock edge) p 1 d).pending p = w.pending p ∧
    (rmwWindow s w (edgeLock edge) p 1 d).rising p = (decide (edge = 0) || w.rising p) ∧
    (rmwWindow s w (edgeLock edge) p 1 d).falling p = (decide (edge ≠ 0) || w.falling p) := by
  by_cases h : edge = 0
  · rw [edgeLock, if_pos h, rising_rmwWindow_own s w hp]
    simp [h]
  · rw [edgeLock, if_neg h, falling_rmwWindow_own s w hp]
    simp [h]

/-- Settles O24: EDGE_EN is four RMWs: both enables of the pin become 0, its function Input, and then the enable asked
for 1 (`rmwWindow_edgeLock`). -/
theorem edgeEnResult : Obligations.EdgeEnResult := by
  intro s p edge h hi hb hp hedge
  have harg : csqArgError (.edgeEn p edge) = none := by simp [csqArgError, edgeError, hedge]
  obtain ⟨t, ht, hcomp, hinop, hias, hwin, hbus, hother, -⟩ := exec_configures_next h hi (.edgeEn edge) hp harg hb
  let w1 := rmwWindow s s.window .risingEdgeEnable p 0 0
  let w2 := rmwWindow s w1 .fallingEdgeEnable p 0 2
  let w3 := rmwWindow s w2 .functionSelect p inputCode 4
  have hwindow : t.window = rmwWindow s w3 (edgeLock edge) p 1 6 := hwin
  have hrising : w3.rising p = false := rising_rmwWindow_own s s.window hp _ _
  have hfalling : w3.falling p = false := falling_rmwWindow_own s w1 hp _ _
  have hnot : decide (edge ≠ 0) = decide (edge = 1) := by congr 1; simp; omega
  obtain ⟨hfunc, hlatch, hpending, hrise, hfall⟩ := rmwWindow_edgeLock s w3 hp edge 6
  rw [← hwindow] at hfunc hlatch hpending hrise hfall
  refine ⟨t, rmwRead s s.window .risingEdgeEnable p 0, rmwRead s w1 .fallingEdgeEnable p 2,
    rmwRead s w2 .functionSelect p 4, rmwRead s w3 (edgeLock edge) p 6, ht, hcomp, hinop, hias,
    hfunc.trans (func_rmwWindow_own s w2 hp _ _), ?_, ?_, hlatch.trans (latch_rmwWindow_input s w2 hp _), hpending,
    hother, ?_⟩
  · rw [hrise, hrising, Bool.or_false]
  · rw [hfall, hfalling, Bool.or_false, hnot]
  · rw [hbus]
    simp only [instrUpdates, Run.updates, Run.update, Run.bus_rmw_edge _ _ _ _ (edgeLock_ne edge),
      familyBase_edgeLock, Run.bus_rmw_functionSelect, Run.bus_rmw_falling, Run.bus_rmw_rising]
    rfl

/-! ### EDGE_DIS -/

/-- The window after EDGE_DIS of pin `p`, begun in `s` (R141). -/
def edgeDisWindow (s : State) (p : Nat) : Window :=
  rmwWindow s (rmwWindow s s.window .risingEdgeEnable p 0 0) .fallingEdgeEnable p 0 2

theorem rising_edgeDisWindow (s : State) (hp : p < 54) : (edgeDisWindow s p).rising p = false :=
  rising_rmwWindow_own s s.window hp _ _

theorem falling_edgeDisWindow (s : State) (hp : p < 54) : (edgeDisWindow s p).falling p = false :=
  falling_rmwWindow_own s _ hp _ _

/-- EDGE_DIS of a valid pin, undisturbed and with no failure. -/
theorem exec_edgeDis_next (h : Undisturbed s) (hi : s.inoperative = false) (hb : BusOk s 4) (hp : p < 54) :
    ∃ t, exec (.edgeDis p) s = .next t ∧ Completed s t 0 0 ∧ t.inoperative = false ∧ t.ias = s.ias ∧
      t.window = edgeDisWindow s p ∧
      t.bus = ((Run.start s).updates s s.issuer p (instrUpdates (.edgeDis p))).bus ++ s.bus ∧
      OtherPinsKept s.window t.window p ∧ ∀ k, t.drawAt k = s.drawAt (4 + k) :=
  exec_configures_next h hi .edgeDis hp rfl hb

/-- Settles O25: EDGE_DIS is two RMWs, which make the enables of the pin 0. -/
theorem edgeDisResult : Obligations.EdgeDisResult := by
  intro s p h hi hb hp
  obtain ⟨t, ht, hcomp, hinop, hias, hwindow, hbus, hother, -⟩ := exec_edgeDis_next h hi hb hp
  refine ⟨t, rmwRead s s.window .risingEdgeEnable p 0,
    rmwRead s (rmwWindow s s.window .risingEdgeEnable p 0 0) .fallingEdgeEnable p 2, ht, hcomp, hinop, hias,
    ?_, ?_, by rw [hwindow]; rfl, by rw [hwindow]; rfl, by rw [hwindow]; rfl, hother, ?_⟩
  · rw [hwindow]; exact rising_edgeDisWindow s hp
  · rw [hwindow]; exact falling_edgeDisWindow s hp
  · rw [hbus]
    simp only [instrUpdates, Run.updates, Run.update, Run.bus_rmw_falling, Run.bus_rmw_rising]
    rfl

/-- The requester of a completed operation can issue the next one, and nothing disturbs that either. -/
theorem undisturbed_of_completed {s t : State} {r0 r1 : Word} (h : Undisturbed s) (hcomp : Completed s t r0 r1)
    (hias : t.ias = s.ias) : Undisturbed t := by
  have hlocks : t.locks = Locks.free := hcomp.locks.trans h.locks
  refine { alive := hcomp.destroyed.trans h.alive, issuer := ?_, idle := ?_, agenda := hcomp.agenda.trans h.agenda,
           unlocked := fun g => by rw [hlocks, Locks.holder_free]; simp, locks := hlocks,
           scanner := (congrArg Scanner.busy hias).trans h.scanner }
  · rw [hcomp.issuer, hcomp.others.1]; exact h.issuer
  · rw [hcomp.issuer, ← Bool.not_eq_true]
    intro hf
    have hr := hcomp.response
    rw [readResponse_of_inFlight hf] at hr
    cases hr

/-- In the window it has left itself, EDGE_DIS changes nothing (R142). -/
theorem edgeDisWindow_twice {s t : State} (hp : p < 54) (ht : t.window = edgeDisWindow s p) :
    edgeDisWindow t p = t.window := by
  have hrising : rmwWindow t t.window .risingEdgeEnable p 0 0 = t.window := by
    refine rmwWindow_rising_fixed t t.window hp ?_ ?_ 0
    · rw [ht]; exact renAt_rmwWindow_canonical s s.window hp 0 0
    · rw [ht]; exact rising_edgeDisWindow s hp
  rw [edgeDisWindow, hrising]
  refine rmwWindow_falling_fixed t t.window hp ?_ ?_ 2
  · rw [ht]; exact fenAt_rmwWindow_canonical s _ hp 0 2
  · rw [ht]; exact falling_edgeDisWindow s hp

/-- Settles O28: the second EDGE_DIS finds both enables 0 (`edgeDisWindow_twice`). -/
theorem edgeDisTwice : Obligations.EdgeDisTwice := by
  intro s p h hi hb hp
  obtain ⟨t, ht, hcomp, hinop, hias, hwindow, -, hother, hdraws⟩ :=
    exec_edgeDis_next h hi (fun k hk => hb k (by omega)) hp
  obtain ⟨u, hu, hcomp', -, -, hwindow', -⟩ :=
    exec_edgeDis_next (undisturbed_of_completed h hcomp hias) hinop
      (fun k hk => by rw [hdraws]; exact hb _ (by omega)) hp
  refine ⟨t, u, ht, hu, hwindow'.trans (edgeDisWindow_twice hp hwindow), ?_, ?_, hother, hcomp, hcomp'⟩
  · rw [hwindow]; exact rising_edgeDisWindow s hp
  · rw [hwindow]; exact falling_edgeDisWindow s hp

end Sys2Proof.Machine
end

section
/-! PROOFS, family 41_configuration, the first failed transaction (R133): where it ends a configuration operation or
QUERY and what it leaves (O19), and a CFG_OUT whose last write fails (O20). -/

namespace Sys2Proof.Machine

open Sys2Proof.Safety

variable {s : State} {q p k : Nat} {x : Run} {temp : Word}

/-! ### Before and after the failure -/

/-- An operation on pin `p`, begun in `s`, has met no failure and has changed no other pin. -/
structure Run.Sound (s : State) (p : Nat) (x : Run) : Prop where
  ias : x.ias = s.ias
  length : x.bus.length = x.taken
  succeeded : ∀ y ∈ x.bus, Safety.failedTransaction y = false
  others : OtherPinsKept s.window x.window p

/-- An operation on pin `p`, begun in `s`, has met a failure after `k` transactions that succeeded: the block is
inoperative, the locks are free, and no other pin has changed (R133). -/
structure Run.Broken (s : State) (p k : Nat) (x : Run) : Prop where
  inoperative : x.inoperative = true
  locks : x.locks = Locks.free
  ias : x.ias = s.ias
  bus : ∃ y l, x.bus = y :: l ∧ Safety.failedTransaction y = true ∧ l.length = k ∧
    ∀ z ∈ l, Safety.failedTransaction z = false
  others : OtherPinsKept s.window x.window p

theorem Run.Sound.start (s : State) (p : Nat) : (Run.start s).Sound s p :=
  ⟨rfl, rfl, fun _ h => absurd h List.not_mem_nil, .refl _ _⟩

theorem Run.Sound.setLocks (h : x.Sound s p) (l : Locks) : Run.Sound s p { x with locks := l } :=
  ⟨h.ias, h.length, h.succeeded, h.others⟩

theorem Run.Sound.read (h : x.Sound s p) (q off : Nat) (v : Word) : (x.read q off v).Sound s p :=
  ⟨h.ias, congrArg (· + 1) h.length, List.forall_mem_cons.2 ⟨rfl, h.succeeded⟩, h.others⟩

theorem Run.Sound.update (h : x.Sound s p) (hp : p < 54) (u : Update) : (x.update s q p u).Sound s p := by
  have hothers := h.others.trans (otherPinsKept_update (s := s) (q := q) hp u)
  cases u with
  | rmw g v =>
    exact ⟨h.ias, congrArg (· + 2) h.length, List.forall_mem_cons.2 ⟨rfl, List.forall_mem_cons.2 ⟨rfl, h.succeeded⟩⟩,
      hothers⟩
  | level b => exact ⟨h.ias, congrArg (· + 1) h.length, List.forall_mem_cons.2 ⟨rfl, h.succeeded⟩, hothers⟩

theorem Run.Sound.failedRead (h : x.Sound s p) (hl : x.locks.dropAll q = Locks.free) (off : Nat) :
    (x.failedRead q off).Broken s p x.taken :=
  ⟨rfl, hl, h.ias, ⟨_, x.bus, rfl, rfl, h.length, h.succeeded⟩, h.others⟩

/-- After a failed write the register holds its old value or the one written (R73). -/
theorem Run.Sound.failedWrite (h : x.Sound s p) (hl : x.locks.dropAll q = Locks.free) (off : Nat) {r : Reg} {v : Word}
    (hw : OtherPinsKept x.window (x.window.write r v (s.drawAt x.taken).bits) p) :
    (x.failedWrite s q off r v).Broken s p x.taken := by
  refine ⟨rfl, hl, h.ias, ⟨_, x.bus, rfl, rfl, h.length, h.succeeded⟩, h.others.trans ?_⟩
  show OtherPinsKept x.window (x.windowAfter s r v) p
  rw [Run.windowAfter]
  split
  · exact .refl _ _
  · exact hw

/-! ### Where the failure ends the operation -/

section Running

variable (ha : s.agenda = []) (hq : q < s.ports.length) (hp : p < 54)
include ha hq hp

/-- The read of an RMW fails. -/
theorem drive_rmw_failedRead {rest : List Action} {n : Nat} (hx : x.Sound s p) (hl : x.locks = Locks.free)
    (hf : (s.drawAt x.taken).err = true) (g : LockFamily) (v : Word) (hn : 3 ≤ n) :
    ∃ x', drive n q (s.amid q x ⟨rmw g p v ++ rest, temp⟩) = s.ended q x' 5 0 ∧ x'.Broken s p x.taken := by
  obtain ⟨m, rfl⟩ := Nat.exists_eq_add_of_le' hn
  simp only [rmw, List.cons_append, List.nil_append]
  rw [drive_acquire ha hq g (by rw [hl]; exact Locks.holder_free g), drive_readField_err ha hq hp g (by exact hf)]
  refine ⟨_, rfl, (hx.setLocks (x.locks.assign g (some q))).failedRead ?_ _⟩
  rw [hl]; exact Locks.dropAll_assign_free g q

/-- The write of an RMW fails. -/
theorem drive_rmw_failedWrite {rest : List Action} {n : Nat} (hx : x.Sound s p) (hl : x.locks = Locks.free)
    (he : (s.drawAt x.taken).err = false) (hf : (s.drawAt (x.taken + 1)).err = true) (g : LockFamily) (v : Word)
    (hn : 4 ≤ n) :
    ∃ x', drive n q (s.amid q x ⟨rmw g p v ++ rest, temp⟩) = s.ended q x' 5 0 ∧ x'.Broken s p (x.taken + 1) := by
  obtain ⟨m, rfl⟩ := Nat.exists_eq_add_of_le' hn
  simp only [rmw, List.cons_append, List.nil_append]
  rw [drive_acquire ha hq g (by rw [hl]; exact Locks.holder_free g), drive_readField ha hq hp g (by exact he),
    drive_writeField_err ha hq hp g (by exact hf)]
  refine ⟨_, rfl, ((hx.setLocks (x.locks.assign g (some q))).read q (location p g.family).byteOffset
    (rmwRead s x.window g p x.taken)).failedWrite ?_ _ ?_⟩
  · rw [Run.read, hl]; exact Locks.dropAll_assign_free g q
  · exact otherPinsKept_rmwWindow s x.window hp g v x.taken

/-- A level write fails, done or not (R73). -/
theorem drive_level_failed {rest : List Action} {n : Nat} (hx : x.Sound s p) (hl : x.locks = Locks.free)
    (hf : (s.drawAt x.taken).err = true) (b : Bool) (hn : 2 ≤ n) :
    ∃ x', drive n q (s.amid q x ⟨.writeOne (levelFamily b) p :: rest, temp⟩) = s.ended q x' 5 0 ∧
      x'.Broken s p x.taken ∧ (x'.window = x.window ∨ x'.window = x.window.drive p b) := by
  obtain ⟨m, rfl⟩ := Nat.exists_eq_add_of_le' hn
  refine ⟨_, drive_writeOne_err ha hq hp (levelFamily_ne_readLevel b) hf m, hx.failedWrite ?_ _ ?_, ?_⟩
  · rw [hl]; exact Locks.dropAll_free q
  · rw [write_levelFamily]; exact otherPinsKept_drive x.window hp b
  · rw [Run.failedWrite, Run.windowAfter, write_levelFamily]
    split
    · exact .inl rfl
    · exact .inr rfl

/-- The first failed transaction of the updates ends the operation. -/
theorem drive_updates_failed {us : List Update} {n : Nat} (hx : x.Sound s p) (hl : x.locks = Locks.free)
    (hf : BusFailsAt s k) (hk : x.taken ≤ k) (hk' : k < x.taken + updateCost us)
    (hn : stepsWeight (updateSteps p us) ≤ n) :
    ∃ x', drive n q (s.amid q x ⟨updateSteps p us, temp⟩) = s.ended q x' 5 0 ∧ x'.Broken s p k := by
  induction us generalizing x temp n with
  | nil => exact absurd hk' (Nat.not_lt.2 hk)
  | cons u us ih =>
    cases u with
    | rmw g v =>
      rw [updateSteps, Update.steps, stepsWeight_rmw] at hn
      rw [updateCost, Update.cost] at hk'
      obtain rfl | hlt := Nat.eq_or_lt_of_le hk
      · exact drive_rmw_failedRead ha hq hp hx hl hf.2 g v (by omega)
      have hread := hf.1 _ hlt
      obtain rfl | hlt := Nat.eq_or_lt_of_le (Nat.succ_le_of_lt hlt)
      · exact drive_rmw_failedWrite ha hq hp hx hl hread hf.2 g v (by omega)
      obtain ⟨m, rfl⟩ := Nat.exists_eq_add_of_le' (show 4 ≤ n by omega)
      rw [updateSteps, Update.steps, drive_rmw ha hq hp g (by rw [hl]; exact Locks.holder_free g) hread (hf.1 _ hlt)]
      exact ih (hx.update hp (.rmw g v)) hl hlt (by simp only [Run.rmw]; omega) (by omega)
    | level b =>
      have hw : stepsWeight (updateSteps p us) + 2 ≤ n := hn
      rw [updateCost, Update.cost] at hk'
      obtain rfl | hlt := Nat.eq_or_lt_of_le hk
      · obtain ⟨x', hd, hbroken, -⟩ := drive_level_failed (n := n) ha hq hp hx hl hf.2 b (by omega)
        exact ⟨x', hd, hbroken⟩
      obtain ⟨m, rfl⟩ := Nat.exists_eq_add_of_le' (show 1 ≤ n by omega)
      rw [updateSteps, Update.steps, List.singleton_append, drive_level ha hq hp (hf.1 _ hlt)]
      exact ih (hx.update hp (.level b)) hl hlt (by simp only [Run.level]; omega) (by omega)

/-- The first failed transaction of QUERY ends it. -/
theorem drive_query_failed {n : Nat} (hx : x.Sound s p) (hl : x.locks = Locks.free) (hf : BusFailsAt s k)
    (hk : x.taken ≤ k)
    (hk' : k < x.taken + if x.window.func p = inputCode ∨ x.window.func p = outputCode then 2 else 1) (hn : 3 ≤ n) :
    ∃ x', drive n q (s.amid q x ⟨[.queryFunction p], temp⟩) = s.ended q x' 5 0 ∧ x'.Broken s p k := by
  have hfree : x.locks.dropAll q = Locks.free := by rw [hl]; exact Locks.dropAll_free q
  obtain ⟨m, rfl⟩ := Nat.exists_eq_add_of_le' hn
  obtain rfl | hlt := Nat.eq_or_lt_of_le hk
  · exact ⟨_, drive_queryFunction_err ha hq hp hf.2 (m + 1), hx.failedRead hfree _⟩
  by_cases hio : x.window.func p = inputCode ∨ x.window.func p = outputCode
  · rw [if_pos hio] at hk'
    obtain rfl : k = x.taken + 1 := by omega
    rw [drive_queryFunction ha hq hp (hf.1 _ hlt), if_pos hio]
    exact ⟨_, drive_queryLevel_err ha hq hp _ hf.2 m, (hx.read q _ _).failedRead hfree _⟩
  · rw [if_neg hio] at hk'
    omega

end Running

/-- A sequence that passes its checks and then ends with RegisterAccessFailure. -/
theorem exec_failed {i : Instr} {todo : List Action} {P : Run → Prop} (h : Alone s) (hi : s.inoperative = false)
    (hp : p < 54) (hsteps : instrSteps i = .check p none :: todo)
    (hd : ∃ x, drive (stepsWeight todo) s.issuer (s.amid s.issuer (.start s) ⟨todo, 0⟩) = s.ended s.issuer x 5 0 ∧
      P x) :
    ∃ x, exec i s = .next (s.ended s.issuer x 5 0) ∧ P x := by
  obtain ⟨x, hx, hP⟩ := hd
  refine ⟨x, ?_, hP⟩
  rw [exec_eq_perform, hsteps]
  exact perform_alone h.toReady (stepsWeight todo + 1) (Nat.le_succ _)
    ((drive_check h.agenda h.issuer hi (validPin_natCast hp) _).trans hx)

/-- Settles O19: the sequence of a configuration operation is its updates (`drive_updates_failed`), that of QUERY its
two reads (`drive_query_failed`). -/
theorem busFailureEndsCsqOperation : Obligations.BusFailureEndsCsqOperation := by
  intro s i p k h hi hcsq hp harg hk hf
  obtain ⟨x, hexec, hbroken⟩ : ∃ x, exec i s = .next (s.ended s.issuer x 5 0) ∧ x.Broken s p k := by
    obtain hc | rfl := configures_or_query hcsq
    · rw [hc.cost] at hk
      refine exec_failed h.toAlone hi hp (by rw [hc.steps, harg]) ?_
      exact drive_updates_failed h.agenda h.issuer hp (.start s p) h.locks hf (Nat.zero_le k)
        (by rw [Run.start, Nat.zero_add]; exact hk) le_rfl
    · refine exec_failed h.toAlone hi hp rfl ?_
      exact drive_query_failed h.agenda h.issuer hp (.start s p) h.locks hf (Nat.zero_le k)
        (by rw [Run.start, Nat.zero_add]; exact hk) (by simp [stepsWeight, actionWeight])
  obtain ⟨y, l, hbus, hy, hl, hok⟩ := hbroken.bus
  exact ⟨_, y, l, hexec, completed_ended h.issuer (hbroken.locks.trans h.locks.symm) 5 0, hbroken.inoperative,
    hbroken.locks, hbroken.ias, congrArg (· ++ s.bus) hbus, hy, hl, hok, hbroken.others⟩

/-! ### CFG_OUT whose last write fails -/

/-- Settles O20: the failed level write comes after the RMW that has made the pin an Output, and done or not it leaves
the function codes and the edges. -/
theorem cfgOutFailureKeepsFunction : Obligations.CfgOutFailureKeepsFunction := by
  intro s p level h hi hp hlevel hf
  have harg : csqArgError (.cfgOut p level) = none := by simp [csqArgError, levelError, hlevel]
  let x := (Run.start s).rmw s s.issuer .functionSelect p outputCode
  have hfunc : x.window.func p = 1 := func_rmwWindow_own s s.window hp _ _
  have hedges : EdgesKept s.window x.window p := edgesKept_rmwWindow s s.window p _ _ p
  obtain ⟨y, hexec, hbroken, hwindow⟩ : ∃ y, exec (.cfgOut p level) s = .next (s.ended s.issuer y 5 0) ∧
      y.Broken s p 2 ∧ (y.window = x.window ∨ y.window = x.window.drive p (decide (level = 1))) := by
    refine exec_failed h.toAlone hi hp (by rw [(Configures.cfgOut level).steps, harg]) ?_
    rw [instrUpdates, updateSteps, Update.steps, stepsWeight_rmw]
    have hfree : (Run.start s).locks.holder .functionSelect = none := by
      rw [Run.start, h.locks]; exact Locks.holder_free _
    rw [drive_rmw h.agenda h.issuer hp .functionSelect hfree (hf.1 0 (by omega)) (hf.1 1 (by omega))]
    exact drive_level_failed h.agenda h.issuer hp ((Run.Sound.start s p).update hp (.rmw _ _)) h.locks hf.2 _
      (Nat.le_add_left 2 _)
  have hpin : y.window.func p = 1 ∧ EdgesKept s.window y.window p := by
    obtain hw | hw := hwindow
    · rw [hw]; exact ⟨hfunc, hedges⟩
    · rw [hw, Window.func_drive]; exact ⟨hfunc, hedges.trans (edgesKept_drive x.window p _ p)⟩
  exact ⟨_, hexec, completed_ended h.issuer (hbroken.locks.trans h.locks.symm) 5 0, hbroken.inoperative, hpin.1,
    hbroken.others, hpin.2⟩

end Sys2Proof.Machine
end

section
/-! PROOFS, family 41_configuration, QUERY with no other agent moving and no failure: an Input or Output pin (O26) and a
pin in an alternate function (O27). -/

namespace Sys2Proof.Machine

open Sys2Proof.Safety

variable {s : State} {p : Nat}

/-- The field a read of ReadLevel shows for an Input or Output pin is its level (R55). -/
theorem getField_read_lev (w : Window) (hp : p < 54) (hio : w.func p = 0 ∨ w.func p = 1) (bits : Word) :
    getField (w.read (pinReg p .readLevel) bits) (location p .readLevel).bitOffset 1 =
      if (if w.func p = 1 then w.latch p else w.external p) then 1 else 0 := by
  rw [getField_one, (location_bit p (f := .readLevel) (by simp)).2.1, pinReg,
    Window.getLsbD_read_lev _ _ _ hp (val_ofNat_register hp).symm, Window.pinLevel]
  obtain h | h := hio
  · rw [h]; rfl
  · rw [h]; rfl

/-- The response of QUERY for an Input or Output pin, as one word (R93). -/
theorem queryIoResponse_eq (fn : Word) (level : Bool) :
    queryIoResponse fn (if level then 1 else 0) = (if level then 0x01000000 else 0) ||| 0x00010000 ||| (fn <<< 8) := by
  cases level <;> exact BitVec.or_zero

theorem queryAltResponse_eq (fn : Word) : queryAltResponse fn = fn <<< 8 := BitVec.or_zero

/-- A QUERY that runs alone completes as its reads end. -/
theorem exec_query_alone (h : Alone s) (hi : s.inoperative = false) (hp : p < 54) {x : Run} {r0 : Word}
    (hd : drive 3 s.issuer (s.amid s.issuer (.start s) ⟨[.queryFunction p], 0⟩) = s.ended s.issuer x r0 0) :
    exec (.query p) s = .next (s.ended s.issuer x r0 0) := by
  rw [exec_eq_perform]
  exact perform_alone h.toReady 4 (show 4 ≤ 5 by omega)
    ((drive_check h.agenda h.issuer (x := .start s) hi (validPin_natCast hp) 3).trans hd)

/-- Settles O26: the function read shows Input or Output, and the level read that follows shows the pin's level
(`getField_read_lev`). -/
theorem queryIoResult : Obligations.QueryIoResult := by
  intro s p h hi hb hp hio
  have hcode : (Run.start s).window.func p = inputCode ∨ (Run.start s).window.func p = outputCode := hio
  have hd := drive_queryFunction h.agenda h.issuer (x := .start s) (temp := 0) (rest := []) hp (hb 0 (by omega)) 2
  rw [if_pos hcode, drive_queryLevel h.agenda h.issuer hp _ (by exact hb 1 (by omega)) 0, Run.read,
    getField_read_lev _ hp (by exact hio), queryIoResponse_eq, (location_functionSelect p).1,
    (location_bit p (f := .readLevel) (by simp)).1] at hd
  exact ⟨_, s.window.read (pinReg p .functionSelect) (s.drawAt 0).bits,
    s.window.read (pinReg p .readLevel) (s.drawAt 1).bits, exec_query_alone h hi hp hd,
    completed_ended h.issuer rfl _ _, rfl, hi, rfl, rfl⟩

/-- Settles O27: the function read shows an alternate function, and QUERY answers its code. -/
theorem queryAlternateResult : Obligations.QueryAlternateResult := by
  intro s p h hi hb hp hin hout
  have hcode : ¬((Run.start s).window.func p = inputCode ∨ (Run.start s).window.func p = outputCode) :=
    not_or.2 ⟨hin, hout⟩
  have hd := drive_queryFunction h.agenda h.issuer (x := .start s) (temp := 0) (rest := []) hp (hb 0 (by omega)) 2
  rw [if_neg hcode, drive_respond h.agenda h.issuer 1, queryAltResponse_eq, (location_functionSelect p).1] at hd
  exact ⟨_, s.window.read (pinReg p .functionSelect) (s.drawAt 0).bits, exec_query_alone h hi hp hd,
    completed_ended h.issuer rfl _ _, rfl, hi, rfl, rfl⟩

end Sys2Proof.Machine
end

section
/-! PROOFS, family 41_configuration, the locks: an RMW loses no update (O54), and two EDGE_EN of one pin may interleave
so that both edges are enabled (O56). -/

namespace Sys2Proof.Machine

open Sys2Proof.Safety

/-! ### Between the read and the write of an RMW -/

/-- An operation that is about to write holds the lock of the family (R131). -/
theorem holder_of_writeField {s : State} (hI : Inv s) {q : Nat} {g : LockFamily} {pin : Int} {v temp : Word}
    {rest : List Action} (hf : s.flightOf q = some ⟨.writeField g pin v :: rest, temp⟩) :
    s.locks.holder g = some q := by
  obtain ⟨l, hpos, hl⟩ := hI.sequence q _ hf
  exact (hl g).2 (position_writeField hpos).1

/-- Settles O54: the lock of the family keeps its registers from the other agents (`runMoves_keeps`), and the write
changes the field of its own pin alone (`lockField_windowAfter`). -/
theorem rmwNeverLosesUpdate : Obligations.RmwNeverLosesUpdate := by
  intro s q p g v temp rest ms hI hf hp hms
  obtain ⟨hI', hf', hstored, -, -⟩ := runMoves_keeps hI hf ms hms
  have hkept : ∀ k, k < 54 → lockField (runMoves ms s).window g k = lockField s.window g k := fun k hk =>
    lockField_congr (fun r hr => hstored g r hr (holder_of_writeField hI hf)) hk
  refine ⟨hkept, fun he k hk hne => ?_⟩
  rw [advance_writeField hf' hp he]
  exact (lockField_windowAfter hI' hf' hp hk hne).trans (hkept k hk)

/-! ### Steps of one operation -/

/-- Steps of the operation of port `q` alone that make `n` transactions, with no failure, lead from `s` to `t`, where
the operation is at `f`, the locks are `l` and the window is `w`. -/
structure Reaches (q n : Nat) (f : Flight) (l : Locks) (w : Window) (s t : State) : Prop where
  flight : t.flightOf q = some f
  locks : t.locks = l
  window : t.window = w
  others : ∀ r, r ≠ q → t.ports[r]? = s.ports[r]?
  inoperative : t.inoperative = s.inoperative
  draws : ∀ k, t.drawAt k = s.drawAt (n + k)

section Reaches

variable {s t u : State} {q p n m : Nat} {f f' : Flight} {l l' : Locks} {w w' : Window} {temp : Word}
  {rest : List Action}

theorem Reaches.trans (h : Reaches q n f l w s t) (h' : Reaches q m f' l' w' t u) : Reaches q (n + m) f' l' w' s u where
  flight := h'.flight
  locks := h'.locks
  window := h'.window
  others r hr := (h'.others r hr).trans (h.others r hr)
  inoperative := h'.inoperative.trans h.inoperative
  draws k := by rw [h'.draws, h.draws, Nat.add_assoc]

theorem Reaches.flightOf_ne (h : Reaches q n f l w s t) {r : Nat} (hr : r ≠ q) : t.flightOf r = s.flightOf r := by
  simp only [State.flightOf, h.others r hr]

theorem Reaches.busOk (h : Reaches q n f l w s t) (hb : BusOk s (n + m)) : BusOk t m := fun k hk => by
  rw [h.draws]; exact hb _ (by omega)

/-- The position of the operation is updated last. -/
theorem Reaches.setTodo (h : Reaches q n f l w s t) (todo : List Action) :
    Reaches q n ⟨todo, f.temp⟩ l w s (t.setTodo q todo) where
  flight := by simp [h.flight]
  locks := h.locks
  window := h.window
  others r hr := (t.ports_modifyPort_ne q _ hr).trans (h.others r hr)
  inoperative := h.inoperative
  draws := h.draws

theorem Reaches.setTemp (h : Reaches q n f l w s t) (v : Word) : Reaches q n ⟨f.todo, v⟩ l w s (t.setTemp q v) where
  flight := by simp [h.flight]
  locks := h.locks
  window := h.window
  others r hr := (t.ports_modifyPort_ne q _ hr).trans (h.others r hr)
  inoperative := h.inoperative
  draws := h.draws

theorem reaches_check (hf : s.flightOf q = some ⟨.check p none :: rest, temp⟩) (hp : p < 54)
    (hi : s.inoperative = false) : Reaches q 0 ⟨rest, temp⟩ s.locks s.window s (advance q s) := by
  have hs : Reaches q 0 _ s.locks s.window s s :=
    ⟨hf, rfl, rfl, fun _ _ => rfl, rfl, fun k => by rw [Nat.zero_add]⟩
  rw [advance_check hf hp hi]
  exact hs.setTodo rest

theorem reaches_acquire {g : LockFamily} (hf : s.flightOf q = some ⟨.acquire g :: rest, temp⟩)
    (hl : s.locks.holder g = none) :
    Reaches q 0 ⟨rest, temp⟩ (s.locks.assign g (some q)) s.window s (advance q s) := by
  have hs : Reaches q 0 _ _ s.window s (s.setLock g (some q)) :=
    ⟨hf, rfl, rfl, fun _ _ => rfl, rfl, fun k => by rw [Nat.zero_add, State.drawAt_setLock]⟩
  rw [advance_acquire hf hl]
  exact hs.setTodo rest

theorem reaches_release {g : LockFamily} (hf : s.flightOf q = some ⟨.release g :: rest, temp⟩) :
    Reaches q 0 ⟨rest, temp⟩ (s.locks.assign g none) s.window s (advance q s) := by
  have hs : Reaches q 0 _ _ s.window s (s.setLock g none) :=
    ⟨hf, rfl, rfl, fun _ _ => rfl, rfl, fun k => by rw [Nat.zero_add, State.drawAt_setLock]⟩
  rw [advance_release hf]
  exact hs.setTodo rest

theorem reaches_readField {g : LockFamily} (hf : s.flightOf q = some ⟨.readField g p :: rest, temp⟩) (hp : p < 54)
    (he : (s.drawAt 0).err = false) :
    Reaches q 1 ⟨rest, rmwRead s s.window g p 0⟩ s.locks s.window s (advance q s) := by
  have hs : Reaches q 1 _ s.locks s.window s (s.afterRead q (location p g.family).byteOffset
      (some (rmwRead s s.window g p 0))) :=
    ⟨hf, rfl, rfl, fun _ _ => rfl, rfl, fun k => by rw [State.drawAt_afterRead, Nat.add_comm]⟩
  rw [advance_readField hf hp he]
  exact (hs.setTemp (rmwRead s s.window g p 0)).setTodo rest

theorem reaches_writeField {g : LockFamily} {v : Word} (hf : s.flightOf q = some ⟨.writeField g p v :: rest, temp⟩)
    (hp : p < 54) (he : (s.drawAt 0).err = false) :
    Reaches q 1 ⟨rest, temp⟩ s.locks (s.window.write (pinReg p g.family) (rmwWord g p temp v) (s.drawAt 0).bits) s
      (advance q s) := by
  have hs : Reaches q 1 _ s.locks (s.window.write (pinReg p g.family) (rmwWord g p temp v) (s.drawAt 0).bits) s
      (s.afterWrite q (location p g.family).byteOffset (pinReg p g.family) (rmwWord g p temp v)) :=
    ⟨hf, rfl, if_neg (by rw [he]; simp), fun _ _ => rfl, rfl, fun k => by rw [State.drawAt_afterWrite, Nat.add_comm]⟩
  rw [advance_writeField hf hp he]
  exact hs.setTodo rest

/-- The four steps of an RMW whose lock is free (R131). -/
theorem reaches_rmw {g : LockFamily} {v : Word} (hf : s.flightOf q = some ⟨rmw g p v ++ rest, temp⟩) (hp : p < 54)
    (hl : s.locks.holder g = none) (hb : BusOk s 2) :
    Reaches q 2 ⟨rest, rmwRead s s.window g p 0⟩ s.locks (rmwWindow s s.window g p v 0) s
      (runSteps [q, q, q, q] s) := by
  have r1 := reaches_acquire hf hl
  have r2 := r1.trans (reaches_readField r1.flight hp (by rw [r1.draws]; exact hb 0 (by omega)))
  have r3 := r2.trans (reaches_writeField r2.flight hp (by rw [r2.draws]; exact hb 1 (by omega)))
  have r4 := r3.trans (reaches_release r3.flight)
  have hread : rmwRead (advance q s) s.window g p 0 = rmwRead s s.window g p 0 := by rw [rmwRead, rmwRead, r1.draws]
  rw [r3.locks, r2.locks, r1.locks, locks_restored hl, r3.window, r2.window, r1.window, r2.draws] at r4
  rw [hread] at r4
  exact r4

/-! ### EDGE_EN in two stretches -/

/-- The steps of EDGE_EN up to its last RMW. -/
def clearTurns (q : Nat) : List Nat := q :: ([q, q, q, q] ++ ([q, q, q, q] ++ [q, q, q, q]))

/-- The last RMW of EDGE_EN and its response. -/
def enableTurns (q : Nat) : List Nat := [q, q, q, q] ++ [q]

theorem runSteps_append (a b : List Nat) (s : State) : runSteps (a ++ b) s = runSteps b (runSteps a s) :=
  List.foldl_append

theorem runSteps_cons (q : Nat) (a : List Nat) (s : State) : runSteps (q :: a) s = runSteps a (advance q s) := rfl

/-- EDGE_EN up to its last RMW makes the pin an Input (R139). -/
theorem reaches_clear {edge : Nat} (hedge : edge ≤ 1) (hf : s.flightOf q = some ⟨edgeEnSteps p edge, temp⟩)
    (hp : p < 54) (hi : s.inoperative = false) (hl : s.locks = Locks.free) (hb : BusOk s 6) :
    ∃ temp' w, w.func p = 0 ∧
      Reaches q 6 ⟨rmw (edgeLock edge) p 1 ++ [respondOk], temp'⟩ s.locks w s (runSteps (clearTurns q) s) := by
  have harg : csqArgError (.edgeEn p edge) = none := by simp [csqArgError, edgeError, hedge]
  have hsteps := (Configures.edgeEn (p := p) edge).steps
  rw [harg] at hsteps
  have hfree : ∀ {x : State}, x.locks = s.locks → ∀ g, x.locks.holder g = none := fun hx g => by
    rw [hx, hl]; exact Locks.holder_free g
  have r0 := reaches_check (hf.trans (by rw [← instrSteps, hsteps])) hp hi
  have r1 := r0.trans (reaches_rmw r0.flight hp (hfree r0.locks _) (r0.busOk fun k hk => hb k (by omega)))
  rw [r0.locks] at r1
  have r2 := r1.trans (reaches_rmw r1.flight hp (hfree r1.locks _) (r1.busOk fun k hk => hb k (by omega)))
  rw [r1.locks] at r2
  have r3 := r2.trans (reaches_rmw r2.flight hp (hfree r2.locks _) (r2.busOk fun k hk => hb k (by omega)))
  rw [r2.locks] at r3
  rw [clearTurns, runSteps_cons, runSteps_append, runSteps_append]
  refine ⟨_, _, ?_, r3⟩
  rw [func_rmwWindow_own _ _ hp]
  rfl

/-- The last RMW of EDGE_EN and its response (R139). -/
theorem enable_completes {edge : Nat} (hf : s.flightOf q = some ⟨rmw (edgeLock edge) p 1 ++ [respondOk], temp⟩)
    (hp : p < 54) (hl : s.locks = Locks.free) (hb : BusOk s 2) :
    readResponse q (runSteps (enableTurns q) s) = some (0, 0) ∧
    (∀ r, r ≠ q → (runSteps (enableTurns q) s).ports[r]? = s.ports[r]?) ∧
    (runSteps (enableTurns q) s).locks = s.locks ∧
    (∀ k, (runSteps (enableTurns q) s).drawAt k = s.drawAt (2 + k)) ∧
    (runSteps (enableTurns q) s).window = rmwWindow s s.window (edgeLock edge) p 1 0 := by
  have r := reaches_rmw hf hp (by rw [hl]; exact Locks.holder_free _) hb
  have hend : runSteps (enableTurns q) s = (runSteps [q, q, q, q] s).finish q plainResponse 0 :=
    (runSteps_append [q, q, q, q] [q] s).trans (advance_respond r.flight)
  rw [hend]
  exact ⟨readResponse_finish ((State.inFlight_iff _ q).2 ⟨_, r.flight⟩) _ _,
    fun k hk => (State.ports_modifyPort_ne _ q _ hk).trans (r.others k hk), r.locks, r.draws, r.window⟩

end Reaches

/-- Settles O56: both operations run up to their last RMW, which makes the pin an Input; then the first enables the
rising edge and the second the falling one. -/
theorem edgeEnBothEdgesRace : Obligations.EdgeEnBothEdgesRace := by
  intro s q r p hi hl hb hqr hq hr hqi hri hp
  refine ⟨clearTurns q ++ (clearTurns r ++ (enableTurns q ++ enableTurns r)), ?_⟩
  rw [runSteps_append, runSteps_append, runSteps_append]
  set s₀ := begin r (edgeEnSteps p 1) (begin q (edgeEnSteps p 0) s) with hs₀
  have hfq : s₀.flightOf q = some ⟨edgeEnSteps p 0, 0⟩ := by
    rw [hs₀, flightOf_begin, if_neg hqr.symm, flightOf_begin, if_pos rfl, if_pos hq]
  have hfr : s₀.flightOf r = some ⟨edgeEnSteps p 1, 0⟩ := by
    rw [hs₀, flightOf_begin, if_pos rfl, if_pos (by simpa using hr)]
  have hb₀ : BusOk s₀ (6 + (6 + (2 + 2))) := hb
  obtain ⟨_, _, -, hA⟩ := reaches_clear (by omega) hfq hp hi hl (fun k hk => hb₀ k (by omega))
  set s₁ := runSteps (clearTurns q) s₀
  have hl₁ : s₁.locks = Locks.free := hA.locks.trans hl
  have hb₁ : BusOk s₁ (6 + (2 + 2)) := hA.busOk hb₀
  obtain ⟨_, w, hfunc, hB⟩ := reaches_clear le_rfl ((hA.flightOf_ne hqr.symm).trans hfr) hp (hA.inoperative.trans hi)
    hl₁ (fun k hk => hb₁ k (by omega))
  set s₂ := runSteps (clearTurns r) s₁
  have hl₂ : s₂.locks = Locks.free := hB.locks.trans hl₁
  have hb₂ : BusOk s₂ (2 + 2) := hB.busOk hb₁
  obtain ⟨hresp, hports, hl₃, hdraws, hwin₃⟩ := enable_completes ((hB.flightOf_ne hqr).trans hA.flight) hp hl₂
    (fun k hk => hb₂ k (by omega))
  set s₃ := runSteps (enableTurns q) s₂
  have hfr₃ : s₃.flightOf r = s₂.flightOf r := by simp only [State.flightOf, hports r hqr.symm]
  obtain ⟨hresp', hports', -, -, hwin₄⟩ := enable_completes (hfr₃.trans hB.flight) hp (hl₃.trans hl₂)
    (fun k hk => by rw [hdraws]; exact hb₂ _ (by omega))
  obtain ⟨hfunc₃, -, -, hrising₃, -⟩ := rmwWindow_edgeLock s₂ s₂.window hp 0 0
  obtain ⟨hfunc₄, -, -, hrising₄, hfalling₄⟩ := rmwWindow_edgeLock s₃ s₃.window hp 1 0
  rw [← hwin₃, hB.window] at hfunc₃
  rw [← hwin₃] at hrising₃
  rw [← hwin₄] at hfunc₄ hrising₄ hfalling₄
  refine ⟨(readResponse_congr (hports' q hqr)).trans hresp, hresp', ?_, ?_, (hfunc₄.trans hfunc₃).trans hfunc⟩
  · rw [hrising₄, hrising₃]; rfl
  · rw [hfalling₄]; rfl

end Sys2Proof.Machine
end

section
/-! PROOFS, family 41_configuration, interleavings: CFG_OUT of one pin and CFG_IN of another, each wherever it is in its
sequence (O55). -/

namespace Sys2Proof.Machine

open Sys2Proof.Safety

variable {s t x : State} {q r p p' level n : Nat}

/-! ### CFG_OUT and CFG_IN, wherever they are -/

/-- CFG_OUT of pin `p` on port `q`, somewhere in its sequence: where it is past its write the pin is an Output, and
where only its response is left the pin is driven to the level. -/
structure OutStage (q p level : Nat) (s : State) : Prop where
  stage : Stage q p outputCode (beforeWrite p) (afterWriteOut p level) s
  driven : Driven q p (decide (level = 1)) s

/-- CFG_IN of pin `p` on port `q`, somewhere in its sequence. -/
def InStage (q p : Nat) (s : State) : Prop :=
  Stage q p inputCode (beforeWrite p) [.release .functionSelect] s

theorem outputCode_masked : outputCode &&& lowMask 3 = outputCode := by decide

theorem inputCode_masked : inputCode &&& lowMask 3 = inputCode := by decide

/-- The step of CFG_IN between its write and its response. -/
theorem afterWriteIn_good (p : Nat) :
    ∀ a ∈ [Action.release .functionSelect], Good p a ∧ ∀ k w, a ≠ .writeField .functionSelect k w := by
  intro a ha
  obtain rfl := List.mem_singleton.1 ha
  exact ⟨.release _, by simp⟩

/-- CFG_OUT as it begins. -/
theorem outStage_of_begun {f : Flight} (hlevel : level ≤ 1) (hf : s.flightOf q = some f)
    (htodo : f.todo = cfgOutSteps p level) : OutStage q p level s := by
  obtain ⟨todo, temp⟩ := f
  obtain rfl : todo = _ := htodo
  rw [cfgOutSteps_eq hlevel] at hf
  exact ⟨.inl ⟨_, temp, List.suffix_refl _, hf⟩, driven_early hf (by simp [beforeWrite])⟩

/-- CFG_IN as it begins. -/
theorem inStage_of_begun {f : Flight} (hf : s.flightOf q = some f) (htodo : f.todo = cfgInSteps p) :
    InStage q p s := by
  obtain ⟨todo, temp⟩ := f
  obtain rfl : todo = _ := htodo
  exact .inl ⟨_, temp, List.suffix_refl _, hf⟩

/-- CFG_OUT's own step. -/
theorem OutStage.own (h : OutStage q p level s) (hI : Inv s) (hp : p < 54) (hi : s.inoperative = false)
    (he : (s.drawAt 0).err = false) : OutStage q p level (advance q s) ∧ (advance q s).inoperative = false := by
  obtain ⟨hstage, hop⟩ := stage_own hI hp outputCode_masked
    (fun a ha => ⟨(beforeWrite_good p a ha).1, (beforeWrite_good p a ha).2 p⟩)
    (fun a ha => ⟨(afterWriteOut_good p level a ha).1, (afterWriteOut_good p level a ha).2 p⟩) hi he h.stage
  exact ⟨⟨hstage, driven_own hI hp hi he h.stage h.driven⟩, hop⟩

/-- A move that leaves the port, the pin's function code and, while the pin is an Output, its latch. -/
theorem OutStage.other (h : OutStage q p level s) (hports : t.ports[q]? = s.ports[q]?)
    (hfunc : t.window.func p = s.window.func p)
    (hlatch : s.window.func p = outputCode → t.window.latch p = s.window.latch p) : OutStage q p level t :=
  ⟨stage_other hports hfunc h.stage, driven_other hports hlatch h.stage h.driven⟩

/-- A complete CFG_OUT has answered OK, and its pin is an Output driven to the level. -/
theorem OutStage.complete (h : OutStage q p level s) (hf : s.flightOf q = none) :
    readResponse q s = some (0, 0) ∧ s.window.func p = 1 ∧ s.window.latch p = decide (level = 1) := by
  obtain ⟨l, temp, -, hf'⟩ | ⟨l, temp, -, hf', -⟩ | ⟨-, hr, hfunc⟩ := h.stage
  · rw [hf] at hf'; cases hf'
  · rw [hf] at hf'; cases hf'
  · exact ⟨hr, hfunc, h.driven.2 hf⟩

/-- A complete CFG_IN has answered OK, and its pin is an Input. -/
theorem InStage.complete (h : InStage q p s) (hf : s.flightOf q = none) :
    readResponse q s = some (0, 0) ∧ s.window.func p = 0 := by
  obtain ⟨l, temp, -, hf'⟩ | ⟨l, temp, -, hf', -⟩ | ⟨-, hr, hfunc⟩ := h
  · rw [hf] at hf'; cases hf'
  · rw [hf] at hf'; cases hf'
  · exact ⟨hr, hfunc⟩

theorem InStage.own (h : InStage q p s) (hI : Inv s) (hp : p < 54) (hi : s.inoperative = false)
    (he : (s.drawAt 0).err = false) : InStage q p (advance q s) ∧ (advance q s).inoperative = false :=
  stage_own hI hp inputCode_masked
    (fun a ha => ⟨(beforeWrite_good p a ha).1, (beforeWrite_good p a ha).2 p⟩)
    (fun a ha => ⟨(afterWriteIn_good p a ha).1, (afterWriteIn_good p a ha).2 p⟩) hi he h

/-- CFG_OUT never writes another pin's function code. -/
theorem OutStage.func_ne (h : OutStage q p level s) (hI : Inv s) {k : Nat} (hk : k < 54) (hne : k ≠ p) :
    (advance q s).window.func k = s.window.func k :=
  func_advance hI hk (stage_head hne (fun a ha => (beforeWrite_good p a ha).2 k)
    (fun a ha => (afterWriteOut_good p level a ha).2 k) h.stage)

/-- CFG_IN never writes another pin's function code. -/
theorem InStage.func_ne (h : InStage q p s) (hI : Inv s) {k : Nat} (hk : k < 54) (hne : k ≠ p) :
    (advance q s).window.func k = s.window.func k :=
  func_advance hI hk (stage_head hne (fun a ha => (beforeWrite_good p a ha).2 k)
    (fun a ha => (afterWriteIn_good p a ha).2 k) h)

/-- CFG_IN leaves the latch of another pin that is an Output. -/
theorem InStage.latch_ne (h : InStage q p s) (hI : Inv s) (hp : p < 54) (hi : s.inoperative = false)
    (he : (s.drawAt 0).err = false) {k : Nat} (hk : k < 54) (hne : k ≠ p) (hfk : s.window.func k = outputCode) :
    (advance q s).window.latch k = s.window.latch k :=
  stage_latch hI hp (fun a ha => (beforeWrite_good p a ha).1) (fun a ha => (afterWriteIn_good p a ha).1) hi he h hk hne
    hfk

theorem OutStage.hardware (h : OutStage q p level s) {m : Move} (hm : hardwareMove m = true) :
    OutStage q p level (makeMove m s) :=
  h.other (by rw [(hardware_keeps hm s).2.2.1]) (func_hardware hm s p) (fun _ => latch_hardware hm s p)

/-! ### Both at once -/

/-- CFG_OUT of pin `p` on port `q` and CFG_IN of pin `p'` on port `r` are under way, and the next `n` transactions do
not fail. -/
structure Both (q r p p' level n : Nat) (s : State) : Prop where
  inv : Inv s
  operative : s.inoperative = false
  bus : BusOk s n
  out : OutStage q p level s
  inp : InStage r p' s

theorem busOk_makeMove {m : Move} (hm : ∀ r w, m ≠ .request r w) (hb : BusOk s (n + 1)) : BusOk (makeMove m s) n := by
  obtain ⟨d, hd, hdraws⟩ := drawAt_makeMove hm s
  exact fun k hk => by rw [hdraws]; exact hb _ (by omega)

/-- A step of either, or of the window hardware. -/
theorem Both.move (h : Both q r p p' level (n + 1) s) (hqr : q ≠ r) (hp : p < 54) (hp' : p' < 54) (hne : p ≠ p')
    {m : Move} (hm : m = .advance q ∨ m = .advance r ∨ hardwareMove m = true) :
    Both q r p p' level n (makeMove m s) := by
  have he : (s.drawAt 0).err = false := h.bus 0 (Nat.succ_pos n)
  have hI := inv_makeMove h.inv m
  have hbus : BusOk (makeMove m s) n := busOk_makeMove (by rintro r w rfl; simp [hardwareMove] at hm) h.bus
  obtain rfl | rfl | hm := hm
  · obtain ⟨hout, hop⟩ := h.out.own h.inv hp h.operative he
    exact ⟨hI, hop, hbus, hout, stage_other ((advance_stepBy h.inv q).others r hqr.symm)
      (h.out.func_ne h.inv hp' hne.symm) h.inp⟩
  · obtain ⟨hinp, hop⟩ := h.inp.own h.inv hp' h.operative he
    exact ⟨hI, hop, hbus, h.out.other ((advance_stepBy h.inv r).others q hqr) (h.inp.func_ne h.inv hp hne)
      (h.inp.latch_ne h.inv hp' h.operative he hp hne), hinp⟩
  · obtain ⟨-, -, hports, -, hop, -, -⟩ := hardware_keeps hm s
    exact ⟨hI, hop.trans h.operative, hbus, h.out.hardware hm,
      stage_other (by rw [hports]) (func_hardware hm s p') h.inp⟩

theorem Both.moves (hqr : q ≠ r) (hp : p < 54) (hp' : p' < 54) (hne : p ≠ p') {ms : List Move}
    (hms : ∀ m ∈ ms, m = .advance q ∨ m = .advance r ∨ hardwareMove m = true)
    (h : Both q r p p' level ms.length s) : Both q r p p' level 0 (runMoves ms s) := by
  induction ms generalizing s with
  | nil => exact h
  | cons m ms ih =>
    exact ih (fun m' hm' => hms m' (List.mem_cons_of_mem _ hm')) (h.move hqr hp hp' hne (hms m (List.mem_cons_self ..)))

/-- Settles O55: both operations stay somewhere in their sequences whatever moves (`Both.moves`), and at the end of them
are the answers and the function codes asked for. -/
theorem concurrentConfigKeepsBoth : Obligations.ConcurrentConfigKeepsBoth := by
  intro s q r p p' level ms hI hidle hd hi hb hqr hq hr hne hp hp' hlevel hms t hqt hrt
  have hflight := State.flightOf_of_quiescent hidle
  set s₁ := begin q (cfgOutSteps p level) s with hs₁
  set s₂ := begin r (cfgInSteps p') s₁ with hs₂
  have hI₁ : Inv s₁ := inv_begin hI ((s.inFlight_false q).2 (hflight q)) hd (startOk_instrSteps (.cfgOut p level))
  have hr₁ : s₁.flightOf r = none := by rw [hs₁, flightOf_begin, if_neg hqr]; exact hflight r
  have hI₂ : Inv s₂ := inv_begin hI₁ ((s₁.inFlight_false r).2 hr₁) hd (startOk_instrSteps (.cfgIn p'))
  have hfq : s₂.flightOf q = some ⟨cfgOutSteps p level, 0⟩ := by
    rw [hs₂, flightOf_begin, if_neg hqr.symm, hs₁, flightOf_begin, if_pos rfl, if_pos hq]
  have hfr : s₂.flightOf r = some ⟨cfgInSteps p', 0⟩ := by
    rw [hs₂, flightOf_begin, if_pos rfl, if_pos (by simpa [hs₁] using hr)]
  have hstart : Both q r p p' level ms.length s₂ :=
    ⟨hI₂, hi, hb, outStage_of_begun hlevel hfq rfl, inStage_of_begun hfr rfl⟩
  have hend := hstart.moves hqr hp hp' hne hms
  obtain ⟨hresp, hfunc, hlatch⟩ := hend.out.complete ((State.inFlight_false _ q).1 hqt)
  obtain ⟨hresp', hfunc'⟩ := hend.inp.complete ((State.inFlight_false _ r).1 hrt)
  exact ⟨hresp, hresp', hfunc, hlatch, hfunc'⟩

end Sys2Proof.Machine
end

section
/-! PROOFS, family 41_configuration: CFG_OUT and then QUERY, among moves of the window hardware (O29). -/

namespace Sys2Proof.Machine

open Sys2Proof.Safety

variable {s t x : State} {q p level extra : Nat}

/-! ### CFG_OUT among hardware moves -/

/-- What no step of the operation on port `q` and no move of the window hardware changes (R204). -/
structure Lives (q : Nat) (s : State) : Prop where
  alive : s.destroyed = false
  issuer : s.issuer = q

theorem Lives.advance (h : Lives q s) (hI : Inv s) : Lives q (advance q s) :=
  ⟨(advance_stepBy hI q).destroyed.trans h.alive, (advance_stepBy hI q).issuer.trans h.issuer⟩

theorem Lives.hardware (h : Lives q s) {m : Move} (hm : hardwareMove m = true) : Lives q (makeMove m s) := by
  obtain ⟨-, -, -, -, -, hdestroyed, hissuer⟩ := hardware_keeps hm s
  exact ⟨hdestroyed.trans h.alive, hissuer.trans h.issuer⟩

/-- CFG_OUT never claims the scanner. -/
theorem OutStage.no_claim (h : OutStage q p level s) {f : Flight} (hf : s.flightOf q = some f) (rest : List Action) :
    f.todo ≠ .claimScanner :: rest := by
  have hnot : ∀ {a : Action}, Good p a → a ≠ .claimScanner := by rintro a ha rfl; cases ha
  intro e
  obtain ⟨l, temp, hl, hf'⟩ | ⟨l, temp, hl, hf', -⟩ | ⟨hf', -⟩ := h.stage
  · rw [hf'] at hf; cases hf
    cases l with
    | nil => simp at e
    | cons a l => exact hnot (beforeWrite_good p a (hl.subset (List.mem_cons_self ..))).1 (List.cons.inj e).1
  · rw [hf'] at hf; cases hf
    cases l with
    | nil => simp [respondOk] at e
    | cons a l => exact hnot (afterWriteOut_good p level a (hl.subset (List.mem_cons_self ..))).1 (List.cons.inj e).1
  · rw [hf'] at hf; cases hf

/-- CFG_OUT runs to its end among hardware moves: it has driven the pin, and leaves the draws of `extra` more
transactions good. -/
theorem calm_cfgOut (hp : p < 54) (h : Calm q extra s) (hlives : Lives q s) (hout : OutStage q p level s) :
    Calm q extra (settle q s) ∧ Lives q (settle q s) ∧ OutStage q p level (settle q s) ∧
      (settle q s).flightOf q = none := by
  obtain ⟨hcalm, ⟨hlives', hout'⟩, hidle⟩ := calm_settle (P := fun x => Lives q x ∧ OutStage q p level x)
    (fun x hx _ he ⟨hl, ho⟩ => by
      obtain ⟨ho', hop⟩ := ho.own hx.inv hp hx.op he
      exact ⟨⟨hl.advance hx.inv, ho'⟩, hop, fun f hf => ho'.no_claim hf⟩)
    (fun x m hm ⟨hl, ho⟩ => ⟨hl.hardware hm, ho.hardware hm⟩)
    (fun x rest ⟨hl, ho⟩ => ⟨⟨hl.alive, hl.issuer⟩, ho.other rfl rfl fun _ => rfl⟩) h ⟨hlives, hout⟩
  exact ⟨hcalm, hlives', hout', hidle⟩

/-! ### QUERY of an Output pin among hardware moves -/

/-- The response of QUERY for an Output pin driven to `b` (R143). -/
def outputResponse (b : Bool) : Word := queryIoResponse 1 (if b then 1 else 0)

/-- The sequences a QUERY of an Output pin `p` driven to `b` goes through (R143). -/
inductive QueryTodo (p : Nat) (b : Bool) : List Action → Prop
  | check : QueryTodo p b [.check p none, .queryFunction p]
  | function : QueryTodo p b [.queryFunction p]
  | level : QueryTodo p b [.queryLevel p 1]
  | respond : QueryTodo p b [.respond (outputResponse b) 0]

/-- QUERY of pin `p` on port `q`, somewhere in its sequence or complete; the pin is an Output driven to `b`. -/
structure QueryStage (q p : Nat) (b : Bool) (s : State) : Prop where
  func : s.window.func p = 1
  latch : s.window.latch p = b
  going : ∀ f, s.flightOf q = some f → QueryTodo p b f.todo
  ended : s.flightOf q = none → readResponse q s = some (outputResponse b, 0)

variable {b : Bool}

theorem QueryStage.of_going {f : Flight} (hfunc : s.window.func p = 1) (hlatch : s.window.latch p = b)
    (hf : s.flightOf q = some f) (htodo : QueryTodo p b f.todo) : QueryStage q p b s :=
  ⟨hfunc, hlatch, fun f' hf' => by rw [hf] at hf'; cases hf'; exact htodo, fun hn => by rw [hf] at hn; cases hn⟩

theorem QueryStage.other (h : QueryStage q p b s) (hports : t.ports = s.ports)
    (hfunc : t.window.func p = s.window.func p) (hlatch : t.window.latch p = s.window.latch p) :
    QueryStage q p b t where
  func := hfunc.trans h.func
  latch := hlatch.trans h.latch
  going f hf := h.going f ((State.flightOf_congr hports q).symm.trans hf)
  ended hn := (readResponse_congr (by rw [hports])).trans (h.ended ((State.flightOf_congr hports q).symm.trans hn))

/-- QUERY's own step: the reads show Output and the level (R55). -/
theorem QueryStage.own (h : QueryStage q p b s) (hp : p < 54) (hi : s.inoperative = false)
    (he : (s.drawAt 0).err = false) : QueryStage q p b (advance q s) ∧ (advance q s).inoperative = false := by
  cases hf : s.flightOf q with
  | none => rw [advance_idle hf]; exact ⟨h, hi⟩
  | some f =>
    obtain ⟨todo, temp⟩ := f
    have htodo := h.going _ hf
    cases htodo with
    | check =>
      rw [advance_check hf hp hi]
      exact ⟨.of_going h.func h.latch (by simp [hf]; rfl) .function, hi⟩
    | function =>
      rw [advance_queryFunction_output hf hp he h.func]
      exact ⟨.of_going h.func h.latch (by simp [hf]; rfl) .level, hi⟩
    | level =>
      rw [advance_queryLevel_output hf hp he h.func, h.latch]
      exact ⟨.of_going h.func h.latch (by simp [hf]; rfl) .respond, hi⟩
    | respond =>
      rw [advance_respond hf]
      refine ⟨⟨h.func, h.latch, fun f hf' => ?_, fun _ => ?_⟩, hi⟩
      · simp at hf'
      · exact readResponse_finish ((s.inFlight_iff q).2 ⟨_, hf⟩) _ _

theorem QueryTodo.no_claim {todo : List Action} (h : QueryTodo p b todo) (rest : List Action) :
    todo ≠ .claimScanner :: rest := by
  cases h <;> simp

/-- QUERY runs to its end among hardware moves: it answers Output and the level. -/
theorem calm_query (hp : p < 54) (h : Calm q extra s) (hquery : QueryStage q p b s) :
    readResponse q (settle q s) = some (outputResponse b, 0) := by
  obtain ⟨-, hquery', hidle⟩ := calm_settle (P := QueryStage q p b)
    (fun x hx _ he hx' => by
      obtain ⟨hown, hop⟩ := hx'.own hp hx.op he
      exact ⟨hown, hop, fun f hf => (hown.going f hf).no_claim⟩)
    (fun x m hm hx => hx.other (hardware_keeps hm x).2.2.1 (func_hardware hm x p) (latch_hardware hm x p))
    (fun x rest hx => hx.other rfl rfl rfl) h hquery
  exact hquery'.ended hidle

/-! ### One after the other -/

/-- An operation that is no ACK, begun where no lock is held and with the draws it needs, runs with the window hardware
only. -/
theorem calm_begin {todo : List Action} (hI : Inv s) (hidle : s.inFlight q = false) (hq : q < s.ports.length)
    (hd : s.destroyed = false) (hi : s.inoperative = false) (hlocks : ∀ g r, s.locks.holder g = some r → r = q)
    (hagenda : ∀ m ∈ s.agenda, m = .advance q ∨ hardwareMove m = true) (htodo : plainOk todo = true)
    (hclaim : ∀ rest, todo ≠ .claimScanner :: rest) (hb : BusOk s (s.agenda.length + stepsWeight todo + extra)) :
    Calm q extra (begin q todo s) := by
  have hf : (begin q todo s).flightOf q = some ⟨todo, 0⟩ := by rw [flightOf_begin, if_pos rfl, if_pos hq]
  have hw : (begin q todo s).weightOf q = stepsWeight todo := by rw [State.weightOf, hf]
  refine ⟨inv_begin hI hidle hd (.inl htodo), hi, hlocks, hagenda, ?_, fun f hf' => ?_⟩
  · rw [hw]; exact hb
  · rw [hf] at hf'; cases hf'; exact hclaim

/-- QUERY of an Output pin, begun after an operation that ran with the window hardware only. -/
theorem exec_query_calm {ms : List Move} (hp : p < 54) (h : Calm q (ms.length + 5) t) (hlives : Lives q t)
    (hidle : t.flightOf q = none) (hfunc : t.window.func p = 1) (hlatch : t.window.latch p = b)
    (hms : ∀ m ∈ ms, m = .advance q ∨ hardwareMove m = true) :
    ∃ u, exec (.query p) { t with agenda := ms } = .next u ∧ readResponse q u = some (outputResponse b, 0) := by
  obtain ⟨halive, rfl⟩ := hlives
  let y : State := { t with agenda := ms }
  have hI : Inv y := inv_congr h.inv rfl h.inv.issuer rfl rfl rfl rfl
  have hR : Ready y := ⟨halive, h.inv.issuer, (State.inFlight_false _ _).2 hidle⟩
  have hcalm : Calm t.issuer 0 (begin t.issuer (querySteps p) y) := by
    refine calm_begin hI hR.idle hR.issuer hR.alive h.op h.locks hms rfl (by simp [querySteps])
      (fun k hk => h.draws k ?_)
    have hk' : k < ms.length + 5 + 0 := hk
    omega
  exact ⟨_, exec_ready hR (.query p), calm_query hp hcalm (.of_going hfunc hlatch (flightOf_begin_issuer hR _) .check)⟩

theorem outputResponse_fields (hlevel : level ≤ 1) :
    respFunc (outputResponse (decide (level = 1))) = 1 ∧ respIo (outputResponse (decide (level = 1))) = 1 ∧
      respLevel (outputResponse (decide (level = 1))) = level := by
  obtain ⟨-, hio, hfunc, hlev⟩ := queryIoResponse_fields (decide (level = 1))
  refine ⟨hfunc, hio, hlev.trans ?_⟩
  obtain rfl | rfl : level = 0 ∨ level = 1 := by omega
  · rfl
  · rfl

/-- Settles O29: CFG_OUT leaves the pin an Output driven to the level (`calm_cfgOut`), and QUERY reads both back
(`exec_query_calm`). -/
theorem cfgOutThenQueryLevel : Obligations.CfgOutThenQueryLevel := by
  intro s p level ms hI hR hl hi hb hp hlevel hms
  have hplain : plainOk (cfgOutSteps p level) = true :=
    (startOk_instrSteps (.cfgOut p level)).resolve_right (by simp [instrSteps, cfgOutSteps])
  have hcalm : Calm s.issuer (ms.length + 5) (begin s.issuer (cfgOutSteps p level) s) := by
    refine calm_begin hI hR.idle hR.issuer hR.alive hi (fun g r hr => ?_)
      (fun m hm => hms m (List.mem_append_left _ hm)) hplain (by simp [cfgOutSteps]) (fun k hk => hb k ?_)
    · rw [hl, Locks.holder_free] at hr; cases hr
    · rw [show stepsWeight (cfgOutSteps p level) = 11 from rfl] at hk; omega
  obtain ⟨hcalm', hlives, hout, hidle⟩ :=
    calm_cfgOut hp hcalm ⟨hR.alive, rfl⟩ (outStage_of_begun hlevel (flightOf_begin_issuer hR _) rfl)
  obtain ⟨hresp, hfunc, hlatch⟩ := hout.complete hidle
  obtain ⟨u, hu, hresp'⟩ :=
    exec_query_calm hp hcalm' hlives hidle hfunc hlatch (fun m hm => hms m (List.mem_append_right _ hm))
  exact ⟨_, u, _, exec_ready hR (.cfgOut p level), hresp, hu, hresp', outputResponse_fields hlevel⟩

end Sys2Proof.Machine
end

section
/-! PROOFS, family 42_interrupt_ack, one ACK with no other agent moving: its possible ends, each with what ACK has
changed (`AckOutcome`), that ACK comes to the end that holds (`exec_ack`), and that one always does
(`exists_ackOutcome`). -/

namespace Sys2Proof.Machine

open Sys2Proof.Safety

variable {s : State} {x : Run} {i : Fin 2} {index : Nat}

/-! ### The course of a scan -/

/-- The word a scan that begins in `s` reads from EDSi, if it reads it. -/
def scanWord (s : State) (i : Fin 2) : Word := s.window.read (.eds i) (s.drawAt i).bits

/-- A scan that meets no failure reads EDSi: EDS0 always, EDS1 only if EDS0 reads zero (R162). -/
def Scans (s : State) (i : Fin 2) : Prop := i = 1 → scanWord s 0 = 0

/-- The step of a scan that reads EDSi. -/
def scanRead : Fin 2 → Action
  | 0 => .scanLow
  | 1 => .scanHigh

/-- ACK has claimed the scanner. -/
def Run.claimed (s : State) : Run :=
  { Run.start s with ias := { s.ias with busy := true, owner := s.issuer } }

/-- The reads before that of EDSi: EDS0 has read zero (R162). -/
def earlierReads (q : Nat) : Fin 2 → List Transaction
  | 0 => []
  | 1 => [.read q (Reg.eds 0).offset (some 0)]

/-- A scan is about to read EDSi. -/
def Run.scanning (s : State) (i : Fin 2) : Run :=
  { Run.claimed s with bus := earlierReads s.issuer i, taken := i }

/-- A scan has read EDSi, its active register. -/
def Run.scanned (s : State) (i : Fin 2) : Run :=
  { (Run.scanning s i).read s.issuer (Reg.eds i).offset (scanWord s i) with
    ias := { busy := true, owner := s.issuer, val := scanWord s i, base := 32 * i, reg := (Reg.eds i).offset } }

/-- The scanner is free again. -/
def Run.freed (x : Run) : Run := { x with ias := { x.ias with busy := false } }

/-- The clearing write of a scan whose active register is EDSi succeeds (R165). -/
def Run.cleared (s : State) (i : Fin 2) : Run :=
  { Run.scanned s i with
    window := s.window.write (.eds i) (oneBit (ctz32 (scanWord s i))) (s.drawAt (i + 1)).bits
    bus := .write s.issuer (Reg.eds i).offset (oneBit (ctz32 (scanWord s i))) true :: (Run.scanned s i).bus
    taken := i + 2 }

/-- The read of EDSi fails (R167). -/
def Run.readFailed (s : State) (i : Fin 2) : Run :=
  { Run.scanning s i with
    inoperative := true
    bus := .read s.issuer (Reg.eds i).offset none :: (Run.scanning s i).bus
    taken := i + 1 }

/-- The clearing write fails, done or not (R73, R167). -/
def Run.clearFailed (s : State) (i : Fin 2) : Run :=
  { Run.scanned s i with
    window := (Run.scanned s i).windowAfter s (.eds i) (oneBit (ctz32 (scanWord s i)))
    inoperative := true
    bus := .write s.issuer (Reg.eds i).offset (oneBit (ctz32 (scanWord s i))) false :: (Run.scanned s i).bus
    taken := i + 2 }

theorem Run.scanning_read (s : State) (i : Fin 2) :
    (Run.scanning s i).window.read (.eds i) (s.drawAt (Run.scanning s i).taken).bits = scanWord s i := rfl

/-- How an ACK begun in `s` with the scanner free ends, if no other agent moves: what it has changed and the index it
answers (R160, R167). -/
inductive AckOutcome (s : State) : Run → Nat → Prop where
  | inoperative (hi : s.inoperative = true) : AckOutcome s (Run.claimed s).freed 64
  | readFails (i : Fin 2) (hi : s.inoperative = false) (hf : BusFailsAt s i) (hs : Scans s i) :
      AckOutcome s (Run.readFailed s i).freed 64
  | nothing (hi : s.inoperative = false) (hb : BusOk s 2) (hlow : scanWord s 0 = 0) (hhigh : scanWord s 1 = 0) :
      AckOutcome s (Run.scanned s 1).freed 64
  | cleared (i : Fin 2) (hi : s.inoperative = false) (hb : BusOk s (i + 2)) (hs : Scans s i) (hv : scanWord s i ≠ 0) :
      AckOutcome s (Run.cleared s i).freed (32 * i + ctz32 (scanWord s i))
  | clearFails (i : Fin 2) (hi : s.inoperative = false) (hf : BusFailsAt s (i + 1)) (hs : Scans s i)
      (hv : scanWord s i ≠ 0) : AckOutcome s (Run.clearFailed s i).freed 64

theorem busOk_mono {m n : Nat} (h : BusOk s n) (hm : m ≤ n) : BusOk s m := fun k hk => h k (by omega)

theorem busOk_zero (s : State) : BusOk s 0 := fun _ hk => absurd hk (Nat.not_lt_zero _)

theorem busOk_succ {n : Nat} (h : BusOk s n) (he : (s.drawAt n).err = false) : BusOk s (n + 1) := by
  intro k hk
  obtain rfl | hlt := Nat.eq_or_lt_of_le (Nat.le_of_lt_succ hk)
  · exact he
  · exact h k hlt

theorem scans_zero (s : State) : Scans s 0 := nofun

/-- A scan that has read EDSi without failure, and found a bit, goes on to clear it, or fails to (R165, R167). -/
theorem exists_ackOutcome_of_found (hi : s.inoperative = false) (hb : BusOk s (i + 1)) (hs : Scans s i)
    (hv : scanWord s i ≠ 0) : ∃ x index, AckOutcome s x index := by
  by_cases he : (s.drawAt (i + 1)).err = true
  · exact ⟨_, _, .clearFails i hi ⟨hb, he⟩ hs hv⟩
  · exact ⟨_, _, .cleared i hi (busOk_succ hb (by simpa using he)) hs hv⟩

/-- There is no other end. -/
theorem exists_ackOutcome (s : State) : ∃ x index, AckOutcome s x index := by
  cases hi : s.inoperative with
  | true => exact ⟨_, _, .inoperative hi⟩
  | false =>
    by_cases he : (s.drawAt 0).err = true
    · exact ⟨_, _, .readFails 0 hi ⟨busOk_zero s, he⟩ (scans_zero s)⟩
    have hb := busOk_succ (busOk_zero s) (by simpa using he)
    by_cases hlow : scanWord s 0 = 0
    · by_cases he' : (s.drawAt 1).err = true
      · exact ⟨_, _, .readFails 1 hi ⟨hb, he'⟩ fun _ => hlow⟩
      have hb' := busOk_succ hb (by simpa using he')
      by_cases hhigh : scanWord s 1 = 0
      · exact ⟨_, _, .nothing hi hb' hlow hhigh⟩
      · exact exists_ackOutcome_of_found (i := 1) hi hb' (fun _ => hlow) hhigh
    · exact exists_ackOutcome_of_found (i := 0) hi hb (scans_zero s) hlow

/-- No end leaves another lock (R168). -/
theorem AckOutcome.locks (h : AckOutcome s x index) : x.locks = s.locks := by
  cases h <;> rfl

/-- Every end frees the scanner (R160). -/
theorem AckOutcome.idle (h : AckOutcome s x index) : x.ias.busy = false := by
  cases h <;> rfl

/-! ### The steps of a scan that runs alone -/

section Running

variable (ha : s.agenda = []) (hq : s.issuer < s.ports.length)
include ha hq

/-- A scan that meets no failure comes to the read of EDSi. -/
theorem drive_to_scanRead (hbusy : s.ias.busy = false) (hi : s.inoperative = false) (hb : BusOk s i) (hs : Scans s i)
    (n : Nat) :
    drive (n + i + 1) s.issuer (s.amid s.issuer (.start s) ⟨ackSteps, 0⟩) =
      drive n s.issuer (s.amid s.issuer (.scanning s i) ⟨[scanRead i], 0⟩) := by
  have hclaim : ∀ n, drive (n + 1) s.issuer (s.amid s.issuer (.start s) ⟨ackSteps, 0⟩) =
      drive n s.issuer (s.amid s.issuer (.claimed s) ⟨[.scanLow], 0⟩) := fun n => by
    rw [ackSteps, drive_claim ha hq (x := .start s) hbusy, if_neg (by simp [Run.start, hi])]; rfl
  match i with
  | 0 => exact hclaim n
  | 1 =>
    have hlow : (Run.claimed s).window.read (.eds 0) (s.drawAt (Run.claimed s).taken).bits = 0 := hs rfl
    refine (hclaim (n + 1)).trans ?_
    rw [drive_scanLow ha hq (x := .claimed s) (hb 0 Nat.one_pos), hlow]
    rfl

/-- The read of EDSi finds a bit (R162). -/
theorem drive_scanRead (he : (s.drawAt i).err = false) (hv : scanWord s i ≠ 0) (n : Nat) :
    drive (n + 1) s.issuer (s.amid s.issuer (.scanning s i) ⟨[scanRead i], 0⟩) =
      drive n s.issuer (s.amid s.issuer (.scanned s i) ⟨[.scanClear], 0⟩) := by
  match i with
  | 0 =>
    refine (drive_scanLow ha hq (x := .scanning s 0) he n).trans ?_
    rw [Run.scanning_read]
    dsimp only
    rw [if_pos hv, if_pos hv]
    rfl
  | 1 =>
    refine (drive_scanHigh ha hq (x := .scanning s 1) he n).trans ?_
    rw [Run.scanning_read, if_neg hv]
    rfl

/-- The read of EDSi fails (R167). -/
theorem drive_scanRead_err (he : (s.drawAt i).err = true) (n : Nat) :
    drive (n + 2) s.issuer (s.amid s.issuer (.scanning s i) ⟨[scanRead i], 0⟩) =
      s.ended s.issuer (Run.readFailed s i).freed (ackResponse 64) 0 := by
  match i with
  | 0 => exact drive_scanLow_err ha hq (x := .scanning s 0) he n
  | 1 => exact drive_scanHigh_err ha hq (x := .scanning s 1) he n

/-- Every end is reached within the five steps ACK can take. -/
theorem drive_ack (hbusy : s.ias.busy = false) (h : AckOutcome s x index) :
    ∃ n ≤ 5, drive n s.issuer (s.amid s.issuer (.start s) ⟨ackSteps, 0⟩) =
      s.ended s.issuer x (ackResponse index) 0 := by
  cases h with
  | inoperative hi =>
    refine ⟨2, by omega, ?_⟩
    rw [ackSteps, drive_claim ha hq (x := .start s) hbusy, if_pos (show (Run.start s).inoperative = true from hi),
      drive_respondScan ha hq]
    rfl
  | readFails i hi hf hs =>
    refine ⟨2 + i + 1, by omega, ?_⟩
    rw [drive_to_scanRead ha hq hbusy hi hf.1 hs, drive_scanRead_err ha hq hf.2]
  | nothing hi hb hlow hhigh =>
    refine ⟨2 + 1 + 1, by omega, ?_⟩
    refine (drive_to_scanRead ha hq hbusy hi (i := 1) (busOk_mono hb (Nat.le_succ 1)) (fun _ => hlow) 2).trans ?_
    refine (drive_scanHigh ha hq (x := .scanning s 1) (hb 1 Nat.one_lt_two) 1).trans ?_
    rw [Run.scanning_read, if_pos hhigh, drive_respondScan ha hq]
    rfl
  | cleared i hi hb hs hv =>
    refine ⟨3 + i + 1, by omega, ?_⟩
    rw [drive_to_scanRead ha hq hbusy hi (busOk_mono hb (by omega)) hs, drive_scanRead ha hq (hb i (by omega)) hv,
      drive_scanClear ha hq i (x := .scanned s i) rfl (hb (i + 1) (by omega))]
    rfl
  | clearFails i hi hf hs hv =>
    refine ⟨3 + i + 1, by omega, ?_⟩
    rw [drive_to_scanRead ha hq hbusy hi (busOk_mono hf.1 (by omega)) hs, drive_scanRead ha hq (hf.1 i (by omega)) hv,
      drive_scanClear_err ha hq i (x := .scanned s i) rfl hf.2]
    rfl

end Running

/-- An ACK that no other agent disturbs comes to its end. -/
theorem exec_ack (h : Ready s) (ha : s.agenda = []) (hbusy : s.ias.busy = false) (ho : AckOutcome s x index) :
    exec .ack s = .next (s.ended s.issuer x (ackResponse index) 0) := by
  obtain ⟨n, hn, hd⟩ := drive_ack ha h.issuer hbusy ho
  exact perform_alone h n hn hd

theorem AckOutcome.completed (ho : AckOutcome s x index) (h : Ready s) :
    Completed s (s.ended s.issuer x (ackResponse index) 0) (ackResponse index) 0 :=
  completed_ended h.issuer ho.locks _ _

end Sys2Proof.Machine
end

section
/-! PROOFS, family 42_interrupt_ack, what one ACK answers with no other agent moving: the words it reads and the latches
(O31 to O34), and the locks (O36). -/

namespace Sys2Proof.Machine

open Sys2Proof.Safety

variable {s : State} {x : Run} {i : Fin 2} {b p : Nat}

/-! ### The words a scan reads, and the pending latches -/

theorem ne_zero_of_getLsbD {v : Word} (h : v.getLsbD b = true) : v ≠ 0 := by
  rintro rfl; simp at h

/-- `ctz32` is the one set bit with no set bit below it (R11). -/
theorem ctz32_eq {v : Word} (hset : v.getLsbD b = true) (hleast : ∀ k, k < b → v.getLsbD k = false) :
    ctz32 v = b := by
  obtain ⟨-, hctz⟩ := ctz32_set (ne_zero_of_getLsbD hset)
  by_contra hne
  obtain hlt | hgt := Nat.lt_or_gt_of_ne hne
  · rw [hleast _ hlt] at hctz; cases hctz
  · rw [ctz32_least hgt] at hset; cases hset

theorem getLsbD_scanWord_low (s : State) {k : Nat} (hk : k < 32) : (scanWord s 0).getLsbD k = s.window.pending k := by
  rw [scanWord, read_eds_low, getLsbD_edsAt_low _ hk]

/-- EDS0 reads zero exactly if no pin below 32 is pending. -/
theorem scanWord_low_eq_zero : scanWord s 0 = 0 ↔ ∀ k, k < 32 → s.window.pending k = false := by
  constructor
  · intro h k hk
    rw [← getLsbD_scanWord_low s hk, h, getLsbD_zeroWord]
  · intro h
    apply BitVec.eq_of_getLsbD_eq
    intro k hk
    rw [getLsbD_scanWord_low s hk, h k hk, getLsbD_zeroWord]

/-- EDS1 reads zero if no pin from 32 on is pending and its non-pin bits are drawn 0 (R56). -/
theorem scanWord_high_eq_zero (h : ∀ k, k < 54 → s.window.pending k = false)
    (hbits : (s.drawAt 1).bits &&& 0xFFC00000 = 0) : scanWord s 1 = 0 := by
  have hmask : ∀ k : Fin 32, 22 ≤ k.val → (0xFFC00000 : Word).getLsbD k = true := by decide
  apply BitVec.eq_of_getLsbD_eq
  intro k hk
  rw [getLsbD_zeroWord]
  by_cases hpin : k < 22
  · exact (getLsbD_read_eds_high _ _ hpin).trans (h _ (by omega))
  · have hdrawn : (s.drawAt 1).bits.getLsbD k = false := by
      have := congrArg (fun v => v.getLsbD k) hbits
      rwa [BitVec.getLsbD_and, hmask ⟨k, hk⟩ (Nat.le_of_not_lt hpin), Bool.and_true, getLsbD_zeroWord] at this
    rw [scanWord, Window.read, getLsbD_withDraw, getLsbD_bitPinMask, if_neg (by simp; omega)]
    exact hdrawn

/-- The lowest pending pin is the lowest set bit of the register the scan ends at, whatever the non-pin bits read. -/
theorem lowest_pending (hp : p < 54) (hset : s.window.pending p = true)
    (hleast : ∀ k, k < p → s.window.pending k = false) :
    ∃ i : Fin 2, Scans s i ∧ scanWord s i ≠ 0 ∧ 32 * i + ctz32 (scanWord s i) = p := by
  by_cases hlow : p < 32
  · have hbit : (scanWord s 0).getLsbD p = true := (getLsbD_scanWord_low s hlow).trans hset
    refine ⟨0, scans_zero s, ne_zero_of_getLsbD hbit, ?_⟩
    rw [ctz32_eq hbit fun k hk => (getLsbD_scanWord_low s (by omega)).trans (hleast k hk)]
    simp
  · obtain ⟨b, rfl⟩ := Nat.exists_eq_add_of_le (Nat.le_of_not_lt hlow)
    have hread : ∀ k, k < 22 → (scanWord s 1).getLsbD k = s.window.pending (32 + k) :=
      fun k hk => getLsbD_read_eds_high _ _ hk
    have hbit : (scanWord s 1).getLsbD b = true := (hread b (by omega)).trans hset
    refine ⟨1, fun _ => scanWord_low_eq_zero.2 fun k hk => hleast k (by omega), ne_zero_of_getLsbD hbit, ?_⟩
    rw [ctz32_eq hbit fun k hk => (hread k (by omega)).trans (hleast _ (by omega))]
    simp

/-! ### The response and the latches after it -/

theorem ackResponse_eq (index : Nat) : ackResponse index = BitVec.ofNat 32 index <<< 8 := BitVec.or_zero

/-- A successful ACK clears the latch of the bit it found and no other (R165). -/
theorem pending_cleared (s : State) (hv : scanWord s i ≠ 0) (k : Nat) :
    (Run.cleared s i).window.pending k =
      (s.window.pending k && !decide (k = 32 * i + ctz32 (scanWord s i))) :=
  pending_write_eds s.window i (ctz32_set hv).1 (s.drawAt (i + 1)).bits k

/-- Settles O31: EDS0 reads the latches of pins 0 to 31, so the scan ends at EDS0 with lowest set bit `b`. -/
theorem ackLowResult : Obligations.AckLowResult := by
  intro s b h hbusy hi hb hlt hset hleast
  have hread : ∀ k, k < 32 → (scanWord s 0).getLsbD k = s.window.pending k := fun k => getLsbD_scanWord_low s
  have hbit : (scanWord s 0).getLsbD b = true := (hread b hlt).trans hset
  have hctz := ctz32_eq hbit fun k hk => (hread k (by omega)).trans (hleast k hk)
  have hv := ne_zero_of_getLsbD hbit
  have ho : AckOutcome s (Run.cleared s 0).freed b := by
    have := AckOutcome.cleared 0 hi hb (scans_zero s) hv
    rwa [hctz, Fin.val_zero, Nat.mul_zero, Nat.zero_add] at this
  have hpending := pending_cleared s hv
  have hbus : (Run.cleared s 0).freed.bus = [.write s.issuer 0x40 (oneBit (ctz32 (scanWord s 0))) true,
    .read s.issuer 0x40 (some (scanWord s 0))] := rfl
  rw [hctz] at hpending hbus
  refine ⟨_, scanWord s 0, exec_ack h.toReady h.agenda hbusy ho, ?_, hi, rfl, fun k _ => ?_, rfl, hread,
    congrArg (· ++ s.bus) hbus⟩
  · rw [← ackResponse_eq]; exact ho.completed h.toReady
  · exact (hpending k).trans (by simp)

/-- Settles O32: EDS0 reads zero, so the scan ends at EDS1, whose lowest set bit as read is `b`. -/
theorem ackHighResult : Obligations.AckHighResult := by
  intro s v b h hbusy hi hb hlow hv hlt hset hleast
  obtain rfl : v = scanWord s 1 := hv
  have hctz := ctz32_eq hset hleast
  have hne := ne_zero_of_getLsbD hset
  have ho : AckOutcome s (Run.cleared s 1).freed (32 + b) := by
    have := AckOutcome.cleared 1 hi hb (fun _ => scanWord_low_eq_zero.2 hlow) hne
    rwa [hctz, Fin.val_one, Nat.mul_one] at this
  have hpending := pending_cleared s hne
  have hbus : (Run.cleared s 1).freed.bus = [.write s.issuer 0x44 (oneBit (ctz32 (scanWord s 1))) true,
    .read s.issuer 0x44 (some (scanWord s 1)), .read s.issuer 0x40 (some 0)] := rfl
  rw [hctz] at hpending hbus
  refine ⟨_, exec_ack h.toReady h.agenda hbusy ho, ?_, hi, rfl, fun k _ => hpending k, rfl,
    congrArg (· ++ s.bus) hbus⟩
  rw [← ackResponse_eq]; exact ho.completed h.toReady

/-- Settles O33: both words read are zero (`scanWord_low_eq_zero`, `scanWord_high_eq_zero`). -/
theorem ackNothingPending : Obligations.AckNothingPending := by
  intro s h hbusy hi hb hnone hbits
  have hlow : scanWord s 0 = 0 := scanWord_low_eq_zero.2 fun k hk => hnone k (by omega)
  have hhigh := scanWord_high_eq_zero hnone hbits
  have ho := AckOutcome.nothing hi hb hlow hhigh
  have hbus : (Run.scanned s 1).freed.bus = [.read s.issuer 0x44 (some (scanWord s 1)),
    .read s.issuer 0x40 (some 0)] := rfl
  rw [hhigh] at hbus
  exact ⟨_, exec_ack h.toReady h.agenda hbusy ho, ho.completed h.toReady, hi, rfl, rfl, congrArg (· ++ s.bus) hbus⟩

/-- While some pin is pending, the end of an ACK that meets no failure is that the lowest one is cleared. -/
theorem ackOutcome_of_pending (hi : s.inoperative = false) (hb : BusOk s 3) (hp : p < 54)
    (hset : s.window.pending p = true) (hleast : ∀ k, k < p → s.window.pending k = false) :
    ∃ i : Fin 2, AckOutcome s (Run.cleared s i).freed p ∧
      ∀ k, (Run.cleared s i).window.pending k = (s.window.pending k && !decide (k = p)) := by
  obtain ⟨i, hs, hv, hpin⟩ := lowest_pending hp hset hleast
  have ho := AckOutcome.cleared i hi (busOk_mono hb (by omega)) hs hv
  have hpending := pending_cleared s hv
  rw [hpin] at ho hpending
  exact ⟨i, ho, hpending⟩

/-- Settles O34, by `ackOutcome_of_pending`. -/
theorem ackReportsLowestPending : Obligations.AckReportsLowestPending := by
  intro s p h hbusy hi hb hp hset hleast
  obtain ⟨i, ho, hpending⟩ := ackOutcome_of_pending hi hb hp hset hleast
  refine ⟨_, exec_ack h.toReady h.agenda hbusy ho, ?_, fun k _ => hpending k⟩
  rw [← ackResponse_eq]; exact ho.completed h.toReady

/-! ### The locks -/

/-- The ends do not depend on the locks. -/
theorem AckOutcome.withLocks {index : Nat} (ho : AckOutcome s x index) (l : Locks) :
    AckOutcome { s with locks := l } { x with locks := l } index := by
  cases ho with
  | inoperative hi => exact .inoperative hi
  | readFails i hi hf hs => exact .readFails i hi hf hs
  | nothing hi hb hlow hhigh => exact .nothing hi hb hlow hhigh
  | cleared i hi hb hs hv => exact .cleared i hi hb hs hv
  | clearFails i hi hf hs hv => exact .clearFails i hi hf hs hv

/-- Settles O36: the ends of ACK do not depend on the locks and leave them (`AckOutcome.withLocks`). -/
theorem ackIgnoresLocks : Obligations.AckIgnoresLocks := by
  intro s t l h hbusy ht
  obtain ⟨x, index, ho⟩ := exists_ackOutcome s
  rw [exec_ack h.toReady h.agenda hbusy ho] at ht
  cases ht
  exact ⟨ho.locks,
    exec_ack (s := { s with locks := l }) ⟨h.alive, h.issuer, h.idle⟩ h.agenda hbusy (ho.withLocks l)⟩

end Sys2Proof.Machine
end

section
/-! PROOFS, family 42_interrupt_ack: ACK completes with status OK in every case (O35). -/

namespace Sys2Proof.Machine

open Sys2Proof.Safety

variable {s : State} {i : Fin 2} {k : Nat}

/-! ### Whatever other agents do -/

/-- The steps that a scan goes through once it has claimed the scanner, and none. -/
def ScanTodo (todo : List Action) : Prop := todo = [] ∨ inScan todo = true

/-- The steps of an ACK, held or in its scan. -/
def AckTodo (todo : List Action) : Prop := todo = [.claimScanner] ∨ ScanTodo todo

theorem inScan_cons {a : Action} {rest : List Action} (h : inScan (a :: rest) = true) :
    rest = [] ∧ (a = .scanLow ∨ a = .scanHigh ∨ a = .scanClear ∨ ∃ index, a = .respondScan index) := by
  unfold inScan at h
  split at h
  all_goals simp_all

/-- A step of an ACK leads to a step of its scan or to its response. -/
theorem after_ack {T : List Action → Prop} {R : Word → Word → Prop} (hT : ∀ todo, ScanTodo todo → T todo)
    (hR : ∀ index, R (ackResponse index) 0) {a : Action} {rest : List Action} (h : AckTodo (a :: rest)) :
    After T R a rest := by
  obtain ⟨rfl, ha⟩ : rest = [] ∧ (a = .claimScanner ∨ a = .scanLow ∨ a = .scanHigh ∨ a = .scanClear ∨
      ∃ index, a = .respondScan index) := by
    obtain h | h | h := h
    · cases h; exact ⟨rfl, .inl rfl⟩
    · cases h
    · exact ⟨(inScan_cons h).1, .inr (inScan_cons h).2⟩
  have hscan : T [.scanLow] ∧ T [.scanHigh] ∧ T [.scanClear] ∧ ∀ index, T [.respondScan index] :=
    ⟨hT _ (.inr rfl), hT _ (.inr rfl), hT _ (.inr rfl), fun _ => hT _ (.inr rfl)⟩
  refine ⟨hT _ (.inl rfl), ?_, ?_, ?_, ?_, fun _ => hscan, ?_, ?_⟩
  · rintro pin bad rfl; simp at ha
  · rintro (⟨g, p, rfl⟩ | ⟨g, p, v, rfl⟩ | ⟨f, p, rfl⟩ | ⟨p, rfl⟩ | ⟨p, fn, rfl⟩) <;> simp at ha
  · rintro p rfl; simp at ha
  · rintro p fn rfl; simp at ha
  · rintro index rfl; exact hR index
  · rintro r0 r1 rfl; simp at ha

/-- The response of an ACK, whatever other agents do (R167). -/
theorem exec_ack_response (hI : Inv s) (h : Ready s) :
    ∃ t index, exec .ack s = .next t ∧ readResponse s.issuer t = some (ackResponse index, 0) := by
  obtain ⟨r0, r1, hread, ⟨index, rfl⟩, rfl⟩ := settle_response (T := AckTodo)
    (R := fun r0 r1 => (∃ index, r0 = ackResponse index) ∧ r1 = 0) hI h (.inr rfl) (.inl rfl)
    fun _ _ => after_ack (fun _ => .inr) fun index => ⟨⟨index, rfl⟩, rfl⟩
  exact ⟨_, index, exec_ready h .ack, hread⟩

/-! ### A failed transaction -/

/-- The first failed transaction of an ACK that runs alone is a read or the clearing write (R167). -/
theorem ackOutcome_of_failure (hi : s.inoperative = false) (hf : BusFailsAt s k)
    (hk : k = 0 ∨ k = 1 ∨ k = 2 ∧ scanWord s 0 = 0 ∧ scanWord s 1 ≠ 0) :
    (∃ i : Fin 2, k = i ∧ AckOutcome s (Run.readFailed s i).freed 64) ∨
    ∃ i : Fin 2, k = i + 1 ∧ scanWord s i ≠ 0 ∧ AckOutcome s (Run.clearFailed s i).freed 64 := by
  obtain rfl | rfl | ⟨rfl, hlow, hhigh⟩ := hk
  · exact .inl ⟨0, rfl, .readFails 0 hi hf (scans_zero s)⟩
  · by_cases hlow : scanWord s 0 = 0
    · exact .inl ⟨1, rfl, .readFails 1 hi hf fun _ => hlow⟩
    · exact .inr ⟨0, rfl, hlow, .clearFails 0 hi hf (scans_zero s) hlow⟩
  · exact .inr ⟨1, rfl, hhigh, .clearFails 1 hi hf (fun _ => hlow) hhigh⟩

theorem length_earlierReads (q : Nat) (i : Fin 2) : (earlierReads q i).length = i := by
  fin_cases i <;> rfl

/-- After a failed clearing write the register holds its old value or the written one (R73). -/
theorem window_clearFailed (s : State) (i : Fin 2) :
    (Run.clearFailed s i).window = s.window ∨
      (Run.clearFailed s i).window =
        s.window.write (.eds i) (oneBit (ctz32 (scanWord s i))) (s.drawAt (i + 1)).bits := by
  change Run.windowAfter _ _ _ _ = _ ∨ Run.windowAfter _ _ _ _ = _
  rw [Run.windowAfter]
  split
  · exact .inl rfl
  · exact .inr rfl

/-- A write of EDSi, done or not, changes no other register. -/
theorem window_clearFailed_eds (s : State) (i : Fin 2) :
    (Run.clearFailed s i).window = { s.window with eds := (Run.clearFailed s i).window.eds } := by
  obtain h | h := window_clearFailed s i
  · rw [h]
  · rw [h]; rfl

theorem base_of_offset (i : Fin 2) : (if (Reg.eds i).offset = 0x40 then 0 else 32) = 32 * i.val := by
  fin_cases i <;> rfl

/-- Settles O35: the response by `exec_ack_response`, the block that is inoperative at the start by
`AckOutcome.inoperative`, and a failed transaction by `ackOutcome_of_failure`. -/
theorem ackNeverFails : Obligations.AckNeverFails := by
  refine ⟨fun s hI h => ?_, fun s h hbusy hi => ?_, fun s k h hbusy hi hf hk => ?_⟩
  · obtain ⟨t, index, ht, hread⟩ := exec_ack_response hI h
    exact ⟨t, _, ht, hread, respStatus_ackResponse index⟩
  · have ho := AckOutcome.inoperative hi
    exact ⟨_, exec_ack h.toReady h.agenda hbusy ho, ho.completed h.toReady, rfl, rfl⟩
  · have hk' : k = 0 ∨ k = 1 ∨ k = 2 ∧ scanWord s 0 = 0 ∧ scanWord s 1 ≠ 0 :=
      hk.imp_right (.imp_right fun ⟨h2, hlow, hhigh⟩ => ⟨h2, scanWord_low_eq_zero.2 hlow, hhigh⟩)
    obtain ⟨i, rfl, ho⟩ | ⟨i, rfl, hv, ho⟩ := ackOutcome_of_failure hi hf hk'
    · exact ⟨_, _, _, exec_ack h.toReady h.agenda hbusy ho, ho.completed h.toReady, rfl, rfl, rfl,
        length_earlierReads _ i, rfl, rfl, .inl rfl⟩
    · refine ⟨_, _, _, exec_ack h.toReady h.agenda hbusy ho, ho.completed h.toReady, rfl, rfl, rfl,
        congrArg (· + 1) (length_earlierReads _ i), rfl, window_clearFailed_eds s i,
        (window_clearFailed s i).imp_right fun hw => ⟨_, _, rfl, (ctz32_set hv).1, fun j _ => ?_⟩⟩
      rw [base_of_offset]
      exact (congrArg (Window.pending · j) hw).trans (pending_write_eds s.window i (ctz32_set hv).1 _ j)

end Sys2Proof.Machine
end

section
/-! PROOFS, family 42_interrupt_ack, an ACK among other agents: its clearing write (O37), and that the scanner serves
one ACK at a time, which frees it in four steps (O39). -/

namespace Sys2Proof.Machine

open Sys2Proof.Safety

variable {s : State} {q o w c : Nat}

/-! ### The clearing write -/

/-- The clearing write, at the active register EDSi. -/
theorem advance_scanClear {i : Fin 2} {temp : Word} {rest : List Action}
    (hf : s.flightOf q = some ⟨.scanClear :: rest, temp⟩) (hreg : s.ias.reg = (Reg.eds i).offset)
    (he : (s.drawAt 0).err = false) :
    advance q s = (s.afterWrite q (Reg.eds i).offset (.eds i) (oneBit (ctz32 s.ias.val))).setTodo q
      [.respondScan (s.ias.base + ctz32 s.ias.val)] := by
  have hloc : ∀ j : Fin 2, (Reg.eds j).offset = (location (32 * j) .eventStatus).byteOffset ∧
      pinReg (32 * j) .eventStatus = .eds j := by decide
  have hwrite := memWrite_location (p := 32 * i) (by omega) (f := .eventStatus) (by simp) q (oneBit (ctz32 s.ias.val)) s
  rw [← (hloc i).1, (hloc i).2, he] at hwrite
  rw [advance_eq hf]
  simp only [act, scanClearStep, hreg, hwrite]
  rfl

/-- The register of the scanner and its base, when it is about to clear, are those of EDS0 or of EDS1 (R24). -/
theorem active_register {temp : Word} (hI : Inv s) (hf : s.flightOf q = some ⟨[.scanClear], temp⟩) :
    s.ias.val ≠ 0 ∧ ∃ i : Fin 2, s.ias.base = 32 * i ∧ s.ias.reg = (Reg.eds i).offset := by
  obtain ⟨hv, ⟨hbase, hreg⟩ | ⟨hbase, hreg⟩⟩ := hI.active q _ hf rfl
  · exact ⟨hv, 0, hbase, hreg⟩
  · exact ⟨hv, 1, hbase, hreg⟩

/-- Settles O37: the moves of other agents leave the scanner to its owner (`runMoves_keeps`), and the write sends the
one bit found (`advance_scanClear`). -/
theorem ackClearsOnlyItsBit : Obligations.AckClearsOnlyItsBit := by
  intro s q temp ms hI hf hms he
  obtain ⟨hbusy, howner⟩ := (hI.scanner q).2 ⟨_, hf, rfl⟩
  obtain ⟨-, hf', -, -, hkept⟩ := runMoves_keeps hI hf ms hms
  have hias := hkept hbusy howner
  obtain ⟨hv, i, hbase, hreg⟩ := active_register hI hf
  obtain ⟨hlt, hset⟩ := ctz32_set hv
  have hadv := advance_scanClear hf' (by rw [hias]; exact hreg) he
  rw [hias] at hadv
  refine ⟨ctz32 s.ias.val, hlt, hset, fun k => ctz32_least, ?_, fun k _ => ?_⟩
  · rw [hadv]; simp [hf']
  · rw [hadv, State.setTodo_fields _ _ _ |>.1, State.afterWrite_fields _ _ _ _ _ |>.1, State.windowAfter, he,
      if_neg (by simp), hbase]
    exact pending_write_eds _ i hlt _ k

/-! ### One scan at a time -/

/-- Port `o` has at most `w` steps of a scan left, and nobody else has the scanner; at the end of the scan at most `c`
transactions of the port are recorded. -/
structure Scanning (o w c : Nat) (s : State) : Prop where
  inv : Safety.Inv s
  owner : s.ias.busy = true → s.ias.owner = o
  going : ∀ f, s.flightOf o = some f → inScan f.todo = true
  weight : s.weightOf o ≤ w
  cost : transactionCount o s.bus + s.costOf o ≤ c

theorem inScan_weight {todo : List Action} (h : inScan todo = true) :
    stepsWeight todo ≤ 4 ∧ stepsCost todo ≤ 3 ∧ 0 < stepsWeight todo := by
  cases todo with
  | nil => cases h
  | cons a rest =>
    obtain ⟨rfl, rfl | rfl | rfl | ⟨index, rfl⟩⟩ := inScan_cons h <;>
      simp [stepsWeight, actionWeight, stepsCost, actionCost]

/-- No step of a scan is held (R168). -/
theorem waitsFor_inScan {a : Action} {rest : List Action} (h : inScan (a :: rest) = true) (q : Nat) (s : State) :
    waitsFor q s a = none := by
  obtain ⟨-, rfl | rfl | rfl | ⟨index, rfl⟩⟩ := inScan_cons h <;> rfl

/-- The transactions a step records count against its cost. -/
theorem transactionCount_advance (hI : Inv s) (q : Nat) :
    transactionCount q (advance q s).bus + (advance q s).costOf q ≤ transactionCount q s.bus + s.costOf q := by
  obtain ⟨l, hbus, -, hcost, -⟩ := (recorded_advance hI q).record
  have hlen : transactionCount q l ≤ l.length := List.countP_le_length
  rw [hbus, transactionCount, List.countP_append, ← transactionCount, ← transactionCount]
  omega

/-- One step of the owner. -/
theorem Scanning.advance (h : Scanning o w c s) : Scanning o (w - 1) c (advance o s) := by
  have hstep := advance_stepBy h.inv o
  have howner : (Machine.advance o s).ias.busy = true → (Machine.advance o s).ias.owner = o := by
    intro hbusy
    by_contra hne
    have hias := hstep.claimed hbusy hne
    rw [hias] at hbusy hne
    exact hne (h.owner hbusy)
  have hcost := (transactionCount_advance h.inv o).trans h.cost
  cases hf : s.flightOf o with
  | none =>
    rw [advance_idle hf]
    refine { h with weight := ?_ }
    simp [State.weightOf, hf]
  | some f =>
    obtain ⟨todo, temp⟩ := f
    have hscan := h.going _ hf
    cases todo with
    | nil => cases hscan
    | cons a rest =>
      have hown := ownKnown_act (T := ScanTodo) (R := fun _ _ => True) hf (.inr hscan)
        (after_ack (fun _ => id) (fun _ => trivial) (.inr (.inr hscan)))
      have hweight := weightOf_act hf (waitsFor_inScan hscan o s)
      rw [← advance_eq hf] at hown hweight
      have hle := h.weight
      rw [State.weightOf, hf] at hle
      refine ⟨inv_advance h.inv o, howner, fun f hf' => (hown.going f hf').resolve_left fun hnil => ?_, ?_, hcost⟩
      · obtain ⟨l, hpos, -⟩ := (inv_advance h.inv o).sequence o f hf'
        rw [hnil] at hpos
        cases hpos with | plain hp => simp [plainOk] at hp
      · have hle' : stepsWeight (a :: rest) ≤ w := hle
        omega

theorem Scanning.runSteps (h : Scanning o w c s) (n : Nat) :
    Scanning o (w - n) c (runSteps (List.replicate n o) s) := by
  induction n generalizing s w with
  | zero => exact h
  | succ n ih =>
    have := ih h.advance
    rwa [Nat.sub_sub, Nat.add_comm 1 n] at this

/-- The owner of a busy scanner is in a scan. -/
theorem scanning_of_busy (hI : Inv s) (hbusy : s.ias.busy = true) :
    Scanning s.ias.owner 4 (transactionCount s.ias.owner s.bus + 3) s := by
  obtain ⟨f, hf, hscan⟩ := (hI.scanner _).1 ⟨hbusy, rfl⟩
  obtain ⟨hweight, hcost, -⟩ := inScan_weight hscan
  refine ⟨hI, fun _ => rfl, fun f' hf' => ?_, ?_, ?_⟩
  · rw [hf] at hf'; cases hf'; exact hscan
  · rw [State.weightOf, hf]; exact hweight
  · rw [costOf_eq hf]; omega

/-- With no step left the operation is complete and the scanner free. -/
theorem Scanning.ended (h : Scanning o 0 c s) :
    s.inFlight o = false ∧ s.ias.busy = false ∧ transactionCount o s.bus ≤ c := by
  have hidle : s.flightOf o = none := by
    cases hf : s.flightOf o with
    | none => rfl
    | some f =>
      have hweight := h.weight
      rw [State.weightOf, hf] at hweight
      exact absurd (inScan_weight (h.going f hf)).2.2 (Nat.not_lt.2 hweight)
  refine ⟨(s.inFlight_false o).2 hidle, ?_, (Nat.le_add_right _ _).trans h.cost⟩
  by_contra hbusy
  rw [Bool.not_eq_false] at hbusy
  obtain ⟨f, hf, -⟩ := (h.inv.scanner o).1 ⟨hbusy, h.owner hbusy⟩
  rw [hidle] at hf; cases hf

/-- An ACK at its start waits for a busy scanner, which is another port's (R166). -/
theorem claim_held (hI : Inv s) (hbusy : s.ias.busy = true) {temp : Word}
    (hf : s.flightOf q = some ⟨[.claimScanner], temp⟩) : q ≠ s.ias.owner ∧ advance q s = s := by
  have hwait : waitsFor q s .claimScanner = some s.ias.owner := if_pos hbusy
  obtain ⟨hstays, hne⟩ := act_held hI hf hwait
  exact ⟨hne.symm, (advance_eq hf).trans hstays⟩

/-- Settles O39: the wait by `claim_held`, the owner by the invariant, and its four steps by `Scanning.runSteps`. -/
theorem scannerHoldsSecondAck : Obligations.ScannerHoldsSecondAck := by
  intro s hI hbusy
  obtain ⟨hidle, hfree, hcount⟩ := ((scanning_of_busy hI hbusy).runSteps 4).ended
  exact ⟨fun q temp hf => claim_held hI hbusy hf, fun q f hf hscan => ((hI.scanner q).2 ⟨f, hf, hscan⟩).2.symm,
    hfree, hidle, hcount⟩

end Sys2Proof.Machine
end

section
/-! PROOFS, family 42_interrupt_ack: a run of ACKs with no other agent moving drains the pending pins (O38). -/

namespace Sys2Proof.Machine

open Sys2Proof.Safety

variable {s t : State} {p n : Nat} {ps : List Nat}

/-! ### The pending pins -/

theorem mem_pendingPins {w : Window} {k : Nat} : k ∈ pendingPins w ↔ k < 54 ∧ w.pending k = true := by
  rw [pendingPins, List.mem_filter, List.mem_range]

/-- The first of the pending pins is the lowest one. -/
theorem pendingPins_head {w : Window} (h : pendingPins w = p :: ps) :
    (p < 54 ∧ w.pending p = true) ∧ ∀ k, k < p → w.pending k = false := by
  have hp : p < 54 ∧ w.pending p = true := mem_pendingPins.1 (by rw [h]; exact List.mem_cons_self)
  refine ⟨hp, fun k hk => ?_⟩
  by_contra hpend
  rw [Bool.not_eq_false] at hpend
  have hmem : k ∈ p :: ps := by rw [← h]; exact mem_pendingPins.2 ⟨by omega, hpend⟩
  have hsorted : (p :: ps).Pairwise (· < ·) := by rw [← h]; exact List.pairwise_lt_range.filter _
  obtain rfl | hmem := List.mem_cons.1 hmem
  · exact Nat.lt_irrefl k hk
  · exact Nat.lt_asymm hk (List.rel_of_pairwise_cons hsorted hmem)

/-- Clearing the latch of the first pending pin leaves the others pending. -/
theorem pendingPins_tail {w w' : Window} (h : pendingPins w = p :: ps)
    (hw : ∀ k, w'.pending k = (w.pending k && !decide (k = p))) : pendingPins w' = ps := by
  have hnot : ∀ k ∈ ps, k ≠ p := by
    have hnodup : (p :: ps).Nodup := by rw [← h]; exact List.nodup_range.filter _
    rintro k hk rfl
    exact (List.nodup_cons.1 hnodup).1 hk
  calc pendingPins w' = (pendingPins w).filter fun k => !decide (k = p) := by
        simp only [pendingPins, List.filter_filter, funext hw, Bool.and_comm]
    _ = ps := by
        rw [h, List.filter_cons_of_neg (by simp)]
        exact List.filter_eq_self.2 fun k hk => by simpa using hnot k hk

theorem respIndex_ackResponse {index : Nat} (h : index < 256) : respIndex (ackResponse index) = index := by
  rw [ackResponse_eq, respIndex, BitVec.extractLsb'_toNat, toNat_ofNat_shiftLeft (by omega)]
  simp only [Nat.shiftLeft_eq, Nat.shiftRight_eq_div_pow]
  omega

/-! ### One ACK after another -/

/-- An ACK can run alone, and the next `n` transactions succeed, with non-pin bits of EDS1 that read 0. -/
structure AckReady (s : State) (n : Nat) : Prop where
  alone : Alone s
  scanner : s.ias.busy = false
  operative : s.inoperative = false
  draws : ∀ k, k < n → (s.drawAt k).err = false ∧ (s.drawAt k).bits &&& 0xFFC00000 = 0

theorem AckReady.busOk (h : AckReady s n) {m : Nat} (hm : m ≤ n) : BusOk s m := fun k hk => (h.draws k (by omega)).1

theorem ended_drawAt (s : State) (q : Nat) (x : Run) (r0 r1 : Word) (k : Nat) :
    (s.ended q x r0 r1).drawAt k = s.drawAt (x.taken + k) :=
  amid_drawAt (s := s) (q := q) (x := x) ⟨[], 0⟩ k

/-- Another ACK can run alone after an operation that ran alone and left the scanner free. -/
theorem AckReady.ended {x : Run} {m : Nat} {r0 : Word} (h : AckReady s (n + m)) (hl : x.locks = s.locks)
    (hfree : x.ias.busy = false) (hi : x.inoperative = false) (ht : x.taken ≤ m) :
    AckReady (s.ended s.issuer x r0 0) n where
  alone :=
    { alive := h.alone.alive
      issuer := by
        have := h.alone.issuer
        simpa [State.ended] using this
      idle := inFlight_ended r0 0
      agenda := h.alone.agenda
      unlocked := by
        have := h.alone.unlocked
        simpa [State.ended, hl] using this }
  scanner := hfree
  operative := hi
  draws k hk := by rw [ended_drawAt]; exact h.draws _ (by omega)

/-- With a pin pending, ACK answers the lowest one and leaves the others pending (R170). -/
theorem ack_drains_first (h : AckReady s (n + 3)) (hpins : pendingPins s.window = p :: ps) :
    ∃ t, exec .ack s = .next t ∧ readResponse s.issuer t = some (ackResponse p, 0) ∧ AckReady t n ∧
      pendingPins t.window = ps := by
  obtain ⟨⟨hp, hset⟩, hleast⟩ := pendingPins_head hpins
  obtain ⟨i, ho, hpending⟩ := ackOutcome_of_pending h.operative (h.busOk (Nat.le_add_left 3 n)) hp hset hleast
  have hexec := exec_ack h.alone.toReady h.alone.agenda h.scanner ho
  exact ⟨_, hexec, (ho.completed h.alone.toReady).response, h.ended ho.locks ho.idle h.operative
    (show i.val + 2 ≤ 3 by omega), pendingPins_tail hpins hpending⟩

/-- With no pin pending, ACK answers 64 (R164). -/
theorem ack_none_pending (h : AckReady s 2) (hpins : pendingPins s.window = []) :
    ∃ t, exec .ack s = .next t ∧ readResponse s.issuer t = some (ackResponse 64, 0) := by
  have hnone : ∀ k, k < 54 → s.window.pending k = false := fun k hk => by
    by_contra hpend
    rw [Bool.not_eq_false] at hpend
    exact List.not_mem_nil (hpins ▸ mem_pendingPins.2 ⟨hk, hpend⟩)
  obtain ⟨t, hexec, hcomp, -⟩ := ackNothingPending s h.alone h.scanner h.operative (h.busOk le_rfl) hnone
    (h.draws 1 Nat.one_lt_two).2
  exact ⟨t, hexec, hcomp.response⟩

theorem ackRun_succ {index : Nat} (hexec : exec .ack s = .next t)
    (hread : readResponse s.issuer t = some (ackResponse index, 0)) (hindex : index < 256) :
    ackRun (n + 1) s = index :: ackRun n t := by
  rw [ackRun, hexec]
  simp only [hread, respIndex_ackResponse hindex]

/-- Settles O38, by induction on the pending pins. -/
theorem ackRunDrainsPending : Obligations.AckRunDrainsPending := by
  intro s h hbusy hi hdraws
  have hready : AckReady s (3 * ((pendingPins s.window).length + 1)) := ⟨h, hbusy, hi, hdraws⟩
  clear h hbusy hi hdraws
  generalize hpins : pendingPins s.window = ps at hready ⊢
  induction ps generalizing s with
  | nil =>
    obtain ⟨t, hexec, hread⟩ := ack_none_pending ⟨hready.alone, hready.scanner, hready.operative,
      fun k hk => hready.draws k (Nat.lt_succ_of_lt hk)⟩ hpins
    exact ackRun_succ hexec hread (by omega)
  | cons p ps ih =>
    obtain ⟨t, hexec, hread, hready', hpins'⟩ := ack_drains_first hready hpins
    rw [List.length_cons, ackRun_succ hexec hread (by have := (pendingPins_head hpins).1.1; omega),
      ih t hpins' hready', List.cons_append]

end Sys2Proof.Machine
end

section
/-! PROOFS, family 60_exceptions: a bad pin (O13), a bad level (O14), a bad edge (O15), and the operations of an
inoperative block (O16). -/

namespace Sys2Proof.Machine

open Sys2Proof.Safety

variable {s t : State} {i : Instr} {pin : Int} {st : Status} {r0 r1 : Word}

/-! ### A check fails -/

/-- The sequence of every configuration operation and of QUERY begins with its checks (R130). -/
theorem instrSteps_csq (h : csqPin i = some pin) : ∃ rest, instrSteps i = .check pin (csqArgError i) :: rest := by
  cases i with
  | addr _ _ => cases h
  | ack => cases h
  | cfgOut _ _ => cases h; exact ⟨_, rfl⟩
  | cfgIn _ => cases h; exact ⟨_, rfl⟩
  | edgeEn _ _ => cases h; exact ⟨_, rfl⟩
  | edgeDis _ => cases h; exact ⟨_, rfl⟩
  | query _ => cases h; exact ⟨_, rfl⟩

/-- The end of an operation that runs alone and fails its checks. -/
def Run.rejected (s : State) : Run := { Run.start s with locks := s.locks.dropAll s.issuer }

/-- An operation that runs alone and raises `st` in its checks completes with `st` and does nothing else (R95, R130). -/
theorem exec_check_raises (h : Alone s) (hpin : csqPin i = some pin)
    (hcheck : ∀ rest, drive 2 s.issuer (s.amid s.issuer (.start s) ⟨.check pin (csqArgError i) :: rest, 0⟩) =
      s.ended s.issuer (.rejected s) st.code 0) :
    ∃ t, exec i s = .next t ∧ Completed s t st.code 0 ∧ NothingDone s t := by
  obtain ⟨rest, hsteps⟩ := instrSteps_csq hpin
  rw [exec_eq_perform, hsteps]
  have hweight : 2 ≤ stepsWeight (.check pin (csqArgError i) :: rest) := Nat.le_add_left 2 _
  exact ⟨_, perform_alone h.toReady 2 hweight (hcheck rest),
    completed_ended h.issuer (dropAll_unlocked h.unlocked) st.code 0, rfl, rfl, rfl, rfl⟩

/-- An inoperative block is reported before the pin and the argument are looked at (R187). -/
theorem exec_csq_inoperative (h : Alone s) (hi : s.inoperative = true) (hpin : csqPin i = some pin) :
    ∃ t, exec i s = .next t ∧ Completed s t Status.registerAccessFailure.code 0 ∧ NothingDone s t :=
  exec_check_raises h hpin fun _ => drive_check_inoperative h.agenda h.issuer (x := .start s) hi 0 pin _

/-- A bad pin is reported before the argument is looked at (R187). -/
theorem exec_csq_invalidPin (h : Alone s) (hi : s.inoperative = false) (hpin : csqPin i = some pin)
    (hp : ¬(0 ≤ pin ∧ pin < 54)) :
    ∃ t, exec i s = .next t ∧ Completed s t Status.invalidPin.code 0 ∧ NothingDone s t :=
  exec_check_raises h hpin fun _ =>
    drive_check_pin h.agenda h.issuer (x := .start s) hi ((validPin_false_iff pin).2 hp) 0 _

/-- A bad argument is reported on a valid pin of an operative block (R130). -/
theorem exec_csq_argument (h : Alone s) (hi : s.inoperative = false) {p : Nat} (hpin : csqPin i = some (p : Int))
    (hp : p < 54) (harg : csqArgError i = some st) :
    ∃ t, exec i s = .next t ∧ Completed s t st.code 0 ∧ NothingDone s t :=
  exec_check_raises h hpin fun _ => by
    rw [harg]
    exact drive_check_argument h.agenda h.issuer (x := .start s) hi (validPin_natCast hp) 0 st

/-! ### A bad pin -/

/-- Settles O13: the checks of a CSQ operation raise InvalidPin (`exec_csq_invalidPin`), the one step of ADDR answers it
(`addrSteps_invalidPin`), and OK is the one status of ACK. -/
theorem invalidPinRejected : Obligations.InvalidPinRejected := by
  refine ⟨fun s i pin h hp hcase => ?_, fun s t r0 r1 hI _ hexec hread => ?_⟩
  · obtain ⟨hpin, hi⟩ | ⟨family, hfamily, rfl⟩ := hcase
    · exact exec_csq_invalidPin h hi hpin hp
    · obtain ⟨f, hf⟩ := exists_familyOfCode hfamily
      exact exec_addr_responds h (addrSteps_invalidPin hf ((validPin_false_iff pin).2 hp))
  · obtain ⟨st, hst, hstatus, -⟩ := answers_of_exec hI hexec hread
    obtain rfl : st = .ok := List.mem_singleton.1 hst
    rw [hstatus]
    decide

/-! ### A bad argument -/

/-- A level code above 1 is the error of CFG_OUT alone (R86). -/
theorem csqArgError_eq_invalidLevel_iff :
    csqArgError i = some .invalidLevel ↔ ∃ pin level, i = .cfgOut pin level ∧ 1 < level := by
  cases i <;> simp [csqArgError, levelError, edgeError]

/-- An edge code above 1 is the error of EDGE_EN alone (R87). -/
theorem csqArgError_eq_invalidEdge_iff :
    csqArgError i = some .invalidEdge ↔ ∃ pin edge, i = .edgeEn pin edge ∧ 1 < edge := by
  cases i <;> simp [csqArgError, levelError, edgeError]

variable {l l' : List Status}

theorem Answers.mono (hl : l ⊆ l') (h : Answers l r0 r1) : Answers l' r0 r1 :=
  let ⟨st, hst, hanswer⟩ := h
  ⟨st, hl hst, hanswer⟩

theorem AnswersAfter.mono (hl : l ⊆ l') {a : Action} (h : AnswersAfter l a) : AnswersAfter l' a := by
  cases a with
  | check _ _ =>
    obtain ⟨hf, hp, hbad⟩ := h
    exact ⟨hl hf, hl hp, fun st hst => hl (hbad st hst)⟩
  | acquire _ | release _ => trivial
  | readField _ _ | writeField _ _ _ | writeOne _ _ => exact ⟨hl h.1, hl h.2⟩
  | queryFunction _ | queryLevel _ _ =>
    obtain ⟨hok, hf, hp⟩ := h
    exact ⟨hl hok, hl hf, hl hp⟩
  | claimScanner | scanLow | scanHigh | scanClear | respondScan _ => exact hl h
  | respond _ _ => exact Answers.mono hl h

theorem SequenceAnswers.mono (hl : l ⊆ l') {todo : List Action} (h : SequenceAnswers l todo) :
    SequenceAnswers l' todo :=
  fun a ha => (h a ha).mono hl

/-- The statuses of every operation but for those of a bad argument, and that of `i`'s argument if it is bad. -/
def statusesByArgument (i : Instr) : List Status :=
  [.ok, .invalidPin, .unknownCommand, .registerAccessFailure] ++ (csqArgError i).toList

/-- The sequence of an operation answers with the error of its argument only if the argument is bad. -/
theorem sequenceAnswers_statusesByArgument (i : Instr) : SequenceAnswers (statusesByArgument i) (instrSteps i) := by
  have hok : .ok ∈ statusesByArgument i := by simp [statusesByArgument]
  have hp : .invalidPin ∈ statusesByArgument i := by simp [statusesByArgument]
  have hf : .registerAccessFailure ∈ statusesByArgument i := by simp [statusesByArgument]
  have harg : ∀ st, csqArgError i = some st → st ∈ statusesByArgument i := fun st h => by simp [statusesByArgument, h]
  cases i with
  | cfgOut pin level =>
    exact .append (.cons ⟨hf, hp, harg⟩ (.rmw hf hp _ _ _)) (.cons ⟨hf, hp⟩ (.respond hok rfl))
  | edgeEn pin edge =>
    exact .append (.append (.append (.append (.cons ⟨hf, hp, harg⟩ (.rmw hf hp _ _ _)) (.rmw hf hp _ _ _))
      (.rmw hf hp _ _ _)) (.rmw hf hp _ _ _)) (.respond hok rfl)
  | _ => exact (sequenceAnswers_instrSteps _).mono (by simp [statusesOf, statusesByArgument])

/-- No two statuses have the same code (R94). -/
theorem Status.toNat_code_inj {st st' : Status} : st.code.toNat = st'.code.toNat ↔ st = st' := by
  cases st <;> cases st' <;> decide

/-- An operation ends with the status of a bad argument only if its argument is bad, whatever other agents do. -/
theorem csqArgError_of_response (hI : Inv s) (hexec : exec i s = .next t)
    (hread : readResponse s.issuer t = some (r0, r1)) (hstatus : respStatus r0 = st.code.toNat)
    (hst : st = .invalidLevel ∨ st = .invalidEdge) : csqArgError i = some st := by
  obtain ⟨hR, rfl⟩ := exec_next hexec
  obtain ⟨r0', r1', hread', st', hmem, hstatus', -⟩ := settle_response hI hR (startOk_instrSteps i)
    (sequenceAnswers_statusesByArgument i) fun _ _ hseq => hseq.after
  rw [hread] at hread'
  cases hread'
  obtain rfl := Status.toNat_code_inj.1 (hstatus.symm.trans hstatus')
  obtain rfl | rfl := hst <;> simpa [statusesByArgument] using hmem

/-- Settles O14: the level is checked last (`exec_csq_argument`), and only this check raises InvalidLevel
(`csqArgError_of_response`). -/
theorem invalidLevelRejected : Obligations.InvalidLevelRejected :=
  ⟨fun _ p level h hi hp hlevel => exec_csq_argument (i := .cfgOut p level) h hi rfl hp
      (csqArgError_eq_invalidLevel_iff.2 ⟨p, level, rfl, hlevel⟩),
    fun _ _ _ _ _ hI _ hexec hread hstatus =>
      csqArgError_eq_invalidLevel_iff.1 (csqArgError_of_response hI hexec hread hstatus (.inl rfl))⟩

/-- Settles O15: the edge is checked last (`exec_csq_argument`), and only this check raises InvalidEdge
(`csqArgError_of_response`). -/
theorem invalidEdgeRejected : Obligations.InvalidEdgeRejected :=
  ⟨fun _ p edge h hi hp hedge => exec_csq_argument (i := .edgeEn p edge) h hi rfl hp
      (csqArgError_eq_invalidEdge_iff.2 ⟨p, edge, rfl, hedge⟩),
    fun _ _ _ _ _ hI _ hexec hread hstatus =>
      csqArgError_eq_invalidEdge_iff.1 (csqArgError_of_response hI hexec hread hstatus (.inr rfl))⟩

/-! ### An inoperative block -/

/-- ADDR answers the location of a pin's bit in the rising-edge enables, whatever `inoperative` is (R119, R185). -/
theorem exec_addr_rising (h : Alone s) {p : Nat} (hp : p < 54) :
    ∃ t r0, exec (.addr p 5) s = .next t ∧ Completed s t r0 (oneBit (p % 32)) ∧ NothingDone s t ∧
      respStatus r0 = 0 ∧ respByteOffset r0 = 0x4C + 4 * (p / 32) := by
  obtain ⟨-, -, hvalid⟩ := addrAnswersLocation s p 5 h
  obtain ⟨t, r0, hexec, hnothing, hcomp, hstatus, hoff, -⟩ := hvalid .risingEdgeEnable rfl (by omega)
  have hmask : oneBit (p % 32) = BitVec.ofNat 32 ((2 ^ 1 - 1) * 2 ^ (p % 32 * 1)) := by
    rw [Nat.mul_one, ← fieldMask_eq_ofNat]; rfl
  refine ⟨t, r0, hexec, hmask ▸ hcomp, hnothing, hstatus, hoff.trans ?_⟩
  simp only [familyBase, pinsPerRegister]
  omega

/-- Settles O16: CSQ operations by `exec_csq_inoperative`, ACK by its end on an inoperative block, ADDR by
`exec_addr_rising`. -/
theorem inoperativeBlocks : Obligations.InoperativeBlocks := by
  refine fun s h hi => ⟨fun i pin => exec_csq_inoperative h hi, fun hbusy => ?_, fun p => exec_addr_rising h⟩
  have ho := AckOutcome.inoperative hi
  exact ⟨_, exec_ack h.toReady h.agenda hbusy ho, ho.completed h.toReady, rfl, rfl, hi, rfl⟩

end Sys2Proof.Machine
end

section
/-! PROOFS, family 70_reset_and_hazards: every operation completes (O50), makes at most eight transactions (O51), and is
refused after destruction (O58). -/

namespace Sys2Proof.Machine

open Sys2Proof.Safety

variable {s t : State} {q : Nat} {rest : List Demand}

/-! ### Completion -/

/-- An operation that has run to its response leaves its port idle, and the response can be read (R205). -/
theorem exec_completes (hI : Inv s) (hR : Ready s) (i : Instr) :
    ∃ t r0 r1, exec i s = .next t ∧ t.inFlight s.issuer = false ∧ readResponse s.issuer t = some (r0, r1) := by
  have hstart := startOk_instrSteps i
  obtain ⟨r0, r1, hread, -⟩ := settle_response hI hR hstart (sequenceAnswers_instrSteps i) fun _ _ hseq => hseq.after
  exact ⟨_, r0, r1, exec_ready hR i, settle_complete (inv_begin hI hR.idle hR.alive hstart) _, hread⟩

/-- A request with a reserved `OP` answers UnknownCommand, whatever other agents do (R82). -/
theorem rejectRequest_completes (hI : Inv s) (hR : Ready s) :
    ∃ t, rejectRequest s = .next t ∧ readResponse s.issuer t = some (errorResponse .unknownCommand, 0) := by
  have hseq : SequenceAnswers [.unknownCommand] unknownSteps := .raise (List.mem_singleton.2 rfl)
  obtain ⟨r0, r1, hread, st, hst, -, herror⟩ := settle_response hI hR (.inl rfl) hseq fun _ _ hseq => hseq.after
  obtain rfl := List.mem_singleton.1 hst
  obtain ⟨rfl, rfl⟩ := herror nofun
  exact ⟨_, perform_ready hR unknownSteps, hread⟩

/-- Settles O50: the run of an operation ends within its fuel (`settle_complete`), and at its end the port holds a
response (`settle_response`), for an instruction (`exec_completes`) and for a reserved `OP`
(`rejectRequest_completes`). -/
theorem everyOperationCompletes : Obligations.EveryOperationCompletes :=
  fun _ hI hR => ⟨exec_completes hI hR, rejectRequest_completes hI hR⟩

/-! ### The number of transactions -/

theorem transactionCount_append (q : Nat) (l bus : List Transaction) :
    transactionCount q (l ++ bus) = transactionCount q l + transactionCount q bus :=
  List.countP_append

theorem State.costOf_congr_port (h : t.ports[q]? = s.ports[q]?) : t.costOf q = s.costOf q := by
  simp only [State.costOf, State.flightOf, h]

/-- No move makes more transactions for the port of an operation in flight than its cost allows: its own step by
`transactionCount_advance`, and a move of another agent records nothing for the port and leaves its operation. -/
theorem transactionCount_makeMove (hI : Inv s) (hq : s.inFlight q = true) (m : Move) :
    transactionCount q (makeMove m s).bus + (makeMove m s).costOf q ≤ transactionCount q s.bus + s.costOf q := by
  by_cases hm : m = .advance q
  · subst hm
    exact transactionCount_advance hI q
  · obtain ⟨l, hbus, hport, -⟩ := makeMove_record hI m
    have hnone : transactionCount q l = 0 := by
      refine List.countP_eq_zero.2 fun x hx hxq => ?_
      obtain ⟨r, rfl, hr⟩ := hport x hx
      exact hm (congrArg Move.advance (hr.symm.trans (beq_iff_eq.1 hxq)))
    rw [hbus, transactionCount_append, hnone, State.costOf_congr_port (makeMove_port hI hq hm), Nat.zero_add]

theorem transactionCount_settle (hI : Inv s) (q : Nat) :
    transactionCount q (settle q s).bus ≤ transactionCount q s.bus + s.costOf q := by
  refine (Nat.le_add_right _ ((settle q s).costOf q)).trans ?_
  exact settle_induction
    (P := fun x => transactionCount q x.bus + x.costOf q ≤ transactionCount q s.bus + s.costOf q)
    (fun _ m hx hq h => (transactionCount_makeMove hx hq m).trans h) (fun _ _ h => h) hI (Nat.le_refl _)

theorem stepsCost_addrSteps (pin : Int) (family : Nat) : stepsCost (addrSteps pin family) = 0 := by
  unfold addrSteps
  split
  · rfl
  · split <;> rfl

/-- The transactions that the sequence of each operation allows (R221); EDGE_EN, with its four RMWs, has the most. -/
theorem stepsCost_instrSteps_le (i : Instr) : stepsCost (instrSteps i) ≤ 8 := by
  cases i with
  | addr pin family => exact (stepsCost_addrSteps pin family).trans_le (by decide)
  | ack => exact (by decide : 3 ≤ 8)
  | cfgOut pin level => exact (by decide : 3 ≤ 8)
  | cfgIn pin => exact (by decide : 2 ≤ 8)
  | edgeEn pin edge => exact (by decide : 8 ≤ 8)
  | edgeDis pin => exact (by decide : 4 ≤ 8)
  | query pin => exact (by decide : 2 ≤ 8)

/-- Settles O51: the run makes no more transactions for its port than the cost of its sequence
(`transactionCount_settle`), which is at most eight (`stepsCost_instrSteps_le`). -/
theorem atMostEightTransactions : Obligations.AtMostEightTransactions := by
  intro i s t hI hR h
  obtain ⟨-, rfl⟩ := exec_next h
  have hrun := transactionCount_settle (inv_begin hI hR.idle hR.alive (startOk_instrSteps i)) s.issuer
  rw [costOf_eq (flightOf_begin_issuer hR (instrSteps i))] at hrun
  exact hrun.trans (Nat.add_le_add_left (stepsCost_instrSteps_le i) _)

/-! ### Destruction -/

theorem exec_destroyed (h : s.destroyed = true) (i : Instr) : exec i s = .refused .destroyed := by
  rw [exec_eq_perform, perform, if_pos h]

theorem runRequest_destroyed (h : s.destroyed = true) (q : Nat) (w : Word) (rest : List Demand) :
    runRequest q w rest s = .refused .destroyed := by
  rw [runRequest, if_pos h]

theorem step_release (h : s.demands = .release :: rest) : step s = runRelease rest s := by
  rw [step, h]

/-- The release of the range, on a controller that is there (R204). -/
theorem runRelease_of_alive (h : s.destroyed = false) (rest : List Demand) :
    runRelease rest s = if s.anyInFlight then .refused .releasedInFlight
      else .next { s with destroyed := true, demands := rest } := by
  rw [runRelease, if_neg (by simp [h])]

/-- Settles O58: a destroyed controller refuses operations (`exec_destroyed`) and requests (`runRequest_destroyed`),
and the release answers by whether an operation is in flight (`runRelease_of_alive`). -/
theorem destructionRefuses : Obligations.DestructionRefuses := by
  refine ⟨fun s hd => ⟨exec_destroyed hd, fun q w rest hdem => ?_⟩, fun s rest hdem hd => ?_⟩
  · exact (step_request hdem).trans (runRequest_destroyed hd q w rest)
  · rw [step_release hdem, runRelease_of_alive hd]
    exact ⟨fun hf => if_neg (by simp [hf]), fun hf => if_pos hf⟩

end Sys2Proof.Machine
end
